-- ==== Sys2Proof/Word.lean ====
section
/-! DEFINITION. The widths of the machine (spec/00_scope.md section 4, R10): words, bytes, register numbers. -/

namespace Sys2Proof

/-- XLEN: registers, `pc`, CSR cells, addresses and intermediates are 64-bit patterns (R10). -/
abbrev Word := BitVec 64

/-- The addressable unit (R50). -/
abbrev Byte := BitVec 8

/-- A 5-bit register field, naming `x0` to `x31` (R20). -/
abbrev Reg := BitVec 5

/-- A 3-bit register field of a compressed instruction, naming `x8` to `x15` (R20, R116). -/
abbrev Reg3 := BitVec 3

end Sys2Proof
end

