-- ==== Sys2Proof/Config.lean ====
section
/-! DEFINITION. The implementation parameters of spec/00_scope.md section 4 and R8: what a platform fixes before the
first step. They are plain data that a state carries (log entry 2), so a statement about every state holds for every
choice of them. -/

namespace Sys2Proof

/-- What setup finds where a region's initial image is to be loaded from (R67, R399). -/
inductive Image where
  /-- no image is loaded into this region: its buffer starts as zeros (R35) -/
  | notLoaded
  /-- an image is asked for and its source is missing: `FATAL_BOOT` at setup (R67, R399) -/
  | missing
  /-- a flat byte dump with no header, byte i for offset i (R448) -/
  | bytes (contents : List Byte)
  deriving DecidableEq, Repr

/-- The bytes an image puts at offsets 0, 1, .. of its buffer (R67). -/
def Image.contents : Image → List Byte
  | .notLoaded => []
  | .missing => []
  | .bytes bs => bs

/-- What backs one tuple of the region table: RAM, ROM or the UART (R51). -/
inductive RegionKind where
  /-- a RAM buffer of `size` bytes (R64) -/
  | ram (size : Nat) (image : Image)
  /-- a ROM buffer of `size` bytes (R66) -/
  | rom (size : Nat) (image : Image)
  /-- the 16550-style UART (R68, R416) -/
  | uart
  deriving DecidableEq, Repr

/-- One tuple `(start, end, region)` of the region table: the half-open range `[start, stop)` (R51). -/
structure RegionEntry where
  start : Word
  stop : Word
  kind : RegionKind
  deriving DecidableEq, Repr

/-- How SLTIU extends its immediate: the parameter `SLTIU_IMM_EXT` (R223). -/
inductive ImmExt where
  | sext
  | zext
  deriving DecidableEq, Repr

/-- The named parameters of R8. -/
structure Config where
  /-- `RESET_PC` -/
  resetPc : Word
  /-- `REGION_TABLE`, in registration order, with the images of its regions -/
  regionTable : List RegionEntry
  /-- `RAM_MAX_SIZE` (R65) -/
  ramMaxSize : Nat
  /-- `UART_LSR_RESET` (R35) -/
  uartLsrReset : Byte
  /-- `JAL_SEXT_BITS`, default 21 (R101) -/
  jalSextBits : Nat := 21
  /-- `SLTIU_IMM_EXT`, default `sext` (R223) -/
  sltiuImmExt : ImmExt := .sext
  /-- `SC_RD_RESULT`, default 0 (R295) -/
  scRdResult : Word := 0
  deriving DecidableEq, Repr

/-- DESIGN CHOICE (log entries 3, 4): the configuration of `State.reset`. The open parameters have the values that
spec/95_test_vectors.md fixes for its examples, with no image loaded; the parameters with a default have it. -/
def Config.default : Config where
  resetPc := 0x1000
  regionTable :=
    [ { start := 0x0, stop := 0x1000, kind := .rom 0x1000 .notLoaded },
      { start := 0x1000, stop := 0x3000, kind := .ram 0x2000 .notLoaded },
      { start := 0x10000000, stop := 0x10000008, kind := .uart } ]
  ramMaxSize := 0x10000000
  uartLsrReset := 0

end Sys2Proof
end

