-- ==== Sys2Proof/Machine/Cells.lean ====
section
/-! DEFINITION. Sparse storage in one canonical form: the buffers of RAM and ROM regions (spec/20_memory.md R64, R66)
and the CSR file (spec/10_state.md R27) are lists of (address, value) with the addresses strictly rising and no entry
that holds what an unlisted address reads as. -/

namespace Sys2Proof.Machine

/-- Cells of `w` bits by address: a byte buffer is `Cells 8`, a list of `Host.Cell`; the CSR file is `Cells 64`. -/
abbrev Cells (w : Nat) := List (Nat × BitVec w)

/-- A byte buffer, by local offset (R31, R64). -/
abbrev Memory := List Host.Cell

/-- What an unlisted address reads as: zero (R34, R35; spec decision D5, log entries 5 and 6). -/
def Cells.unlisted (w : Nat) : BitVec w := 0

/-- The value of a cell. -/
def Cells.get {w : Nat} : Cells w → Nat → BitVec w
  | [], _ => Cells.unlisted w
  | (k, v) :: rest, a => if k = a then v else Cells.get rest a

/-- Put a cell before `rest`, unless it holds what an unlisted address reads as. -/
def Cells.cons {w : Nat} (a : Nat) (v : BitVec w) (rest : Cells w) : Cells w :=
  if v = Cells.unlisted w then rest else (a, v) :: rest

/-- Set one cell, keeping the canonical form. -/
def Cells.set {w : Nat} : Cells w → Nat → BitVec w → Cells w
  | [], a, v => Cells.cons a v []
  | (k, u) :: rest, a, v =>
    if a < k then Cells.cons a v ((k, u) :: rest)
    else if a = k then Cells.cons a v rest
    else (k, u) :: Cells.set rest a v

/-- Every address of the list is at least `lo` and the addresses rise strictly. -/
def Cells.risingFrom {w : Nat} : Nat → Cells w → Bool
  | _, [] => true
  | lo, (k, _) :: rest => decide (lo ≤ k) && Cells.risingFrom (k + 1) rest

/-- The canonical form. -/
def Cells.wf {w : Nat} (m : Cells w) : Bool :=
  Cells.risingFrom 0 m && m.all (fun c => c.2 != Cells.unlisted w)

/-- The canonical form of a byte buffer. -/
abbrev Memory.wf (m : Memory) : Bool := Cells.wf (w := 8) m

/-- Every listed address is below `n`. -/
def Cells.below {w : Nat} (n : Nat) (m : Cells w) : Bool := m.all (fun c => decide (c.1 < n))

/-- A buffer that holds the bytes of an image from offset `o` on, zeros elsewhere (R35, R67, R448). -/
def Memory.ofImage : Nat → List Byte → Memory
  | _, [] => []
  | o, b :: bs => Cells.cons o b (Memory.ofImage (o + 1) bs)

end Sys2Proof.Machine
end

