-- ==== Sys2Proof/Syntax.lean ====
section
/-! DEFINITION. The instructions: one constructor per row of spec/opcode_table.json, in the table's families. Fields are
the fields the formats of spec/30_encoding.md name (R93, R94, R116); immediates are the raw fields or values of R99 to
R105 and spec/49_compressed.md, extended only where they are used (R14). -/

namespace Sys2Proof

/-- An instruction as the decoder delivers it (R30, R115). -/
inductive Instr where
  -- LUI and AUIPC (spec/41_upper_immediate.md), U format (R100)
  /-- LUI, R160 -/
  | lui (rd : Reg) (imm : BitVec 20)
  /-- AUIPC, R161 -/
  | auipc (rd : Reg) (imm : BitVec 20)
  -- Control transfer (spec/42_control_transfer.md)
  /-- JAL, R170: `imm` is the 21-bit J field with bit 0 zero (R101) -/
  | jal (rd : Reg) (imm : BitVec 21)
  /-- JALR, R172 -/
  | jalr (rd rs1 : Reg) (imm : BitVec 12)
  /-- BEQ, R176: `imm` is the 13-bit B field with bit 0 zero (R103) -/
  | beq (rs1 rs2 : Reg) (imm : BitVec 13)
  /-- BNE, R177: `imm` is the 13-bit B field with bit 0 zero (R103) -/
  | bne (rs1 rs2 : Reg) (imm : BitVec 13)
  /-- BLT, R178: `imm` is the 13-bit B field with bit 0 zero (R103) -/
  | blt (rs1 rs2 : Reg) (imm : BitVec 13)
  /-- BGE, R179: `imm` is the 13-bit B field with bit 0 zero (R103) -/
  | bge (rs1 rs2 : Reg) (imm : BitVec 13)
  /-- BLTU, R180: `imm` is the 13-bit B field with bit 0 zero (R103) -/
  | bltu (rs1 rs2 : Reg) (imm : BitVec 13)
  /-- BGEU, R181: `imm` is the 13-bit B field with bit 0 zero (R103) -/
  | bgeu (rs1 rs2 : Reg) (imm : BitVec 13)
  -- Loads and stores (spec/43_load_store.md)
  /-- LB, R192 -/
  | lb (rd rs1 : Reg) (imm : BitVec 12)
  /-- LH, R193 -/
  | lh (rd rs1 : Reg) (imm : BitVec 12)
  /-- LW, R194 -/
  | lw (rd rs1 : Reg) (imm : BitVec 12)
  /-- LD, R195 -/
  | ld (rd rs1 : Reg) (imm : BitVec 12)
  /-- LBU, R196 -/
  | lbu (rd rs1 : Reg) (imm : BitVec 12)
  /-- LHU, R197 -/
  | lhu (rd rs1 : Reg) (imm : BitVec 12)
  /-- LWU, R198 -/
  | lwu (rd rs1 : Reg) (imm : BitVec 12)
  /-- SB, R199: stores `rs2` at `imm(rs1)` -/
  | sb (rs1 rs2 : Reg) (imm : BitVec 12)
  /-- SH, R200: stores `rs2` at `imm(rs1)` -/
  | sh (rs1 rs2 : Reg) (imm : BitVec 12)
  /-- SW, R201: stores `rs2` at `imm(rs1)` -/
  | sw (rs1 rs2 : Reg) (imm : BitVec 12)
  /-- SD, R202: stores `rs2` at `imm(rs1)` -/
  | sd (rs1 rs2 : Reg) (imm : BitVec 12)
  -- ALU with immediate (spec/44_alu_immediate.md)
  /-- ADDI, R221 -/
  | addi (rd rs1 : Reg) (imm : BitVec 12)
  /-- SLTI, R222 -/
  | slti (rd rs1 : Reg) (imm : BitVec 12)
  /-- SLTIU, R223 -/
  | sltiu (rd rs1 : Reg) (imm : BitVec 12)
  /-- XORI, R224 -/
  | xori (rd rs1 : Reg) (imm : BitVec 12)
  /-- ORI, R225 -/
  | ori (rd rs1 : Reg) (imm : BitVec 12)
  /-- ANDI, R226 -/
  | andi (rd rs1 : Reg) (imm : BitVec 12)
  /-- SLLI, R230 -/
  | slli (rd rs1 : Reg) (shamt : BitVec 5)
  /-- SRLI, R231 -/
  | srli (rd rs1 : Reg) (shamt : BitVec 5)
  /-- SRAI, R233 -/
  | srai (rd rs1 : Reg) (shamt : BitVec 5)
  /-- ADDIW, R241 -/
  | addiw (rd rs1 : Reg) (imm : BitVec 12)
  /-- SLLIW, R242 -/
  | slliw (rd rs1 : Reg) (shamt : BitVec 5)
  /-- SRLIW, R243 -/
  | srliw (rd rs1 : Reg) (shamt : BitVec 5)
  /-- SRAIW, R244 -/
  | sraiw (rd rs1 : Reg) (shamt : BitVec 5)
  -- ALU register-register (spec/45_alu_register.md)
  /-- ADD, R251 -/
  | add (rd rs1 rs2 : Reg)
  /-- SUB, R252 -/
  | sub (rd rs1 rs2 : Reg)
  /-- SLL, R253 -/
  | sll (rd rs1 rs2 : Reg)
  /-- SLT, R255 -/
  | slt (rd rs1 rs2 : Reg)
  /-- SLTU, R256 -/
  | sltu (rd rs1 rs2 : Reg)
  /-- XOR, R257 -/
  | xor (rd rs1 rs2 : Reg)
  /-- SRL, R258 -/
  | srl (rd rs1 rs2 : Reg)
  /-- SRA, R259 -/
  | sra (rd rs1 rs2 : Reg)
  /-- OR, R260 -/
  | or (rd rs1 rs2 : Reg)
  /-- AND, R261 -/
  | and (rd rs1 rs2 : Reg)
  -- Multiply and divide (spec/46_muldiv.md)
  /-- MUL, R271 -/
  | mul (rd rs1 rs2 : Reg)
  /-- MULH, R272 -/
  | mulh (rd rs1 rs2 : Reg)
  /-- MULHSU, R273 -/
  | mulhsu (rd rs1 rs2 : Reg)
  /-- MULHU, R274 -/
  | mulhu (rd rs1 rs2 : Reg)
  /-- DIV, R275 -/
  | div (rd rs1 rs2 : Reg)
  /-- DIVU, R276 -/
  | divu (rd rs1 rs2 : Reg)
  /-- REM, R277 -/
  | rem (rd rs1 rs2 : Reg)
  /-- REMU, R278 -/
  | remu (rd rs1 rs2 : Reg)
  -- Atomic opcode (spec/47_atomic.md): `aq`, `rl` and the `rs2` of LR are ignored by the machine and kept as written (log entry 16)
  /-- LR.W, R291 -/
  | lrW (rd rs1 rs2 : Reg) (aq rl : BitVec 1)
  /-- LR.D, R292 -/
  | lrD (rd rs1 rs2 : Reg) (aq rl : BitVec 1)
  /-- SC.W, R294 -/
  | scW (rd rs1 rs2 : Reg) (aq rl : BitVec 1)
  /-- SC.D, R296 -/
  | scD (rd rs1 rs2 : Reg) (aq rl : BitVec 1)
  /-- AMOSWAP.W, R297 -/
  | amoswapW (rd rs1 rs2 : Reg) (aq rl : BitVec 1)
  /-- AMOSWAP.D, R298 -/
  | amoswapD (rd rs1 rs2 : Reg) (aq rl : BitVec 1)
  -- FENCE and SYSTEM (spec/48_fence_system_csr.md)
  /-- FENCE, R311: `bits` is `inst[31:7]`, ignored by the machine and kept as written (log entry 16) -/
  | fence (bits : BitVec 25)
  /-- ECALL, R312 -/
  | ecall
  /-- EBREAK, R313 -/
  | ebreak
  /-- CSRRW, R316: `funct7` is ignored by the machine and kept as written (log entry 16) -/
  | csrrw (rd rs1 rs2 : Reg) (funct7 : BitVec 7)
  /-- CSRRS, R317: `funct7` is ignored by the machine and kept as written (log entry 16) -/
  | csrrs (rd rs1 rs2 : Reg) (funct7 : BitVec 7)
  /-- CSRRC, R318: `funct7` is ignored by the machine and kept as written (log entry 16) -/
  | csrrc (rd rs1 rs2 : Reg) (funct7 : BitVec 7)
  /-- CSRRWI, R319 -/
  | csrrwi (rd rs1 : Reg) (imm : BitVec 12)
  /-- CSRRSI, R320 -/
  | csrrsi (rd rs1 : Reg) (imm : BitVec 12)
  /-- CSRRCI, R321 -/
  | csrrci (rd rs1 : Reg) (imm : BitVec 12)
  -- Compressed (spec/49_compressed.md): immediates are the values `v` of its rules, at the width their bits span
  /-- c.addi4spn, R344 -/
  | cAddi4spn (rd' : Reg3) (nzuimm : BitVec 10)
  /-- c.lw, R345 -/
  | cLw (rd' rs1' : Reg3) (uimm : BitVec 7)
  /-- c.sw, R346 -/
  | cSw (rs1' rs2' : Reg3) (uimm : BitVec 7)
  /-- c.addi (c.nop when `rd = x0`), R348 -/
  | cAddi (rd : Reg) (imm : BitVec 6)
  /-- c.jal, R351 -/
  | cJal (imm : BitVec 12)
  /-- c.li, R352 -/
  | cLi (rd : Reg) (imm : BitVec 6)
  /-- c.addi16sp, R354 -/
  | cAddi16sp (nzimm : BitVec 10)
  /-- c.lui, R356 -/
  | cLui (rd : Reg) (nzimm : BitVec 6)
  /-- c.srli, R358 -/
  | cSrli (rd' : Reg3) (shamt : BitVec 5)
  /-- c.srai, R359 -/
  | cSrai (rd' : Reg3) (shamt : BitVec 5)
  /-- c.andi, R360 -/
  | cAndi (rd' : Reg3) (imm : BitVec 6)
  /-- c.sub, R361 -/
  | cSub (rd' rs2' : Reg3)
  /-- c.xor, R362 -/
  | cXor (rd' rs2' : Reg3)
  /-- c.or, R363 -/
  | cOr (rd' rs2' : Reg3)
  /-- c.and, R364 -/
  | cAnd (rd' rs2' : Reg3)
  /-- c.j, R365 -/
  | cJ (imm : BitVec 12)
  /-- c.beqz, R366 -/
  | cBeqz (rs1' : Reg3) (imm : BitVec 9)
  /-- c.bnez, R367 -/
  | cBnez (rs1' : Reg3) (imm : BitVec 9)
  /-- c.slli, R368 -/
  | cSlli (rd : Reg) (shamt : BitVec 5)
  /-- c.slli64, R369: recognised, not implemented -/
  | cSlli64 (rd : Reg)
  /-- c.jr, R371 -/
  | cJr (rs1 : Reg)
  /-- c.mv, R373 -/
  | cMv (rd rs2 : Reg)
  /-- c.ebreak, R370 -/
  | cEbreak
  /-- c.jalr, R372 -/
  | cJalr (rs1 : Reg)
  /-- c.add, R374 -/
  | cAdd (rd rs2 : Reg)
  deriving DecidableEq, Repr


end Sys2Proof
end

