-- ==== Sys2Proof/WellFormed.lean ====
section
/-! DEFINITION. Which terms of `Instr` stand for an encoding: the checks are the zero bits of the immediates of
spec/30_encoding.md (R101, R103) and the conditions of the compressed map (R117, R118, R342). -/

namespace Sys2Proof

/-- `v` is a multiple of `2 ^ k`: its low `k` bits are zero. -/
def lowZero {w : Nat} (k : Nat) (v : BitVec w) : Bool := v.setWidth k == 0#k

/-- The instruction has an encoding; every operand it admits is admitted here. -/
def Instr.wf : Instr → Bool
  -- the J and B fields have bit 0 zero (R101, R103)
  | .jal _ imm => lowZero 1 imm
  | .beq _ _ imm | .bne _ _ imm | .blt _ _ imm | .bge _ _ imm | .bltu _ _ imm | .bgeu _ _ imm => lowZero 1 imm
  -- scaled compressed immediates (R344, R345, R346, R351, R365, R366, R367)
  | .cAddi4spn _ nzuimm => lowZero 2 nzuimm && nzuimm != 0
  | .cLw _ _ uimm | .cSw _ _ uimm => lowZero 2 uimm
  | .cJal imm | .cJ imm => lowZero 1 imm
  | .cBeqz _ imm | .cBnez _ imm => lowZero 1 imm
  -- the non-zero conditions of the compressed map (R117, R342)
  | .cAddi16sp nzimm => lowZero 4 nzimm && nzimm != 0
  | .cLui rd nzimm => rd != 2 && nzimm != 0
  | .cSlli _ shamt => shamt != 0
  | .cJr rs1 | .cJalr rs1 => rs1 != 0
  | .cMv _ rs2 | .cAdd _ rs2 => rs2 != 0
  -- every other operand value is an encoding
  | .lui _ _ | .auipc _ _ | .jalr _ _ _
  | .lb _ _ _ | .lh _ _ _ | .lw _ _ _ | .ld _ _ _ | .lbu _ _ _ | .lhu _ _ _ | .lwu _ _ _
  | .sb _ _ _ | .sh _ _ _ | .sw _ _ _ | .sd _ _ _
  | .addi _ _ _ | .slti _ _ _ | .sltiu _ _ _ | .xori _ _ _ | .ori _ _ _ | .andi _ _ _
  | .slli _ _ _ | .srli _ _ _ | .srai _ _ _ | .addiw _ _ _ | .slliw _ _ _ | .srliw _ _ _ | .sraiw _ _ _
  | .add _ _ _ | .sub _ _ _ | .sll _ _ _ | .slt _ _ _ | .sltu _ _ _
  | .xor _ _ _ | .srl _ _ _ | .sra _ _ _ | .or _ _ _ | .and _ _ _
  | .mul _ _ _ | .mulh _ _ _ | .mulhsu _ _ _ | .mulhu _ _ _
  | .div _ _ _ | .divu _ _ _ | .rem _ _ _ | .remu _ _ _
  | .lrW _ _ _ _ _ | .lrD _ _ _ _ _ | .scW _ _ _ _ _ | .scD _ _ _ _ _
  | .amoswapW _ _ _ _ _ | .amoswapD _ _ _ _ _
  | .fence _ | .ecall | .ebreak
  | .csrrw _ _ _ _ | .csrrs _ _ _ _ | .csrrc _ _ _ _ | .csrrwi _ _ _ | .csrrsi _ _ _ | .csrrci _ _ _
  | .cAddi _ _ | .cLi _ _ | .cSrli _ _ | .cSrai _ _ | .cAndi _ _
  | .cSub _ _ | .cXor _ _ | .cOr _ _ | .cAnd _ _ | .cSlli64 _ | .cEbreak => true

end Sys2Proof
end

