-- ==== Sys2Proof/Decode.lean ====
section
/-! DEFINITION. The decoder: a pure total function of the 32-bit fetch word (spec/30_encoding.md R92), the encoder
written from the same formats (R94, R117), the expansion of the compressed forms (R115, R340), and the host's entry
`decodeTableWord`. -/

namespace Sys2Proof

/-! ## Fields of a standard word (R93, R95) -/

def opcodeOf (w : BitVec 32) : BitVec 7 := w.extractLsb' 0 7
def rdOf (w : BitVec 32) : Reg := w.extractLsb' 7 5
def funct3Of (w : BitVec 32) : BitVec 3 := w.extractLsb' 12 3
def rs1Of (w : BitVec 32) : Reg := w.extractLsb' 15 5
def rs2Of (w : BitVec 32) : Reg := w.extractLsb' 20 5
def shamtOf (w : BitVec 32) : BitVec 5 := w.extractLsb' 20 5
def funct7Of (w : BitVec 32) : BitVec 7 := w.extractLsb' 25 7
/-- The AMO sub-operation, `inst[31:27]` (R95). -/
def funct5Of (w : BitVec 32) : BitVec 5 := w.extractLsb' 27 5
def aqOf (w : BitVec 32) : BitVec 1 := w.extractLsb' 26 1
def rlOf (w : BitVec 32) : BitVec 1 := w.extractLsb' 25 1

/-! ## Immediates of a standard word (R100 to R104) -/

/-- R102 -/
def immIOf (w : BitVec 32) : BitVec 12 := w.extractLsb' 20 12
/-- R104 -/
def immSOf (w : BitVec 32) : BitVec 12 := w.extractLsb' 25 7 ++ w.extractLsb' 7 5
/-- R103 -/
def immBOf (w : BitVec 32) : BitVec 13 :=
  w.extractLsb' 31 1 ++ w.extractLsb' 7 1 ++ w.extractLsb' 25 6 ++ w.extractLsb' 8 4 ++ 0#1
/-- R100 -/
def immUOf (w : BitVec 32) : BitVec 20 := w.extractLsb' 12 20
/-- R101 -/
def immJOf (w : BitVec 32) : BitVec 21 :=
  w.extractLsb' 31 1 ++ w.extractLsb' 12 8 ++ w.extractLsb' 20 1 ++ w.extractLsb' 21 10 ++ 0#1

/-! ## The thirteen primary opcodes (R96) -/

def opLoad : BitVec 7 := 0b0000011#7
def opFence : BitVec 7 := 0b0001111#7
def opAluImm : BitVec 7 := 0b0010011#7
def opAuipc : BitVec 7 := 0b0010111#7
def opAluImm64 : BitVec 7 := 0b0011011#7
def opStore : BitVec 7 := 0b0100011#7
def opAtomic : BitVec 7 := 0b0101111#7
def opAlu : BitVec 7 := 0b0110011#7
def opLui : BitVec 7 := 0b0110111#7
def opBranch : BitVec 7 := 0b1100011#7
def opJalr : BitVec 7 := 0b1100111#7
def opJal : BitVec 7 := 0b1101111#7
def opSystem : BitVec 7 := 0b1110011#7

/-- What the decoder answers for a word that is no instruction, with what it reports (R92, R120). The dispatch class
is decided by the word alone too, so the decoder answers it (log entry 13). -/
inductive DecodeError where
  /-- unknown primary opcode (R97, R392) -/
  | unknownOpcode (opcode : BitVec 7) (word : BitVec 32)
  /-- illegal compressed instruction (R118, R393) -/
  | illegalCompressed (half : BitVec 16)
  /-- recognised opcode, unhandled funct3, funct7 or funct5 (R114, R394) -/
  | unhandled (opcode : BitVec 7) (word : BitVec 32)
  deriving DecidableEq, Repr

abbrev Decoded := Except DecodeError Instr

/-- R114: a recognised opcode whose second-level fields select nothing. -/
def unhandled (w : BitVec 32) : Decoded := .error (.unhandled (opcodeOf w) w)

/-! ## Second-level dispatch (R106 to R113) -/

/-- R106 -/
def decodeBranch (w : BitVec 32) : Decoded :=
  if funct3Of w = 0b000#3 then .ok (.beq (rs1Of w) (rs2Of w) (immBOf w))
  else if funct3Of w = 0b001#3 then .ok (.bne (rs1Of w) (rs2Of w) (immBOf w))
  else if funct3Of w = 0b100#3 then .ok (.blt (rs1Of w) (rs2Of w) (immBOf w))
  else if funct3Of w = 0b101#3 then .ok (.bge (rs1Of w) (rs2Of w) (immBOf w))
  else if funct3Of w = 0b110#3 then .ok (.bltu (rs1Of w) (rs2Of w) (immBOf w))
  else if funct3Of w = 0b111#3 then .ok (.bgeu (rs1Of w) (rs2Of w) (immBOf w))
  else unhandled w

/-- R107 -/
def decodeLoad (w : BitVec 32) : Decoded :=
  if funct3Of w = 0b000#3 then .ok (.lb (rdOf w) (rs1Of w) (immIOf w))
  else if funct3Of w = 0b001#3 then .ok (.lh (rdOf w) (rs1Of w) (immIOf w))
  else if funct3Of w = 0b010#3 then .ok (.lw (rdOf w) (rs1Of w) (immIOf w))
  else if funct3Of w = 0b011#3 then .ok (.ld (rdOf w) (rs1Of w) (immIOf w))
  else if funct3Of w = 0b100#3 then .ok (.lbu (rdOf w) (rs1Of w) (immIOf w))
  else if funct3Of w = 0b101#3 then .ok (.lhu (rdOf w) (rs1Of w) (immIOf w))
  else if funct3Of w = 0b110#3 then .ok (.lwu (rdOf w) (rs1Of w) (immIOf w))
  else unhandled w

/-- R107 -/
def decodeStore (w : BitVec 32) : Decoded :=
  if funct3Of w = 0b000#3 then .ok (.sb (rs1Of w) (rs2Of w) (immSOf w))
  else if funct3Of w = 0b001#3 then .ok (.sh (rs1Of w) (rs2Of w) (immSOf w))
  else if funct3Of w = 0b010#3 then .ok (.sw (rs1Of w) (rs2Of w) (immSOf w))
  else if funct3Of w = 0b011#3 then .ok (.sd (rs1Of w) (rs2Of w) (immSOf w))
  else unhandled w

/-- R108, R232 -/
def decodeAluImm (w : BitVec 32) : Decoded :=
  if funct3Of w = 0b000#3 then .ok (.addi (rdOf w) (rs1Of w) (immIOf w))
  else if funct3Of w = 0b010#3 then .ok (.slti (rdOf w) (rs1Of w) (immIOf w))
  else if funct3Of w = 0b011#3 then .ok (.sltiu (rdOf w) (rs1Of w) (immIOf w))
  else if funct3Of w = 0b100#3 then .ok (.xori (rdOf w) (rs1Of w) (immIOf w))
  else if funct3Of w = 0b110#3 then .ok (.ori (rdOf w) (rs1Of w) (immIOf w))
  else if funct3Of w = 0b111#3 then .ok (.andi (rdOf w) (rs1Of w) (immIOf w))
  else if funct3Of w = 0b001#3 then
    if funct7Of w = 0b0000000#7 then .ok (.slli (rdOf w) (rs1Of w) (shamtOf w)) else unhandled w
  else
    if funct7Of w = 0b0000000#7 then .ok (.srli (rdOf w) (rs1Of w) (shamtOf w))
    else if funct7Of w = 0b0100000#7 then .ok (.srai (rdOf w) (rs1Of w) (shamtOf w))
    else unhandled w

/-- R109, R232 -/
def decodeAluImm64 (w : BitVec 32) : Decoded :=
  if funct3Of w = 0b000#3 then .ok (.addiw (rdOf w) (rs1Of w) (immIOf w))
  else if funct3Of w = 0b001#3 then
    if funct7Of w = 0b0000000#7 then .ok (.slliw (rdOf w) (rs1Of w) (shamtOf w)) else unhandled w
  else if funct3Of w = 0b101#3 then
    if funct7Of w = 0b0000000#7 then .ok (.srliw (rdOf w) (rs1Of w) (shamtOf w))
    else if funct7Of w = 0b0100000#7 then .ok (.sraiw (rdOf w) (rs1Of w) (shamtOf w))
    else unhandled w
  else unhandled w

/-- R110: funct7 0000000. -/
def decodeAluBase (w : BitVec 32) : Decoded :=
  if funct3Of w = 0b000#3 then .ok (.add (rdOf w) (rs1Of w) (rs2Of w))
  else if funct3Of w = 0b001#3 then .ok (.sll (rdOf w) (rs1Of w) (rs2Of w))
  else if funct3Of w = 0b010#3 then .ok (.slt (rdOf w) (rs1Of w) (rs2Of w))
  else if funct3Of w = 0b011#3 then .ok (.sltu (rdOf w) (rs1Of w) (rs2Of w))
  else if funct3Of w = 0b100#3 then .ok (.xor (rdOf w) (rs1Of w) (rs2Of w))
  else if funct3Of w = 0b101#3 then .ok (.srl (rdOf w) (rs1Of w) (rs2Of w))
  else if funct3Of w = 0b110#3 then .ok (.or (rdOf w) (rs1Of w) (rs2Of w))
  else .ok (.and (rdOf w) (rs1Of w) (rs2Of w))

/-- R111: funct7 0000001, the MUL-group. -/
def decodeMulGroup (w : BitVec 32) : Decoded :=
  if funct3Of w = 0b000#3 then .ok (.mul (rdOf w) (rs1Of w) (rs2Of w))
  else if funct3Of w = 0b001#3 then .ok (.mulh (rdOf w) (rs1Of w) (rs2Of w))
  else if funct3Of w = 0b010#3 then .ok (.mulhsu (rdOf w) (rs1Of w) (rs2Of w))
  else if funct3Of w = 0b011#3 then .ok (.mulhu (rdOf w) (rs1Of w) (rs2Of w))
  else if funct3Of w = 0b100#3 then .ok (.div (rdOf w) (rs1Of w) (rs2Of w))
  else if funct3Of w = 0b101#3 then .ok (.divu (rdOf w) (rs1Of w) (rs2Of w))
  else if funct3Of w = 0b110#3 then .ok (.rem (rdOf w) (rs1Of w) (rs2Of w))
  else .ok (.remu (rdOf w) (rs1Of w) (rs2Of w))

/-- R110, R111: opcode ALU, by funct7. -/
def decodeAlu (w : BitVec 32) : Decoded :=
  if funct7Of w = 0b0000000#7 then decodeAluBase w
  else if funct7Of w = 0b0100000#7 then
    if funct3Of w = 0b000#3 then .ok (.sub (rdOf w) (rs1Of w) (rs2Of w))
    else if funct3Of w = 0b101#3 then .ok (.sra (rdOf w) (rs1Of w) (rs2Of w))
    else unhandled w
  else if funct7Of w = 0b0000001#7 then decodeMulGroup w
  else unhandled w

/-- R112 -/
def decodeAtomic (w : BitVec 32) : Decoded :=
  if funct3Of w = 0b010#3 then
    if funct5Of w = 0b00010#5 then .ok (.lrW (rdOf w) (rs1Of w) (rs2Of w) (aqOf w) (rlOf w))
    else if funct5Of w = 0b00011#5 then .ok (.scW (rdOf w) (rs1Of w) (rs2Of w) (aqOf w) (rlOf w))
    else if funct5Of w = 0b00001#5 then .ok (.amoswapW (rdOf w) (rs1Of w) (rs2Of w) (aqOf w) (rlOf w))
    else unhandled w
  else if funct3Of w = 0b011#3 then
    if funct5Of w = 0b00010#5 then .ok (.lrD (rdOf w) (rs1Of w) (rs2Of w) (aqOf w) (rlOf w))
    else if funct5Of w = 0b00011#5 then .ok (.scD (rdOf w) (rs1Of w) (rs2Of w) (aqOf w) (rlOf w))
    else if funct5Of w = 0b00001#5 then .ok (.amoswapD (rdOf w) (rs1Of w) (rs2Of w) (aqOf w) (rlOf w))
    else unhandled w
  else unhandled w

/-- R113, R312 to R314 -/
def decodeSystem (w : BitVec 32) : Decoded :=
  if w = 0x00000073#32 then .ok .ecall
  else if w = 0x00100073#32 then .ok .ebreak
  else if funct3Of w = 0b001#3 then .ok (.csrrw (rdOf w) (rs1Of w) (rs2Of w) (funct7Of w))
  else if funct3Of w = 0b010#3 then .ok (.csrrs (rdOf w) (rs1Of w) (rs2Of w) (funct7Of w))
  else if funct3Of w = 0b011#3 then .ok (.csrrc (rdOf w) (rs1Of w) (rs2Of w) (funct7Of w))
  else if funct3Of w = 0b101#3 then .ok (.csrrwi (rdOf w) (rs1Of w) (immIOf w))
  else if funct3Of w = 0b110#3 then .ok (.csrrsi (rdOf w) (rs1Of w) (immIOf w))
  else if funct3Of w = 0b111#3 then .ok (.csrrci (rdOf w) (rs1Of w) (immIOf w))
  else unhandled w

/-- A standard word, by primary opcode (R94, R96, R97, R113). -/
def decodeStandard (w : BitVec 32) : Decoded :=
  if opcodeOf w = opLoad then decodeLoad w
  else if opcodeOf w = opFence then .ok (.fence (w.extractLsb' 7 25))
  else if opcodeOf w = opAluImm then decodeAluImm w
  else if opcodeOf w = opAuipc then .ok (.auipc (rdOf w) (immUOf w))
  else if opcodeOf w = opAluImm64 then decodeAluImm64 w
  else if opcodeOf w = opStore then decodeStore w
  else if opcodeOf w = opAtomic then decodeAtomic w
  else if opcodeOf w = opAlu then decodeAlu w
  else if opcodeOf w = opLui then .ok (.lui (rdOf w) (immUOf w))
  else if opcodeOf w = opBranch then decodeBranch w
  else if opcodeOf w = opJalr then
    if funct3Of w = 0b000#3 then .ok (.jalr (rdOf w) (rs1Of w) (immIOf w)) else unhandled w
  else if opcodeOf w = opJal then .ok (.jal (rdOf w) (immJOf w))
  else if opcodeOf w = opSystem then decodeSystem w
  else .error (.unknownOpcode (opcodeOf w) w)

/-! ## Fields of a compressed halfword (R116 and spec/49_compressed.md) -/

def quadrantOf (c : BitVec 16) : BitVec 2 := c.extractLsb' 0 2
def cFunct3Of (c : BitVec 16) : BitVec 3 := c.extractLsb' 13 3
/-- `c[11:7]`: `rd`, `rs1` or both (R116) -/
def cRdOf (c : BitVec 16) : Reg := c.extractLsb' 7 5
/-- `c[6:2]`: `rs2` or a shift amount (R116) -/
def cRs2Of (c : BitVec 16) : Reg := c.extractLsb' 2 5
/-- `c[9:7]` (R116) -/
def cRs1'Of (c : BitVec 16) : Reg3 := c.extractLsb' 7 3
/-- `c[4:2]` (R116) -/
def cRs2'Of (c : BitVec 16) : Reg3 := c.extractLsb' 2 3
def cBit12Of (c : BitVec 16) : BitVec 1 := c.extractLsb' 12 1

/-- `{c[12], c[6:2]}` (R348, R352, R356, R360) -/
def cImm6Of (c : BitVec 16) : BitVec 6 := c.extractLsb' 12 1 ++ c.extractLsb' 2 5
/-- R344 -/
def cImm4spnOf (c : BitVec 16) : BitVec 10 :=
  c.extractLsb' 7 4 ++ c.extractLsb' 11 2 ++ c.extractLsb' 5 1 ++ c.extractLsb' 6 1 ++ 0#2
/-- R345 -/
def cImmLwOf (c : BitVec 16) : BitVec 7 :=
  c.extractLsb' 5 1 ++ c.extractLsb' 10 3 ++ c.extractLsb' 6 1 ++ 0#2
/-- R351 -/
def cImmJOf (c : BitVec 16) : BitVec 12 :=
  c.extractLsb' 12 1 ++ c.extractLsb' 8 1 ++ c.extractLsb' 9 2 ++ c.extractLsb' 6 1 ++ c.extractLsb' 7 1 ++
    c.extractLsb' 2 1 ++ c.extractLsb' 11 1 ++ c.extractLsb' 3 3 ++ 0#1
/-- R354 -/
def cImm16spOf (c : BitVec 16) : BitVec 10 :=
  c.extractLsb' 12 1 ++ c.extractLsb' 3 2 ++ c.extractLsb' 5 1 ++ c.extractLsb' 2 1 ++ c.extractLsb' 6 1 ++ 0#4
/-- R366 -/
def cImmBOf (c : BitVec 16) : BitVec 9 :=
  c.extractLsb' 12 1 ++ c.extractLsb' 5 2 ++ c.extractLsb' 2 1 ++ c.extractLsb' 10 2 ++ c.extractLsb' 3 2 ++ 0#1

/-! ## The compressed decoder (R117, R118, R376) -/

/-- R118 -/
def illegal (c : BitVec 16) : Decoded := .error (.illegalCompressed c)

/-- Quadrant 00 (R344 to R347). -/
def decodeQuadrant0 (c : BitVec 16) : Decoded :=
  if cFunct3Of c = 0b000#3 then
    if cImm4spnOf c = 0 then illegal c else .ok (.cAddi4spn (cRs2'Of c) (cImm4spnOf c))
  else if cFunct3Of c = 0b010#3 then .ok (.cLw (cRs2'Of c) (cRs1'Of c) (cImmLwOf c))
  else if cFunct3Of c = 0b110#3 then .ok (.cSw (cRs1'Of c) (cRs2'Of c) (cImmLwOf c))
  else illegal c

/-- Quadrant 01, funct3 100 (R358 to R364). -/
def decodeQuadrant1Alu (c : BitVec 16) : Decoded :=
  if c.extractLsb' 10 2 = 0b00#2 then
    if cBit12Of c = 0 then .ok (.cSrli (cRs1'Of c) (cRs2Of c)) else illegal c
  else if c.extractLsb' 10 2 = 0b01#2 then
    if cBit12Of c = 0 then .ok (.cSrai (cRs1'Of c) (cRs2Of c)) else illegal c
  else if c.extractLsb' 10 2 = 0b10#2 then .ok (.cAndi (cRs1'Of c) (cImm6Of c))
  else if cBit12Of c = 0 then
    if c.extractLsb' 5 2 = 0b00#2 then .ok (.cSub (cRs1'Of c) (cRs2'Of c))
    else if c.extractLsb' 5 2 = 0b01#2 then .ok (.cXor (cRs1'Of c) (cRs2'Of c))
    else if c.extractLsb' 5 2 = 0b10#2 then .ok (.cOr (cRs1'Of c) (cRs2'Of c))
    else .ok (.cAnd (cRs1'Of c) (cRs2'Of c))
  else illegal c

/-- Quadrant 01 (R348 to R367). -/
def decodeQuadrant1 (c : BitVec 16) : Decoded :=
  if cFunct3Of c = 0b000#3 then .ok (.cAddi (cRdOf c) (cImm6Of c))
  else if cFunct3Of c = 0b001#3 then .ok (.cJal (cImmJOf c))
  else if cFunct3Of c = 0b010#3 then .ok (.cLi (cRdOf c) (cImm6Of c))
  else if cFunct3Of c = 0b011#3 then
    if cRdOf c = 2 then
      if cImm16spOf c = 0 then illegal c else .ok (.cAddi16sp (cImm16spOf c))
    else if cImm6Of c = 0 then illegal c else .ok (.cLui (cRdOf c) (cImm6Of c))
  else if cFunct3Of c = 0b100#3 then decodeQuadrant1Alu c
  else if cFunct3Of c = 0b101#3 then .ok (.cJ (cImmJOf c))
  else if cFunct3Of c = 0b110#3 then .ok (.cBeqz (cRs1'Of c) (cImmBOf c))
  else .ok (.cBnez (cRs1'Of c) (cImmBOf c))

/-- Quadrant 10 (R368 to R375). -/
def decodeQuadrant2 (c : BitVec 16) : Decoded :=
  if cFunct3Of c = 0b000#3 then
    if cBit12Of c = 0 then
      if cRs2Of c = 0 then .ok (.cSlli64 (cRdOf c)) else .ok (.cSlli (cRdOf c) (cRs2Of c))
    else illegal c
  else if cFunct3Of c = 0b100#3 then
    if cBit12Of c = 0 then
      if cRs2Of c = 0 then
        if cRdOf c = 0 then illegal c else .ok (.cJr (cRdOf c))
      else .ok (.cMv (cRdOf c) (cRs2Of c))
    else if cRs2Of c = 0 then
      if cRdOf c = 0 then .ok .cEbreak else .ok (.cJalr (cRdOf c))
    else .ok (.cAdd (cRdOf c) (cRs2Of c))
  else illegal c

/-- A halfword that does not end in `0b11`, by quadrant (R115). -/
def decodeCompressed (c : BitVec 16) : Decoded :=
  if quadrantOf c = 0b00#2 then decodeQuadrant0 c
  else if quadrantOf c = 0b01#2 then decodeQuadrant1 c
  else decodeQuadrant2 c

/-- The decoder (R90, R91, R92): the low two bits choose the length; of a compressed instruction the high half of the
fetch word is ignored. -/
def decode (w : BitVec 32) : Decoded :=
  if w.extractLsb' 0 2 = 0b11#2 then decodeStandard w else decodeCompressed (w.extractLsb' 0 16)

/-- The encoding length in bytes, which is also the default advance of `pc` (R90, R149). -/
def Instr.size : Instr → Nat
  | .cAddi4spn _ _ | .cLw _ _ _ | .cSw _ _ _ | .cAddi _ _ | .cJal _ | .cLi _ _ | .cAddi16sp _ | .cLui _ _
  | .cSrli _ _ | .cSrai _ _ | .cAndi _ _ | .cSub _ _ | .cXor _ _ | .cOr _ _ | .cAnd _ _ | .cJ _
  | .cBeqz _ _ | .cBnez _ _ | .cSlli _ _ | .cSlli64 _ | .cJr _ | .cMv _ _ | .cEbreak | .cJalr _ | .cAdd _ _ => 2
  | .lui _ _ | .auipc _ _ | .jal _ _ | .jalr _ _ _
  | .beq _ _ _ | .bne _ _ _ | .blt _ _ _ | .bge _ _ _ | .bltu _ _ _ | .bgeu _ _ _
  | .lb _ _ _ | .lh _ _ _ | .lw _ _ _ | .ld _ _ _ | .lbu _ _ _ | .lhu _ _ _ | .lwu _ _ _
  | .sb _ _ _ | .sh _ _ _ | .sw _ _ _ | .sd _ _ _
  | .addi _ _ _ | .slti _ _ _ | .sltiu _ _ _ | .xori _ _ _ | .ori _ _ _ | .andi _ _ _
  | .slli _ _ _ | .srli _ _ _ | .srai _ _ _ | .addiw _ _ _ | .slliw _ _ _ | .srliw _ _ _ | .sraiw _ _ _
  | .add _ _ _ | .sub _ _ _ | .sll _ _ _ | .slt _ _ _ | .sltu _ _ _
  | .xor _ _ _ | .srl _ _ _ | .sra _ _ _ | .or _ _ _ | .and _ _ _
  | .mul _ _ _ | .mulh _ _ _ | .mulhsu _ _ _ | .mulhu _ _ _
  | .div _ _ _ | .divu _ _ _ | .rem _ _ _ | .remu _ _ _
  | .lrW _ _ _ _ _ | .lrD _ _ _ _ _ | .scW _ _ _ _ _ | .scD _ _ _ _ _
  | .amoswapW _ _ _ _ _ | .amoswapD _ _ _ _ _
  | .fence _ | .ecall | .ebreak
  | .csrrw _ _ _ _ | .csrrs _ _ _ _ | .csrrc _ _ _ _ | .csrrwi _ _ _ | .csrrsi _ _ _ | .csrrci _ _ _ => 4

/-! ## The encoder (R94, R117) -/

def packR (funct7 : BitVec 7) (rs2 rs1 : Reg) (funct3 : BitVec 3) (rd : Reg) (opcode : BitVec 7) : BitVec 32 :=
  funct7 ++ rs2 ++ rs1 ++ funct3 ++ rd ++ opcode
def packI (imm : BitVec 12) (rs1 : Reg) (funct3 : BitVec 3) (rd : Reg) (opcode : BitVec 7) : BitVec 32 :=
  imm ++ rs1 ++ funct3 ++ rd ++ opcode
def packS (imm : BitVec 12) (rs2 rs1 : Reg) (funct3 : BitVec 3) (opcode : BitVec 7) : BitVec 32 :=
  packR (imm.extractLsb' 5 7) rs2 rs1 funct3 (imm.extractLsb' 0 5) opcode
def packB (imm : BitVec 13) (rs2 rs1 : Reg) (funct3 : BitVec 3) (opcode : BitVec 7) : BitVec 32 :=
  packR (imm.extractLsb' 12 1 ++ imm.extractLsb' 5 6) rs2 rs1 funct3
    (imm.extractLsb' 1 4 ++ imm.extractLsb' 11 1) opcode
def packU (imm : BitVec 20) (rd : Reg) (opcode : BitVec 7) : BitVec 32 := imm ++ rd ++ opcode
def packJ (imm : BitVec 21) (rd : Reg) (opcode : BitVec 7) : BitVec 32 :=
  packU (imm.extractLsb' 20 1 ++ imm.extractLsb' 1 10 ++ imm.extractLsb' 11 1 ++ imm.extractLsb' 12 8) rd opcode
/-- R95: `funct5`, `aq`, `rl` stand where the R format has `funct7`. -/
def packAtomic (funct5 : BitVec 5) (aq rl : BitVec 1) (rs2 rs1 : Reg) (funct3 : BitVec 3) (rd : Reg) : BitVec 32 :=
  packR (funct5 ++ aq ++ rl) rs2 rs1 funct3 rd opAtomic

/-- `c[15:13] ++ c[12] ++ c[11:7] ++ c[6:2] ++ c[1:0]` -/
def packC (funct3 : BitVec 3) (bit12 : BitVec 1) (rd rs2 : Reg) (quadrant : BitVec 2) : BitVec 16 :=
  funct3 ++ bit12 ++ rd ++ rs2 ++ quadrant
/-- R344 -/
def pack4spn (v : BitVec 10) (rd' : Reg3) : BitVec 16 :=
  0b000#3 ++ v.extractLsb' 4 2 ++ v.extractLsb' 6 4 ++ v.extractLsb' 2 1 ++ v.extractLsb' 3 1 ++ rd' ++ 0b00#2
/-- R345, R346 -/
def packCLw (funct3 : BitVec 3) (v : BitVec 7) (rs1' r' : Reg3) : BitVec 16 :=
  funct3 ++ v.extractLsb' 3 3 ++ rs1' ++ v.extractLsb' 2 1 ++ v.extractLsb' 6 1 ++ r' ++ 0b00#2
/-- R348, R352, R356 -/
def packCI (funct3 : BitVec 3) (v : BitVec 6) (rd : Reg) : BitVec 16 :=
  packC funct3 (v.extractLsb' 5 1) rd (v.extractLsb' 0 5) 0b01#2
/-- R351, R365 -/
def packCJ (funct3 : BitVec 3) (v : BitVec 12) : BitVec 16 :=
  funct3 ++ v.extractLsb' 11 1 ++ v.extractLsb' 4 1 ++ v.extractLsb' 8 2 ++ v.extractLsb' 10 1 ++
    v.extractLsb' 6 1 ++ v.extractLsb' 7 1 ++ v.extractLsb' 1 3 ++ v.extractLsb' 5 1 ++ 0b01#2
/-- R354 -/
def pack16sp (v : BitVec 10) : BitVec 16 :=
  0b011#3 ++ v.extractLsb' 9 1 ++ 0b00010#5 ++ v.extractLsb' 4 1 ++ v.extractLsb' 6 1 ++ v.extractLsb' 7 2 ++
    v.extractLsb' 5 1 ++ 0b01#2
/-- R358 to R360: quadrant 01, funct3 100, by `c[11:10]`. -/
def packCA (bit12 : BitVec 1) (sel : BitVec 2) (rd' : Reg3) (low : BitVec 5) : BitVec 16 :=
  0b100#3 ++ bit12 ++ sel ++ rd' ++ low ++ 0b01#2
/-- R366, R367 -/
def packCB (funct3 : BitVec 3) (v : BitVec 9) (rs1' : Reg3) : BitVec 16 :=
  funct3 ++ v.extractLsb' 8 1 ++ v.extractLsb' 3 2 ++ rs1' ++ v.extractLsb' 6 2 ++ v.extractLsb' 1 2 ++
    v.extractLsb' 5 1 ++ 0b01#2

/-- The fetch word of an instruction: all of a standard word; of a compressed one the halfword, with zeros above it
(which the decoder ignores, R91). -/
def encode : Instr → BitVec 32
  | .lui rd imm => packU imm rd opLui
  | .auipc rd imm => packU imm rd opAuipc
  | .jal rd imm => packJ imm rd opJal
  | .jalr rd rs1 imm => packI imm rs1 0b000#3 rd opJalr
  | .beq rs1 rs2 imm => packB imm rs2 rs1 0b000#3 opBranch
  | .bne rs1 rs2 imm => packB imm rs2 rs1 0b001#3 opBranch
  | .blt rs1 rs2 imm => packB imm rs2 rs1 0b100#3 opBranch
  | .bge rs1 rs2 imm => packB imm rs2 rs1 0b101#3 opBranch
  | .bltu rs1 rs2 imm => packB imm rs2 rs1 0b110#3 opBranch
  | .bgeu rs1 rs2 imm => packB imm rs2 rs1 0b111#3 opBranch
  | .lb rd rs1 imm => packI imm rs1 0b000#3 rd opLoad
  | .lh rd rs1 imm => packI imm rs1 0b001#3 rd opLoad
  | .lw rd rs1 imm => packI imm rs1 0b010#3 rd opLoad
  | .ld rd rs1 imm => packI imm rs1 0b011#3 rd opLoad
  | .lbu rd rs1 imm => packI imm rs1 0b100#3 rd opLoad
  | .lhu rd rs1 imm => packI imm rs1 0b101#3 rd opLoad
  | .lwu rd rs1 imm => packI imm rs1 0b110#3 rd opLoad
  | .sb rs1 rs2 imm => packS imm rs2 rs1 0b000#3 opStore
  | .sh rs1 rs2 imm => packS imm rs2 rs1 0b001#3 opStore
  | .sw rs1 rs2 imm => packS imm rs2 rs1 0b010#3 opStore
  | .sd rs1 rs2 imm => packS imm rs2 rs1 0b011#3 opStore
  | .addi rd rs1 imm => packI imm rs1 0b000#3 rd opAluImm
  | .slti rd rs1 imm => packI imm rs1 0b010#3 rd opAluImm
  | .sltiu rd rs1 imm => packI imm rs1 0b011#3 rd opAluImm
  | .xori rd rs1 imm => packI imm rs1 0b100#3 rd opAluImm
  | .ori rd rs1 imm => packI imm rs1 0b110#3 rd opAluImm
  | .andi rd rs1 imm => packI imm rs1 0b111#3 rd opAluImm
  | .slli rd rs1 shamt => packR 0b0000000#7 shamt rs1 0b001#3 rd opAluImm
  | .srli rd rs1 shamt => packR 0b0000000#7 shamt rs1 0b101#3 rd opAluImm
  | .srai rd rs1 shamt => packR 0b0100000#7 shamt rs1 0b101#3 rd opAluImm
  | .addiw rd rs1 imm => packI imm rs1 0b000#3 rd opAluImm64
  | .slliw rd rs1 shamt => packR 0b0000000#7 shamt rs1 0b001#3 rd opAluImm64
  | .srliw rd rs1 shamt => packR 0b0000000#7 shamt rs1 0b101#3 rd opAluImm64
  | .sraiw rd rs1 shamt => packR 0b0100000#7 shamt rs1 0b101#3 rd opAluImm64
  | .add rd rs1 rs2 => packR 0b0000000#7 rs2 rs1 0b000#3 rd opAlu
  | .sub rd rs1 rs2 => packR 0b0100000#7 rs2 rs1 0b000#3 rd opAlu
  | .sll rd rs1 rs2 => packR 0b0000000#7 rs2 rs1 0b001#3 rd opAlu
  | .slt rd rs1 rs2 => packR 0b0000000#7 rs2 rs1 0b010#3 rd opAlu
  | .sltu rd rs1 rs2 => packR 0b0000000#7 rs2 rs1 0b011#3 rd opAlu
  | .xor rd rs1 rs2 => packR 0b0000000#7 rs2 rs1 0b100#3 rd opAlu
  | .srl rd rs1 rs2 => packR 0b0000000#7 rs2 rs1 0b101#3 rd opAlu
  | .sra rd rs1 rs2 => packR 0b0100000#7 rs2 rs1 0b101#3 rd opAlu
  | .or rd rs1 rs2 => packR 0b0000000#7 rs2 rs1 0b110#3 rd opAlu
  | .and rd rs1 rs2 => packR 0b0000000#7 rs2 rs1 0b111#3 rd opAlu
  | .mul rd rs1 rs2 => packR 0b0000001#7 rs2 rs1 0b000#3 rd opAlu
  | .mulh rd rs1 rs2 => packR 0b0000001#7 rs2 rs1 0b001#3 rd opAlu
  | .mulhsu rd rs1 rs2 => packR 0b0000001#7 rs2 rs1 0b010#3 rd opAlu
  | .mulhu rd rs1 rs2 => packR 0b0000001#7 rs2 rs1 0b011#3 rd opAlu
  | .div rd rs1 rs2 => packR 0b0000001#7 rs2 rs1 0b100#3 rd opAlu
  | .divu rd rs1 rs2 => packR 0b0000001#7 rs2 rs1 0b101#3 rd opAlu
  | .rem rd rs1 rs2 => packR 0b0000001#7 rs2 rs1 0b110#3 rd opAlu
  | .remu rd rs1 rs2 => packR 0b0000001#7 rs2 rs1 0b111#3 rd opAlu
  | .lrW rd rs1 rs2 aq rl => packAtomic 0b00010#5 aq rl rs2 rs1 0b010#3 rd
  | .lrD rd rs1 rs2 aq rl => packAtomic 0b00010#5 aq rl rs2 rs1 0b011#3 rd
  | .scW rd rs1 rs2 aq rl => packAtomic 0b00011#5 aq rl rs2 rs1 0b010#3 rd
  | .scD rd rs1 rs2 aq rl => packAtomic 0b00011#5 aq rl rs2 rs1 0b011#3 rd
  | .amoswapW rd rs1 rs2 aq rl => packAtomic 0b00001#5 aq rl rs2 rs1 0b010#3 rd
  | .amoswapD rd rs1 rs2 aq rl => packAtomic 0b00001#5 aq rl rs2 rs1 0b011#3 rd
  | .fence bits => bits ++ opFence
  | .ecall => 0x00000073#32
  | .ebreak => 0x00100073#32
  | .csrrw rd rs1 rs2 funct7 => packR funct7 rs2 rs1 0b001#3 rd opSystem
  | .csrrs rd rs1 rs2 funct7 => packR funct7 rs2 rs1 0b010#3 rd opSystem
  | .csrrc rd rs1 rs2 funct7 => packR funct7 rs2 rs1 0b011#3 rd opSystem
  | .csrrwi rd rs1 imm => packI imm rs1 0b101#3 rd opSystem
  | .csrrsi rd rs1 imm => packI imm rs1 0b110#3 rd opSystem
  | .csrrci rd rs1 imm => packI imm rs1 0b111#3 rd opSystem
  | .cAddi4spn rd' nzuimm => 0#16 ++ pack4spn nzuimm rd'
  | .cLw rd' rs1' uimm => 0#16 ++ packCLw 0b010#3 uimm rs1' rd'
  | .cSw rs1' rs2' uimm => 0#16 ++ packCLw 0b110#3 uimm rs1' rs2'
  | .cAddi rd imm => 0#16 ++ packCI 0b000#3 imm rd
  | .cJal imm => 0#16 ++ packCJ 0b001#3 imm
  | .cLi rd imm => 0#16 ++ packCI 0b010#3 imm rd
  | .cAddi16sp nzimm => 0#16 ++ pack16sp nzimm
  | .cLui rd nzimm => 0#16 ++ packCI 0b011#3 nzimm rd
  | .cSrli rd' shamt => 0#16 ++ packCA 0#1 0b00#2 rd' shamt
  | .cSrai rd' shamt => 0#16 ++ packCA 0#1 0b01#2 rd' shamt
  | .cAndi rd' imm => 0#16 ++ packCA (imm.extractLsb' 5 1) 0b10#2 rd' (imm.extractLsb' 0 5)
  | .cSub rd' rs2' => 0#16 ++ packCA 0#1 0b11#2 rd' (0b00#2 ++ rs2')
  | .cXor rd' rs2' => 0#16 ++ packCA 0#1 0b11#2 rd' (0b01#2 ++ rs2')
  | .cOr rd' rs2' => 0#16 ++ packCA 0#1 0b11#2 rd' (0b10#2 ++ rs2')
  | .cAnd rd' rs2' => 0#16 ++ packCA 0#1 0b11#2 rd' (0b11#2 ++ rs2')
  | .cJ imm => 0#16 ++ packCJ 0b101#3 imm
  | .cBeqz rs1' imm => 0#16 ++ packCB 0b110#3 imm rs1'
  | .cBnez rs1' imm => 0#16 ++ packCB 0b111#3 imm rs1'
  | .cSlli rd shamt => 0#16 ++ packC 0b000#3 0#1 rd shamt 0b10#2
  | .cSlli64 rd => 0#16 ++ packC 0b000#3 0#1 rd 0 0b10#2
  | .cJr rs1 => 0#16 ++ packC 0b100#3 0#1 rs1 0 0b10#2
  | .cMv rd rs2 => 0#16 ++ packC 0b100#3 0#1 rd rs2 0b10#2
  | .cEbreak => 0#16 ++ packC 0b100#3 1#1 0 0 0b10#2
  | .cJalr rs1 => 0#16 ++ packC 0b100#3 1#1 rs1 0 0b10#2
  | .cAdd rd rs2 => 0#16 ++ packC 0b100#3 1#1 rd rs2 0b10#2

/-! ## The expansion of a compressed instruction (R115, R340, R341) -/

/-- The register that a 3-bit field names: `x(8 + r')` (R116). -/
def Reg3.full (r : Reg3) : Reg := 8 + r.setWidth 5

/-- The standard instruction whose record the decoder of the spec delivers for a compressed one (spec/49_compressed.md);
`none` for a standard instruction and for the two forms that expand to nothing, c.ebreak and c.slli64. The immediate of
the record is the low bits of the value `v` in two's complement (R341). -/
def Instr.expand : Instr → Option Instr
  | .cAddi4spn rd' nzuimm => some (.addi rd'.full 2 (nzuimm.setWidth 12))
  | .cLw rd' rs1' uimm => some (.lw rd'.full rs1'.full (uimm.setWidth 12))
  | .cSw rs1' rs2' uimm => some (.sw rs1'.full rs2'.full (uimm.setWidth 12))
  | .cAddi rd imm => some (.addi rd rd (imm.signExtend 12))
  | .cJal imm => some (.jal 1 (imm.signExtend 21))
  | .cLi rd imm => some (.addi rd 0 (imm.signExtend 12))
  | .cAddi16sp nzimm => some (.addi 2 2 (nzimm.signExtend 12))
  | .cLui rd nzimm => some (.lui rd (nzimm.signExtend 20))
  | .cSrli rd' shamt => some (.srli rd'.full rd'.full shamt)
  | .cSrai rd' shamt => some (.srai rd'.full rd'.full shamt)
  | .cAndi rd' imm => some (.andi rd'.full rd'.full (imm.signExtend 12))
  | .cSub rd' rs2' => some (.sub rd'.full rd'.full rs2'.full)
  | .cXor rd' rs2' => some (.xor rd'.full rd'.full rs2'.full)
  | .cOr rd' rs2' => some (.or rd'.full rd'.full rs2'.full)
  | .cAnd rd' rs2' => some (.and rd'.full rd'.full rs2'.full)
  | .cJ imm => some (.jal 0 (imm.signExtend 21))
  | .cBeqz rs1' imm => some (.beq rs1'.full 0 (imm.signExtend 13))
  | .cBnez rs1' imm => some (.bne rs1'.full 0 (imm.signExtend 13))
  | .cSlli rd shamt => some (.slli rd rd shamt)
  | .cJr rs1 => some (.jalr 0 rs1 0)
  | .cMv rd rs2 => some (.add rd 0 rs2)
  | .cJalr rs1 => some (.jalr 1 rs1 0)
  | .cAdd rd rs2 => some (.add rd rd rs2)
  | .cSlli64 _ | .cEbreak => none
  | .lui _ _ | .auipc _ _ | .jal _ _ | .jalr _ _ _
  | .beq _ _ _ | .bne _ _ _ | .blt _ _ _ | .bge _ _ _ | .bltu _ _ _ | .bgeu _ _ _
  | .lb _ _ _ | .lh _ _ _ | .lw _ _ _ | .ld _ _ _ | .lbu _ _ _ | .lhu _ _ _ | .lwu _ _ _
  | .sb _ _ _ | .sh _ _ _ | .sw _ _ _ | .sd _ _ _
  | .addi _ _ _ | .slti _ _ _ | .sltiu _ _ _ | .xori _ _ _ | .ori _ _ _ | .andi _ _ _
  | .slli _ _ _ | .srli _ _ _ | .srai _ _ _ | .addiw _ _ _ | .slliw _ _ _ | .srliw _ _ _ | .sraiw _ _ _
  | .add _ _ _ | .sub _ _ _ | .sll _ _ _ | .slt _ _ _ | .sltu _ _ _
  | .xor _ _ _ | .srl _ _ _ | .sra _ _ _ | .or _ _ _ | .and _ _ _
  | .mul _ _ _ | .mulh _ _ _ | .mulhsu _ _ _ | .mulhu _ _ _
  | .div _ _ _ | .divu _ _ _ | .rem _ _ _ | .remu _ _ _
  | .lrW _ _ _ _ _ | .lrD _ _ _ _ _ | .scW _ _ _ _ _ | .scD _ _ _ _ _
  | .amoswapW _ _ _ _ _ | .amoswapD _ _ _ _ _
  | .fence _ | .ecall | .ebreak
  | .csrrw _ _ _ _ | .csrrs _ _ _ _ | .csrrc _ _ _ _ | .csrrwi _ _ _ | .csrrsi _ _ _ | .csrrci _ _ _ => none

/-! ## The host's entry -/

/-- The fetch word in which an instruction of `nbits` bits with value `w` stands lowest, zeros above it. Fetch is
little-endian (R60), so the table's bit numbering is the fetch word's. -/
def tableWord (nbits w : Nat) : BitVec 32 := BitVec.ofNat 32 (w % 2 ^ nbits)

/-- What the decoder reads from a row's word, `none` where it refuses it. -/
def decodeTableWord (nbits w : Nat) : Option Instr :=
  match decode (tableWord nbits w) with
  | .ok i => some i
  | .error _ => none

end Sys2Proof
end

