-- ==== Sys2Proof/Machine/Fatal.lean ====
section
/-! DEFINITION. The fatal errors of a step and the record they leave (spec/60_exceptions.md R391 to R398). The two
setup-time kinds of R399 are `Fault` in Machine/State.lean: no step raises them. -/

namespace Sys2Proof.Machine

/-- A fatal error with its `info` (R391). -/
inductive Fatal where
  /-- `FATAL_DECODE_OPCODE`, `info = (opcode, w)` (R392) -/
  | decodeOpcode (opcode : BitVec 7) (word : BitVec 32)
  /-- `FATAL_DECODE_COMPRESSED`, `info = w[15:0]` (R393) -/
  | decodeCompressed (half : BitVec 16)
  /-- `FATAL_DISPATCH`, `info = (opcode, w)` (R394) -/
  | dispatch (opcode : BitVec 7) (word : BitVec 32)
  /-- `FATAL_CSR_INDEX`, `info = x[rs1]` (R395) -/
  | csrIndex (index : Word)
  /-- `FATAL_ADDRESS`, `info` = the address of the access, of its first byte (R396) -/
  | address (addr : Word)
  /-- `FATAL_ROM_WRITE`, `info = address` (R397) -/
  | romWrite (addr : Word)
  /-- `FATAL_UART_REG`, `info` = the local offset (R398) -/
  | uartReg (offset : Nat)
  deriving DecidableEq, Repr

/-- The record `(kind, pc, info)` that `halted` holds after a fatal error (R33, R391). -/
structure HaltRecord where
  fatal : Fatal
  /-- the address of the instruction being executed when it was raised -/
  pc : Word
  deriving DecidableEq, Repr

/-- The fatal error of each answer of the decoder that is no instruction (R142, R392 to R394). -/
def Fatal.ofDecodeError : DecodeError → Fatal
  | .unknownOpcode opcode word => .decodeOpcode opcode word
  | .illegalCompressed half => .decodeCompressed half
  | .unhandled opcode word => .dispatch opcode word

end Sys2Proof.Machine
end

