-- ==== Sys2Proof/Machine/Uart.lean ====
section
/-! DEFINITION. The UART device (spec/60_exceptions.md section 6, R416 to R424). -/

namespace Sys2Proof.Machine

/-- The state of a UART (R416), with the trace of the bytes given to the sink (R415). -/
structure Uart where
  ier : Byte
  fcr : Byte
  lcr : Byte
  mcr : Byte
  lsr : Byte
  /-- receive queue, oldest first, at most 16 bytes -/
  rxq : List Byte
  /-- transmit queue, oldest first, at most 16 bytes -/
  txq : List Byte
  /-- the bytes passed to the sink since reset, oldest first (R415; log entry 11) -/
  sent : List Byte
  deriving DecidableEq, Repr

/-- R35: the fields 0 but for `LSR = UART_LSR_RESET`, the queues empty. -/
def Uart.reset (lsrReset : Byte) : Uart :=
  { ier := 0, fcr := 0, lcr := 0, mcr := 0, lsr := lsrReset, rxq := [], txq := [], sent := [] }

/-- The bound of both queues (R416). -/
def uartFifoSize : Nat := 16

/-- Append to a bounded queue: a byte that does not fit is dropped silently (R421, R423). -/
def fifoPush (q : List Byte) (b : Byte) : List Byte := if q.length < uartFifoSize then q ++ [b] else q

/-- Read of offset 0: the oldest received byte, removed, or 0 (R418). -/
def Uart.receive (u : Uart) : Byte × Uart :=
  match u.rxq with
  | [] => (0, u)
  | b :: rest => (b, { u with rxq := rest })

/-- `LSR` with its data-ready bit, bit 0, recomputed from the receive queue (R422). -/
def Uart.lineStatus (u : Uart) : Byte := (u.lsr &&& 0xFE#8) ||| (if u.rxq.isEmpty then 0x00#8 else 0x01#8)

/-- Byte read at a local offset (R417). -/
def Uart.readByte (u : Uart) (offset : Nat) : Except Fatal Byte × Uart :=
  match offset with
  | 0 => (.ok u.receive.1, u.receive.2)
  | 1 => (.ok u.ier, u)
  | 2 => (.ok u.fcr, u)
  | 3 => (.ok u.lcr, u)
  | 4 => (.ok u.mcr, u)
  | 5 => (.ok u.lineStatus, { u with lsr := u.lineStatus })
  | o => (.error (.uartReg o), u)

/-- Write of offset 0: the sink is called once with the byte, and the byte is appended to `txq` if it fits (R420, R421). -/
def Uart.transmit (u : Uart) (b : Byte) : Uart := { u with txq := fifoPush u.txq b, sent := u.sent ++ [b] }

/-- Byte write at a local offset (R419). -/
def Uart.writeByte (u : Uart) (offset : Nat) (b : Byte) : Except Fatal Unit × Uart :=
  match offset with
  | 0 => (.ok (), u.transmit b)
  | 1 => (.ok (), { u with ier := b })
  | 2 => (.ok (), { u with fcr := b })
  | 3 => (.ok (), { u with lcr := b })
  | 4 => (.ok (), { u with mcr := b })
  | 5 => (.ok (), { u with lsr := b })
  | o => (.error (.uartReg o), u)

/-- The host operation `uart_receive(b)`: append to `rxq` if it fits, else drop (R423). -/
def Uart.hostReceive (u : Uart) (b : Byte) : Uart := { u with rxq := fifoPush u.rxq b }

end Sys2Proof.Machine
end

