-- ==== Sys2Proof/Machine/Bus.lean ====
section
/-! DEFINITION. The memory bus: the region table with the contents behind each tuple, routing, and accesses of n bytes
as n byte accesses in ascending order (spec/20_memory.md R51 to R68). -/

namespace Sys2Proof.Machine

/-- A region with its contents: a RAM or ROM buffer of `size` bytes by local offset, or the UART (R31, R51). -/
inductive Region where
  | ram (size : Nat) (buf : Memory)
  | rom (size : Nat) (buf : Memory)
  | uart (dev : Uart)
  deriving DecidableEq, Repr

/-- A tuple of the region table: the half-open range `[start, stop)` and the region behind it (R51). -/
structure Mapping where
  start : Word
  stop : Word
  region : Region
  deriving DecidableEq, Repr

/-- The region table in registration order (R51). -/
abbrev Bus := List Mapping

/-! ## One byte of a region -/

/-- Byte read at a local offset. `acc` is the address of the access's first byte, which a fatal error reports
(R56, R58, R64, R66, R68). -/
def Region.readByte (acc : Word) (offset : Nat) : Region → Except Fatal Byte × Region
  | .ram size buf => (if offset < size then .ok (Cells.get buf offset) else .error (.address acc), .ram size buf)
  | .rom size buf => (if offset < size then .ok (Cells.get buf offset) else .error (.address acc), .rom size buf)
  | .uart dev => ((dev.readByte offset).1, .uart (dev.readByte offset).2)

/-- Byte write at a local offset (R57, R58, R64, R66, R68). A ROM refuses every write. -/
def Region.writeByte (acc : Word) (offset : Nat) (b : Byte) : Region → Except Fatal Unit × Region
  | .ram size buf =>
    if offset < size then (.ok (), .ram size (Cells.set buf offset b)) else (.error (.address acc), .ram size buf)
  | .rom size buf => (.error (.romWrite acc), .rom size buf)
  | .uart dev => ((dev.writeByte offset b).1, .uart (dev.writeByte offset b).2)

/-! ## The bytes of one access, ascending -/

/-- Read `n` bytes from `offset` on. `top` is the local offset of address 2^64: a byte there or above is
`FATAL_ADDRESS` (R59). The first failing byte ends the access and the later ones are not read (R56). -/
def Region.readBytes (acc : Word) (top : Nat) : Nat → Nat → Region → Except Fatal (List Byte) × Region
  | 0, _, r => (.ok [], r)
  | n + 1, offset, r =>
    if top ≤ offset then (.error (.address acc), r)
    else match r.readByte acc offset with
      | (.error f, r1) => (.error f, r1)
      | (.ok b, r1) =>
        match Region.readBytes acc top n (offset + 1) r1 with
        | (.error f, r2) => (.error f, r2)
        | (.ok bs, r2) => (.ok (b :: bs), r2)

/-- Write bytes from `offset` on. The first failing byte ends the access; the bytes before it stay written
(R57, R59). -/
def Region.writeBytes (acc : Word) (top : Nat) : Nat → List Byte → Region → Except Fatal Unit × Region
  | _, [], r => (.ok (), r)
  | offset, b :: bs, r =>
    if top ≤ offset then (.error (.address acc), r)
    else match r.writeByte acc offset b with
      | (.error f, r1) => (.error f, r1)
      | (.ok _, r1) => Region.writeBytes acc top (offset + 1) bs r1

/-! ## Routing -/

/-- `start ≤ a < stop`, unsigned (R53). -/
def Mapping.holds (m : Mapping) (a : Word) : Bool := decide (m.start.toNat ≤ a.toNat) && decide (a.toNat < m.stop.toNat)

/-- The local offset of an address of the range (R53). -/
def Mapping.offset (m : Mapping) (a : Word) : Nat := a.toNat - m.start.toNat

/-- The local offset at which the address space ends (R59). -/
def Mapping.top (m : Mapping) : Nat := 2 ^ 64 - m.start.toNat

/-- Give an access to the first tuple whose range holds its address; a miss is `FATAL_ADDRESS` (R53, R54). Only the
region of that tuple can change. -/
def Bus.route {β : Type} (a : Word) (access : Mapping → Except Fatal β × Region) : Bus → Except Fatal β × Bus
  | [] => (.error (.address a), [])
  | m :: rest =>
    if m.holds a then ((access m).1, { m with region := (access m).2 } :: rest)
    else ((Bus.route a access rest).1, m :: (Bus.route a access rest).2)

/-- The first tuple whose range holds an address (R53). -/
def Bus.lookup (a : Word) : Bus → Option Mapping
  | [] => none
  | m :: rest => if m.holds a then some m else Bus.lookup a rest

/-- The `n` bytes at `a`, as `MemRead` reads them (R56). -/
def Bus.read (a : Word) (n : Nat) (bus : Bus) : Except Fatal (List Byte) × Bus :=
  Bus.route a (fun m => m.region.readBytes a m.top n (m.offset a)) bus

/-- Write bytes at `a`, as `MemWrite` does (R57). -/
def Bus.write (a : Word) (bytes : List Byte) (bus : Bus) : Except Fatal Unit × Bus :=
  Bus.route a (fun m => m.region.writeBytes a m.top (m.offset a) bytes) bus

/-- The byte that memory holds at an address, without any side effect: RAM and ROM only. -/
def Region.peek (offset : Nat) : Region → Option Byte
  | .ram size buf => if offset < size then some (Cells.get buf offset) else none
  | .rom size buf => if offset < size then some (Cells.get buf offset) else none
  | .uart _ => none

/-- The byte of RAM or ROM that a one-byte access at `a` would read. -/
def Bus.peek (a : Word) (bus : Bus) : Option Byte :=
  match Bus.lookup a bus with
  | some m => m.region.peek (m.offset a)
  | none => none

/-! ## Setting contents from outside a step -/

/-- Put bytes into a RAM or ROM buffer as the image load does (R67): bytes past the buffer are left out, a UART is
left as it is. -/
def Region.poke : Nat → List Byte → Region → Region
  | _, [], r => r
  | offset, b :: bs, .ram size buf =>
    if offset < size then Region.poke (offset + 1) bs (.ram size (Cells.set buf offset b)) else .ram size buf
  | offset, b :: bs, .rom size buf =>
    if offset < size then Region.poke (offset + 1) bs (.rom size (Cells.set buf offset b)) else .rom size buf
  | _, _ :: _, .uart dev => .uart dev

/-- Put bytes behind the first tuple whose range holds `a`. -/
def Bus.poke (a : Word) (bytes : List Byte) (bus : Bus) : Bus :=
  (Bus.route a (fun m => (Except.ok (), m.region.poke (m.offset a) bytes)) bus).2

/-- `uart_receive(b)` given to the UART (R423): to the first UART of the table. -/
def Bus.uartReceive (b : Byte) : Bus → Bus
  | [] => []
  | m :: rest =>
    match m.region with
    | .uart dev => { m with region := .uart (dev.hostReceive b) } :: rest
    | .ram _ _ => m :: Bus.uartReceive b rest
    | .rom _ _ => m :: Bus.uartReceive b rest

/-! ## Setup -/

/-- The region of a configured tuple as setup leaves it: buffers hold their image from offset 0 and zeros after it
(R35, R67, R448). -/
def Region.ofKind (lsrReset : Byte) : RegionKind → Region
  | .ram size image => .ram size (Memory.ofImage 0 (image.contents.take size))
  | .rom size image => .rom size (Memory.ofImage 0 (image.contents.take size))
  | .uart => .uart (Uart.reset lsrReset)

/-- The region table as setup builds it, in registration order (R51, R440). -/
def Bus.ofConfig (cfg : Config) : Bus :=
  cfg.regionTable.map (fun e => { start := e.start, stop := e.stop, region := Region.ofKind cfg.uartLsrReset e.kind })

/-! ## What never changes in a run, and the canonical form -/

/-- The kind and size of a region, without its contents. -/
inductive RegionShape where
  | ram (size : Nat)
  | rom (size : Nat)
  | uart
  deriving DecidableEq, Repr

def Region.shape : Region → RegionShape
  | .ram size _ => .ram size
  | .rom size _ => .rom size
  | .uart _ => .uart

/-- The region table without the contents: configuration, read-only during execution (R31, R51). -/
def Bus.shape (bus : Bus) : List (Word × Word × RegionShape) :=
  bus.map (fun m => (m.start, m.stop, m.region.shape))

/-- The contents of the ROM buffers, in table order. -/
def Bus.romContents (bus : Bus) : List Memory :=
  bus.filterMap (fun m => match m.region with | .rom _ buf => some buf | .ram _ _ => none | .uart _ => none)

/-- A region's contents are in order: a buffer is canonical and lists no offset past its size; the queues hold at most
16 bytes (R416). -/
def Region.wf : Region → Bool
  | .ram size buf => Memory.wf buf && Cells.below size buf
  | .rom size buf => Memory.wf buf && Cells.below size buf
  | .uart dev => decide (dev.rxq.length ≤ uartFifoSize) && decide (dev.txq.length ≤ uartFifoSize)

def Bus.wf (bus : Bus) : Bool := bus.all (fun m => m.region.wf)

end Sys2Proof.Machine
end

