-- ==== Sys2Proof/Machine/State.lean ====
section
/-! DEFINITION. The state of the machine (spec/10_state.md), the reasons setup can stop, and the state after reset. -/

namespace Sys2Proof.Machine

/-- Everything the spec gives the machine (spec/10_state.md R20 to R35), as plain data. -/
structure State where
  /-- `x0` to `x31` (R20); the cell of `x0` holds 0 at the end of every step (R22) -/
  regs : Vector Word 32
  /-- the address of the instruction being executed (R24) -/
  pc : Word
  /-- the CSR file: cells 0 to 4095 (R27), canonical, unlisted cells 0 -/
  csr : Cells 64
  /-- `none`, or the record of the fatal error that stopped the machine (R33) -/
  halted : Option HaltRecord
  /-- the region table with the contents of its regions (R31, R51) -/
  bus : Bus
  /-- the implementation parameters (R8): read, never written by a step (log entry 2) -/
  cfg : Config
  deriving DecidableEq, Repr

/-- Why setup fails: the two fatal errors "before execution starts" (spec/60_exceptions.md R399). Raised by
`State.setup` only, never by a step or an instruction: on a machine on which one was raised no step ever runs. Safe:
there is no state that a claim could be about. -/
inductive Fault where
  /-- `FATAL_BOOT`, raised by `State.setup`: the image of this tuple of the table is missing or larger than its
  region (R67). Safe. -/
  | boot (entry : Nat)
  /-- `FATAL_RAM_SIZE`, raised by `State.setup`: the RAM of this tuple is larger than `RAM_MAX_SIZE` (R65). Safe. -/
  | ramSize (entry : Nat)
  deriving DecidableEq, Repr

/-- Why the model has no answer. -/
inductive Refusal where
  /-- An instruction whose meaning is not written yet, raised by an arm of `exec`. No arm raises it: every
  instruction has its meaning. Safe. -/
  | notModelled (mnemonic : String)
  deriving DecidableEq, Repr

/-- The state after reset of a machine with a given configuration (R34, R35, R442): `pc = RESET_PC`, registers and
CSRs 0, not halted, buffers as loaded. -/
def State.resetFor (cfg : Config) : State where
  regs := Vector.replicate 32 0
  pc := cfg.resetPc
  csr := []
  halted := none
  bus := Bus.ofConfig cfg
  cfg := cfg

/-- The machine right after reset, for the configuration `Config.default` (DESIGN CHOICE, log entries 3 and 4). -/
def State.reset : State := State.resetFor Config.default

end Sys2Proof.Machine
end

