-- ==== Sys2Proof/Machine/Operands.lean ====
section
/-! DEFINITION. Operand forms: the register read port (spec/10_state.md R21, spec/00_scope.md R13), the two extension
views (R11, R12), the immediate operands (spec/30_encoding.md section 3), effective addresses, and the byte order
(spec/20_memory.md R60). -/

namespace Sys2Proof.Machine

/-! ## Extension views -/

/-- `sext_N(v)`: bit N−1 replicated upward, bits of `v` above it ignored (R11). -/
def sext {w : Nat} (n : Nat) (v : BitVec w) : Word := (v.setWidth n).signExtend 64

/-- `zext_N(v) = v mod 2^N` (R12). -/
def zext {w : Nat} (n : Nat) (v : BitVec w) : Word := (v.setWidth n).setWidth 64

/-- `bool(c)`: 1 if the truth value holds, else 0 (R13). -/
def boolWord (c : Bool) : Word := if c then 1 else 0

/-! ## Registers -/

/-- The read port: `x[i]`, and 0 for `x0` (R13, R21). -/
def State.getX (s : State) (r : Reg) : Word := if r = 0 then 0 else s.regs[r.toNat]'(r.isLt)

/-- `x[i] <- v`; a write to `x0` is discarded (R22). -/
def State.setX (s : State) (r : Reg) (v : Word) : State :=
  if r = 0 then s else { s with regs := s.regs.set r.toNat v r.isLt }

/-! ## Immediate operands -/

/-- The operand of the U format: LUI takes it zero-extended, AUIPC sign-extended, both shifted by 12 (R100). -/
def luiOperand (imm : BitVec 20) : Word := zext 20 imm <<< 12
def auipcOperand (imm : BitVec 20) : Word := sext 20 imm <<< 12

/-- The operand of the J format, `sext` from `JAL_SEXT_BITS` (R101). -/
def jOperand (cfg : Config) (imm : BitVec 21) : Word := sext cfg.jalSextBits imm

/-- The operand of the B format (R103). -/
def bOperand (imm : BitVec 13) : Word := sext 13 imm

/-- The sign-extended operand of the I and S formats (R102, R104, R220). -/
def iOperand (imm : BitVec 12) : Word := sext 12 imm

/-- The immediate operand of SLTIU, extended as `SLTIU_IMM_EXT` says (R223). -/
def sltiuOperand (cfg : Config) (imm : BitVec 12) : Word :=
  match cfg.sltiuImmExt with
  | .sext => sext 12 imm
  | .zext => zext 12 imm

/-- The immediate operand of the CSR-immediate forms (R102, R319). -/
def csrImmOperand (imm : BitVec 12) : Word := zext 12 imm

/-- Base register plus signed displacement, the one addressing mode (R190). -/
def State.ea (s : State) (rs1 : Reg) (imm : BitVec 12) : Word := s.getX rs1 + iOperand imm

/-- The amount of a register shift: `b[5:0]` (R254). -/
def regShamt (b : Word) : Nat := (b.setWidth 6).toNat

/-! ## Byte order -/

/-- The value of bytes in ascending address order, the lowest address in bits [7:0] (R56, R60). -/
def leValue : List Byte → Word
  | [] => 0
  | b :: bs => b.setWidth 64 ||| (leValue bs <<< 8)

/-- The low `n` bytes of a value in ascending address order (R57, R60). -/
def leBytes : Nat → Word → List Byte
  | 0, _ => []
  | n + 1, v => v.setWidth 8 :: leBytes n (v >>> 8)

end Sys2Proof.Machine
end

