-- ==== Sys2Proof/Machine/Flags.lean ====
section
/-! DEFINITION. The machine has no flags and no condition codes (spec/10_state.md section 3): no instruction reads or
writes one. What stands here is what takes their place, the comparisons that branches and set-less-than instructions
make on two 64-bit operands (spec/42_control_transfer.md R175 to R181, spec/00_scope.md R13). -/

namespace Sys2Proof.Machine

/-- `a <s b`, signed (R13). -/
def ltSigned (a b : Word) : Bool := decide (a.toInt < b.toInt)

/-- `a <u b`, unsigned (R13). -/
def ltUnsigned (a b : Word) : Bool := decide (a.toNat < b.toNat)

/-- R176 -/
def condEq (a b : Word) : Bool := decide (a = b)
/-- R177 -/
def condNe (a b : Word) : Bool := !decide (a = b)
/-- R178 -/
def condLt (a b : Word) : Bool := ltSigned a b
/-- R179 -/
def condGe (a b : Word) : Bool := !ltSigned a b
/-- R180 -/
def condLtu (a b : Word) : Bool := ltUnsigned a b
/-- R181 -/
def condGeu (a b : Word) : Bool := !ltUnsigned a b

end Sys2Proof.Machine
end

