-- ==== Sys2Proof/Machine/Ops.lean ====
section
/-! DEFINITION. The named operations of the machine: the tail of a step, redirects, the fatal error, memory accesses,
the CSR file, the shapes that several instructions share, and the host's operations (spec/40_cycle_and_dispatch.md,
spec/20_memory.md, spec/48_fence_system_csr.md, spec/60_exceptions.md). -/

namespace Sys2Proof.Machine

/-- What a step or an instruction answers. -/
abbrev Result := Host.Outcome State Fault Refusal

/-! ## The end of a step -/

/-- `x[0] <- 0`, on every path that is not fatal (R144). -/
def State.zeroX0 (s : State) : State := { s with regs := s.regs.set 0 0 }

/-- The tail: `x[0] <- 0`, then the default advance by the encoding length (R144, R149). -/
def State.tail (len : Word) (s : State) : State := { s.zeroX0 with pc := s.pc + len }

/-- The early return of a jump or taken branch: `x[0] <- 0`, and `pc` is the target (R144, R148). -/
def State.redirect (target : Word) (s : State) : State := { s.zeroX0 with pc := target }

/-- `raise K(info)`: the step ends here, `halted <- (K, pc, info)`, the tail is not performed, `pc` still names the
failing instruction, and what was changed before stays (R145, R150, R391). This hardware has no other exception entry
and no return from one (R406, R409, R410): only the host's reset clears `halted` (R443). -/
def State.raise (f : Fatal) (s : State) : State := { s with halted := some { fatal := f, pc := s.pc } }

/-! ## Memory -/

/-- `MemRead(a, n)` (R56): the value, zero-extended to 64 bits, or the fatal error, with the state the access leaves. -/
def State.memRead (a : Word) (n : Nat) (s : State) : Except Fatal Word × State :=
  ((Bus.read a n s.bus).1.map leValue, { s with bus := (Bus.read a n s.bus).2 })

/-- `MemWrite(a, n, v)` (R57). -/
def State.memWrite (a : Word) (n : Nat) (v : Word) (s : State) : Except Fatal Unit × State :=
  ((Bus.write a (leBytes n v) s.bus).1, { s with bus := (Bus.write a (leBytes n v) s.bus).2 })

/-- The byte of RAM or ROM at an address, without any side effect. -/
def State.peek (s : State) (a : Word) : Option Byte := Bus.peek a s.bus

/-- Fetch: always four bytes at `pc`, as an ordinary read (R141). -/
def State.fetch (s : State) : Except Fatal (BitVec 32) × State :=
  (((s.memRead s.pc 4).1.map fun v => v.setWidth 32), (s.memRead s.pc 4).2)

/-! ## CSR file -/

/-- The number of CSR cells (R27). -/
def csrCount : Nat := 4096

/-- `csr[k]` (R27). -/
def State.csrGet (s : State) (k : Nat) : Word := Cells.get s.csr k

/-- `csr[k] <- v` (R27). -/
def State.csrSet (s : State) (k : Nat) (v : Word) : State := { s with csr := Cells.set s.csr k v }

/-! ## Shapes of instructions

`len` is the encoding length, 4 or, for the expansion of a compressed instruction, 2: the one use of `isCompressed`
beside the link of JAL (R115, R144). -/

/-- An instruction whose effect is one register write (R250): `x[rd] <- v`, then the tail. -/
def writeResult (len : Word) (rd : Reg) (v : Word) (s : State) : Result := .next ((s.setX rd v).tail len)

/-- A no-op: the tail only (R310). -/
def noEffect (len : Word) (s : State) : Result := .next (s.tail len)

/-- A jump: the link into `rd`, the target into `pc` (R170, R172). -/
def jump (rd : Reg) (link target : Word) (s : State) : Result := .next ((s.setX rd link).redirect target)

/-- A branch: the target if the condition holds, else the tail (R175). -/
def branch (len : Word) (taken : Bool) (imm : BitVec 13) (s : State) : Result :=
  if taken then .next (s.redirect (s.pc + bOperand imm)) else .next (s.tail len)

/-- A load of `n` bytes at `a` seen through `view` (R147, R191; the frame of spec/43_load_store.md section 2). -/
def load (len : Word) (n : Nat) (view : Word → Word) (rd : Reg) (a : Word) (s : State) : Result :=
  match s.memRead a n with
  | (.error f, s1) => .next (s1.raise f)
  | (.ok v, s1) => writeResult len rd (view v) s1

/-- A store of the low `n` bytes of `v` at `a` (R191; the frame of spec/43_load_store.md section 3). -/
def store (len : Word) (n : Nat) (a v : Word) (s : State) : Result :=
  match s.memWrite a n v with
  | (.error f, s1) => .next (s1.raise f)
  | (.ok _, s1) => noEffect len s1

/-- A store, then `x[rd] <- SC_RD_RESULT` (R294 to R296). -/
def storeConditional (n : Nat) (rd : Reg) (a v : Word) (s : State) : Result :=
  match s.memWrite a n v with
  | (.error f, s1) => .next (s1.raise f)
  | (.ok _, s1) => writeResult 4 rd s.cfg.scRdResult s1

/-- A load followed by a store of `v` at the same address, then `x[rd]` the old value through `view`; a failing read
leaves memory as it was, a failing write leaves `rd` unwritten (R297, R298). -/
def swap (n : Nat) (view : Word → Word) (rd : Reg) (a v : Word) (s : State) : Result :=
  match s.memRead a n with
  | (.error f, s1) => .next (s1.raise f)
  | (.ok t, s1) =>
    match s1.memWrite a n v with
    | (.error f, s2) => .next (s2.raise f)
    | (.ok _, s2) => writeResult 4 rd (view t) s2

/-- The frame of the six CSR instructions (R315 to R321): the cell is chosen by the contents of `rs1`; an index of 4096
or more is fatal before anything changes; the old value goes to `rd`, `new` of it and the operand to the cell. -/
def csrUpdate (new : Word → Word → Word) (rd rs1 : Reg) (v : Word) (s : State) : Result :=
  if csrCount ≤ (s.getX rs1).toNat then .next (s.raise (.csrIndex (s.getX rs1)))
  else writeResult 4 rd (s.csrGet (s.getX rs1).toNat)
    (s.csrSet (s.getX rs1).toNat (new (s.csrGet (s.getX rs1).toNat) v))

/-! ## The host's operations -/

/-- `uart_receive(b)`, allowed between steps only (R423). -/
def State.uartReceive (b : Byte) (s : State) : State := { s with bus := Bus.uartReceive b s.bus }

/-- The host's `reset` request: from any state, halted or not, to the start state of the same machine (R440, R443). -/
def State.hostReset (s : State) : State := State.resetFor s.cfg

/-- The first RAM tuple over the cap, by its place in the table (R65). -/
def ramTooLarge (cap : Nat) : Nat → List RegionEntry → Option Nat
  | _, [] => none
  | i, e :: rest =>
    match e.kind with
    | .ram size _ => if cap < size then some i else ramTooLarge cap (i + 1) rest
    | .rom _ _ => ramTooLarge cap (i + 1) rest
    | .uart => ramTooLarge cap (i + 1) rest

/-- An image cannot be loaded into a buffer of `size` bytes: its source is missing or it is larger (R67). -/
def Image.unfit (size : Nat) : Image → Bool
  | .notLoaded => false
  | .missing => true
  | .bytes bs => decide (size < bs.length)

/-- The first tuple whose image cannot be loaded, by its place in the table (R67). -/
def imageUnfit : Nat → List RegionEntry → Option Nat
  | _, [] => none
  | i, e :: rest =>
    match e.kind with
    | .ram size image => if Image.unfit size image then some i else imageUnfit (i + 1) rest
    | .rom size image => if Image.unfit size image then some i else imageUnfit (i + 1) rest
    | .uart => imageUnfit (i + 1) rest

/-- Setup and reset (R440): construct the regions, load the images, register the regions, then the reset state. -/
def State.setup (cfg : Config) : Result :=
  match ramTooLarge cfg.ramMaxSize 0 cfg.regionTable with
  | some i => .fault (.ramSize i)
  | none =>
    match imageUnfit 0 cfg.regionTable with
    | some i => .fault (.boot i)
    | none => .next (State.resetFor cfg)

end Sys2Proof.Machine
end

