-- ==== Sys2Proof/Machine/Atomic.lean ====
section
/-! DEFINITION. The atomic opcode (spec/47_atomic.md R290 to R300). `aq`, `rl` and the `rs2` field of LR are ignored (R290). -/

namespace Sys2Proof.Machine

/-- LR.W rd, (rs1) (R291): a load with no displacement; no reservation is recorded (R293). -/
def execLrW (rd rs1 : Reg) (s : State) : Result :=
  load 4 4 (sext 32) rd (s.getX rs1) s

/-- LR.D rd, (rs1) (R292): a load with no displacement; no reservation is recorded (R293). -/
def execLrD (rd rs1 : Reg) (s : State) : Result :=
  load 4 8 (zext 64) rd (s.getX rs1) s

/-- SC.W rd, rs2, (rs1) (R294): always stores, consults nothing (R295). -/
def execScW (rd rs1 rs2 : Reg) (s : State) : Result :=
  storeConditional 4 rd (s.getX rs1) (s.getX rs2) s

/-- SC.D rd, rs2, (rs1) (R296): always stores, consults nothing (R295). -/
def execScD (rd rs1 rs2 : Reg) (s : State) : Result :=
  storeConditional 8 rd (s.getX rs1) (s.getX rs2) s

/-- AMOSWAP.W rd, rs2, (rs1) (R297). -/
def execAmoswapW (rd rs1 rs2 : Reg) (s : State) : Result :=
  swap 4 (sext 32) rd (s.getX rs1) (s.getX rs2) s

/-- AMOSWAP.D rd, rs2, (rs1) (R298). -/
def execAmoswapD (rd rs1 rs2 : Reg) (s : State) : Result :=
  swap 8 (zext 64) rd (s.getX rs1) (s.getX rs2) s

end Sys2Proof.Machine
end

