-- ==== Sys2Proof/Machine/AluImmediate.lean ====
section
/-! DEFINITION. ALU with immediate (spec/44_alu_immediate.md R220 to R244). -/

namespace Sys2Proof.Machine

/-- The rule of ADDI, at either encoding length (R221). -/
def ruleAddi (len : Word) (rd rs1 : Reg) (imm : BitVec 12) (s : State) : Result :=
  writeResult len rd (s.getX rs1 + iOperand imm) s

/-- The rule of ANDI, at either encoding length (R226). -/
def ruleAndi (len : Word) (rd rs1 : Reg) (imm : BitVec 12) (s : State) : Result :=
  writeResult len rd (s.getX rs1 &&& iOperand imm) s

/-- The rule of SLLI, at either encoding length (R230). -/
def ruleSlli (len : Word) (rd rs1 : Reg) (shamt : BitVec 5) (s : State) : Result :=
  writeResult len rd (s.getX rs1 <<< shamt.toNat) s

/-- The rule of SRLI, at either encoding length (R231). -/
def ruleSrli (len : Word) (rd rs1 : Reg) (shamt : BitVec 5) (s : State) : Result :=
  writeResult len rd (s.getX rs1 >>> shamt.toNat) s

/-- The rule of SRAI, at either encoding length (R233). -/
def ruleSrai (len : Word) (rd rs1 : Reg) (shamt : BitVec 5) (s : State) : Result :=
  writeResult len rd ((s.getX rs1).sshiftRight shamt.toNat) s

/-- ADDI (R221). -/
def execAddi (rd rs1 : Reg) (imm : BitVec 12) (s : State) : Result :=
  ruleAddi 4 rd rs1 imm s

/-- SLTI (R222). -/
def execSlti (rd rs1 : Reg) (imm : BitVec 12) (s : State) : Result :=
  writeResult 4 rd (boolWord (ltSigned (s.getX rs1) (iOperand imm))) s

/-- SLTIU (R223). -/
def execSltiu (rd rs1 : Reg) (imm : BitVec 12) (s : State) : Result :=
  writeResult 4 rd (boolWord (ltUnsigned (s.getX rs1) (sltiuOperand s.cfg imm))) s

/-- XORI (R224). -/
def execXori (rd rs1 : Reg) (imm : BitVec 12) (s : State) : Result :=
  writeResult 4 rd (s.getX rs1 ^^^ iOperand imm) s

/-- ORI (R225). -/
def execOri (rd rs1 : Reg) (imm : BitVec 12) (s : State) : Result :=
  writeResult 4 rd (s.getX rs1 ||| iOperand imm) s

/-- ANDI (R226). -/
def execAndi (rd rs1 : Reg) (imm : BitVec 12) (s : State) : Result :=
  ruleAndi 4 rd rs1 imm s

/-- SLLI (R230). -/
def execSlli (rd rs1 : Reg) (shamt : BitVec 5) (s : State) : Result :=
  ruleSlli 4 rd rs1 shamt s

/-- SRLI (R231). -/
def execSrli (rd rs1 : Reg) (shamt : BitVec 5) (s : State) : Result :=
  ruleSrli 4 rd rs1 shamt s

/-- SRAI (R233). -/
def execSrai (rd rs1 : Reg) (shamt : BitVec 5) (s : State) : Result :=
  ruleSrai 4 rd rs1 shamt s

/-- The word-size frame: `rd` holds the low 32 bits of the result, sign-extended (R240). -/
def writeWord (rd : Reg) (r : Word) (s : State) : Result := writeResult 4 rd (sext 32 r) s

/-- ADDIW (R240, R241). -/
def execAddiw (rd rs1 : Reg) (imm : BitVec 12) (s : State) : Result :=
  writeWord rd (sext 32 (s.getX rs1) + iOperand imm) s

/-- SLLIW (R240, R242). -/
def execSlliw (rd rs1 : Reg) (shamt : BitVec 5) (s : State) : Result :=
  writeWord rd (sext 32 (s.getX rs1) <<< shamt.toNat) s

/-- SRLIW (R240, R243): a 64-bit logical shift of the sign-extended word, narrowed. -/
def execSrliw (rd rs1 : Reg) (shamt : BitVec 5) (s : State) : Result :=
  writeWord rd (sext 32 (s.getX rs1) >>> shamt.toNat) s

/-- SRAIW (R240, R244). -/
def execSraiw (rd rs1 : Reg) (shamt : BitVec 5) (s : State) : Result :=
  writeWord rd ((sext 32 (s.getX rs1)).sshiftRight shamt.toNat) s

end Sys2Proof.Machine
end

