-- ==== Sys2Proof/Machine/AluRegister.lean ====
section
/-! DEFINITION. ALU register-register (spec/45_alu_register.md R250 to R262). -/

namespace Sys2Proof.Machine

/-- The rule of ADD, at either encoding length (R251). -/
def ruleAdd (len : Word) (rd rs1 rs2 : Reg) (s : State) : Result :=
  writeResult len rd (s.getX rs1 + s.getX rs2) s

/-- The rule of SUB, at either encoding length (R252). -/
def ruleSub (len : Word) (rd rs1 rs2 : Reg) (s : State) : Result :=
  writeResult len rd (s.getX rs1 - s.getX rs2) s

/-- The rule of XOR, at either encoding length (R257). -/
def ruleXor (len : Word) (rd rs1 rs2 : Reg) (s : State) : Result :=
  writeResult len rd (s.getX rs1 ^^^ s.getX rs2) s

/-- The rule of OR, at either encoding length (R260). -/
def ruleOr (len : Word) (rd rs1 rs2 : Reg) (s : State) : Result :=
  writeResult len rd (s.getX rs1 ||| s.getX rs2) s

/-- The rule of AND, at either encoding length (R261). -/
def ruleAnd (len : Word) (rd rs1 rs2 : Reg) (s : State) : Result :=
  writeResult len rd (s.getX rs1 &&& s.getX rs2) s

/-- ADD (R251). -/
def execAdd (rd rs1 rs2 : Reg) (s : State) : Result :=
  ruleAdd 4 rd rs1 rs2 s

/-- SUB (R252). -/
def execSub (rd rs1 rs2 : Reg) (s : State) : Result :=
  ruleSub 4 rd rs1 rs2 s

/-- SLL (R253). -/
def execSll (rd rs1 rs2 : Reg) (s : State) : Result :=
  writeResult 4 rd (s.getX rs1 <<< regShamt (s.getX rs2)) s

/-- SLT (R255). -/
def execSlt (rd rs1 rs2 : Reg) (s : State) : Result :=
  writeResult 4 rd (boolWord (ltSigned (s.getX rs1) (s.getX rs2))) s

/-- SLTU (R256). -/
def execSltu (rd rs1 rs2 : Reg) (s : State) : Result :=
  writeResult 4 rd (boolWord (ltUnsigned (s.getX rs1) (s.getX rs2))) s

/-- XOR (R257). -/
def execXor (rd rs1 rs2 : Reg) (s : State) : Result :=
  ruleXor 4 rd rs1 rs2 s

/-- SRL (R258). -/
def execSrl (rd rs1 rs2 : Reg) (s : State) : Result :=
  writeResult 4 rd (s.getX rs1 >>> regShamt (s.getX rs2)) s

/-- SRA (R259). -/
def execSra (rd rs1 rs2 : Reg) (s : State) : Result :=
  writeResult 4 rd ((s.getX rs1).sshiftRight (regShamt (s.getX rs2))) s

/-- OR (R260). -/
def execOr (rd rs1 rs2 : Reg) (s : State) : Result :=
  ruleOr 4 rd rs1 rs2 s

/-- AND (R261). -/
def execAnd (rd rs1 rs2 : Reg) (s : State) : Result :=
  ruleAnd 4 rd rs1 rs2 s

end Sys2Proof.Machine
end

