-- ==== Sys2Proof/Machine/ControlTransfer.lean ====
section
/-! DEFINITION. Jumps and branches (spec/42_control_transfer.md R170 to R182). -/

namespace Sys2Proof.Machine

/-- The rule of JAL, at either encoding length (R170, R171): the link is the next sequential address. -/
def ruleJal (len : Word) (rd : Reg) (imm : BitVec 21) (s : State) : Result :=
  jump rd (s.pc + len) (s.pc + jOperand s.cfg imm) s

/-- The rule of JALR (R172 to R174): the link is `pc + 4` whatever the encoding length, bit 0 of the target is kept. -/
def ruleJalr (rd rs1 : Reg) (imm : BitVec 12) (s : State) : Result :=
  jump rd (s.pc + 4) (s.getX rs1 + iOperand imm) s

/-- The rule of BEQ, at either encoding length (R175, R176). -/
def ruleBeq (len : Word) (rs1 rs2 : Reg) (imm : BitVec 13) (s : State) : Result :=
  branch len (condEq (s.getX rs1) (s.getX rs2)) imm s

/-- The rule of BNE, at either encoding length (R175, R177). -/
def ruleBne (len : Word) (rs1 rs2 : Reg) (imm : BitVec 13) (s : State) : Result :=
  branch len (condNe (s.getX rs1) (s.getX rs2)) imm s

/-- JAL rd, offset (R170). -/
def execJal (rd : Reg) (imm : BitVec 21) (s : State) : Result :=
  ruleJal 4 rd imm s

/-- JALR rd, imm(rs1) (R172). -/
def execJalr (rd rs1 : Reg) (imm : BitVec 12) (s : State) : Result :=
  ruleJalr rd rs1 imm s

/-- BEQ (R176). -/
def execBeq (rs1 rs2 : Reg) (imm : BitVec 13) (s : State) : Result :=
  ruleBeq 4 rs1 rs2 imm s

/-- BNE (R177). -/
def execBne (rs1 rs2 : Reg) (imm : BitVec 13) (s : State) : Result :=
  ruleBne 4 rs1 rs2 imm s

/-- BLT (R178). -/
def execBlt (rs1 rs2 : Reg) (imm : BitVec 13) (s : State) : Result :=
  branch 4 (condLt (s.getX rs1) (s.getX rs2)) imm s

/-- BGE (R179). -/
def execBge (rs1 rs2 : Reg) (imm : BitVec 13) (s : State) : Result :=
  branch 4 (condGe (s.getX rs1) (s.getX rs2)) imm s

/-- BLTU (R180). -/
def execBltu (rs1 rs2 : Reg) (imm : BitVec 13) (s : State) : Result :=
  branch 4 (condLtu (s.getX rs1) (s.getX rs2)) imm s

/-- BGEU (R181). -/
def execBgeu (rs1 rs2 : Reg) (imm : BitVec 13) (s : State) : Result :=
  branch 4 (condGeu (s.getX rs1) (s.getX rs2)) imm s

end Sys2Proof.Machine
end

