-- ==== Sys2Proof/Machine/LoadStore.lean ====
section
/-! DEFINITION. Loads and stores (spec/43_load_store.md R190 to R202). -/

namespace Sys2Proof.Machine

/-- The rule of LW, at either encoding length (R194). -/
def ruleLw (len : Word) (rd rs1 : Reg) (imm : BitVec 12) (s : State) : Result :=
  load len 4 (sext 32) rd (s.ea rs1 imm) s

/-- The rule of SW, at either encoding length (R201). -/
def ruleSw (len : Word) (rs1 rs2 : Reg) (imm : BitVec 12) (s : State) : Result :=
  store len 4 (s.ea rs1 imm) (s.getX rs2) s

/-- LB rd, imm(rs1) (R192). -/
def execLb (rd rs1 : Reg) (imm : BitVec 12) (s : State) : Result :=
  load 4 1 (sext 8) rd (s.ea rs1 imm) s

/-- LH rd, imm(rs1) (R193). -/
def execLh (rd rs1 : Reg) (imm : BitVec 12) (s : State) : Result :=
  load 4 2 (sext 16) rd (s.ea rs1 imm) s

/-- LW rd, imm(rs1) (R194). -/
def execLw (rd rs1 : Reg) (imm : BitVec 12) (s : State) : Result :=
  ruleLw 4 rd rs1 imm s

/-- LD rd, imm(rs1) (R195). -/
def execLd (rd rs1 : Reg) (imm : BitVec 12) (s : State) : Result :=
  load 4 8 (zext 64) rd (s.ea rs1 imm) s

/-- LBU rd, imm(rs1) (R196). -/
def execLbu (rd rs1 : Reg) (imm : BitVec 12) (s : State) : Result :=
  load 4 1 (zext 8) rd (s.ea rs1 imm) s

/-- LHU rd, imm(rs1) (R197). -/
def execLhu (rd rs1 : Reg) (imm : BitVec 12) (s : State) : Result :=
  load 4 2 (zext 16) rd (s.ea rs1 imm) s

/-- LWU rd, imm(rs1) (R198). -/
def execLwu (rd rs1 : Reg) (imm : BitVec 12) (s : State) : Result :=
  load 4 4 (zext 32) rd (s.ea rs1 imm) s

/-- SB rs2, imm(rs1) (R199). -/
def execSb (rs1 rs2 : Reg) (imm : BitVec 12) (s : State) : Result :=
  store 4 1 (s.ea rs1 imm) (s.getX rs2) s

/-- SH rs2, imm(rs1) (R200). -/
def execSh (rs1 rs2 : Reg) (imm : BitVec 12) (s : State) : Result :=
  store 4 2 (s.ea rs1 imm) (s.getX rs2) s

/-- SW rs2, imm(rs1) (R201). -/
def execSw (rs1 rs2 : Reg) (imm : BitVec 12) (s : State) : Result :=
  ruleSw 4 rs1 rs2 imm s

/-- SD rs2, imm(rs1) (R202). -/
def execSd (rs1 rs2 : Reg) (imm : BitVec 12) (s : State) : Result :=
  store 4 8 (s.ea rs1 imm) (s.getX rs2) s

end Sys2Proof.Machine
end

