-- ==== Sys2Proof/Machine/System.lean ====
section
/-! DEFINITION. FENCE, ECALL, EBREAK and the CSR instructions (spec/48_fence_system_csr.md R310 to R323). -/

namespace Sys2Proof.Machine

/-- FENCE (R311): every word of the opcode is the no-op. -/
def execFence (s : State) : Result :=
  noEffect 4 s

/-- ECALL (R312): a no-op, no trap is delivered. -/
def execEcall (s : State) : Result :=
  noEffect 4 s

/-- EBREAK (R313): a no-op, no debugger is entered. -/
def execEbreak (s : State) : Result :=
  noEffect 4 s

/-- The new value of the cell: overwrite, set bits, clear bits (R316 to R321). -/
def csrOverwrite (_t v : Word) : Word := v
def csrSetBits (t v : Word) : Word := t ||| v
def csrClearBits (t v : Word) : Word := t &&& ~~~v

/-- CSRRW rd, [rs1], rs2 (R316). -/
def execCsrrw (rd rs1 rs2 : Reg) (s : State) : Result :=
  csrUpdate csrOverwrite rd rs1 (s.getX rs2) s

/-- CSRRS rd, [rs1], rs2 (R317). -/
def execCsrrs (rd rs1 rs2 : Reg) (s : State) : Result :=
  csrUpdate csrSetBits rd rs1 (s.getX rs2) s

/-- CSRRC rd, [rs1], rs2 (R318). -/
def execCsrrc (rd rs1 rs2 : Reg) (s : State) : Result :=
  csrUpdate csrClearBits rd rs1 (s.getX rs2) s

/-- CSRRWI rd, [rs1], imm12 (R319). -/
def execCsrrwi (rd rs1 : Reg) (imm : BitVec 12) (s : State) : Result :=
  csrUpdate csrOverwrite rd rs1 (csrImmOperand imm) s

/-- CSRRSI rd, [rs1], imm12 (R320). -/
def execCsrrsi (rd rs1 : Reg) (imm : BitVec 12) (s : State) : Result :=
  csrUpdate csrSetBits rd rs1 (csrImmOperand imm) s

/-- CSRRCI rd, [rs1], imm12 (R321). -/
def execCsrrci (rd rs1 : Reg) (imm : BitVec 12) (s : State) : Result :=
  csrUpdate csrClearBits rd rs1 (csrImmOperand imm) s

end Sys2Proof.Machine
end

