-- ==== Sys2Proof/Machine/UpperImmediate.lean ====
section
/-! DEFINITION. LUI and AUIPC (spec/41_upper_immediate.md R160, R161). -/

namespace Sys2Proof.Machine

/-- The rule of LUI, at either encoding length (R160): the 32-bit pattern zero-extended. -/
def ruleLui (len : Word) (rd : Reg) (imm : BitVec 20) (s : State) : Result :=
  writeResult len rd (luiOperand imm) s

/-- LUI rd, imm20 (R160). -/
def execLui (rd : Reg) (imm : BitVec 20) (s : State) : Result :=
  ruleLui 4 rd imm s

/-- AUIPC rd, imm20 (R161): the shift applies to the immediate only. -/
def execAuipc (rd : Reg) (imm : BitVec 20) (s : State) : Result :=
  writeResult 4 rd (s.pc + auipcOperand imm) s

end Sys2Proof.Machine
end

