-- ==== Sys2Proof/Machine/Compressed.lean ====
section
/-! DEFINITION. The compressed instructions (spec/49_compressed.md): each runs the rule of the instruction it expands to, with the
encoding length 2 (R340, R341). -/

namespace Sys2Proof.Machine

/-- c.addi4spn (R344): ADDI rd', x2, nzuimm. -/
def execCAddi4spn (rd' : Reg3) (nzuimm : BitVec 10) (s : State) : Result :=
  ruleAddi 2 rd'.full 2 (nzuimm.setWidth 12) s

/-- c.lw (R345): LW rd', uimm(rs1'). -/
def execCLw (rd' rs1' : Reg3) (uimm : BitVec 7) (s : State) : Result :=
  ruleLw 2 rd'.full rs1'.full (uimm.setWidth 12) s

/-- c.sw (R346): SW rs2', uimm(rs1'). -/
def execCSw (rs1' rs2' : Reg3) (uimm : BitVec 7) (s : State) : Result :=
  ruleSw 2 rs1'.full rs2'.full (uimm.setWidth 12) s

/-- c.addi, c.nop (R348): ADDI rd, rd, imm. -/
def execCAddi (rd : Reg) (imm : BitVec 6) (s : State) : Result :=
  ruleAddi 2 rd rd (imm.signExtend 12) s

/-- c.jal (R351): JAL x1, offset, linking `pc + 2` (R171). -/
def execCJal (imm : BitVec 12) (s : State) : Result :=
  ruleJal 2 1 (imm.signExtend 21) s

/-- c.li (R352): ADDI rd, x0, imm. -/
def execCLi (rd : Reg) (imm : BitVec 6) (s : State) : Result :=
  ruleAddi 2 rd 0 (imm.signExtend 12) s

/-- c.addi16sp (R354): ADDI x2, x2, nzimm. -/
def execCAddi16sp (nzimm : BitVec 10) (s : State) : Result :=
  ruleAddi 2 2 2 (nzimm.signExtend 12) s

/-- c.lui (R356): LUI rd with the 20-bit field of nzimm. -/
def execCLui (rd : Reg) (nzimm : BitVec 6) (s : State) : Result :=
  ruleLui 2 rd (nzimm.signExtend 20) s

/-- c.srli (R358): SRLI rd', rd', shamt. -/
def execCSrli (rd' : Reg3) (shamt : BitVec 5) (s : State) : Result :=
  ruleSrli 2 rd'.full rd'.full shamt s

/-- c.srai (R359): SRAI rd', rd', shamt. -/
def execCSrai (rd' : Reg3) (shamt : BitVec 5) (s : State) : Result :=
  ruleSrai 2 rd'.full rd'.full shamt s

/-- c.andi (R360): ANDI rd', rd', imm. -/
def execCAndi (rd' : Reg3) (imm : BitVec 6) (s : State) : Result :=
  ruleAndi 2 rd'.full rd'.full (imm.signExtend 12) s

/-- c.sub (R361): SUB rd', rd', rs2'. -/
def execCSub (rd' rs2' : Reg3) (s : State) : Result :=
  ruleSub 2 rd'.full rd'.full rs2'.full s

/-- c.xor (R362): XOR rd', rd', rs2'. -/
def execCXor (rd' rs2' : Reg3) (s : State) : Result :=
  ruleXor 2 rd'.full rd'.full rs2'.full s

/-- c.or (R363): OR rd', rd', rs2'. -/
def execCOr (rd' rs2' : Reg3) (s : State) : Result :=
  ruleOr 2 rd'.full rd'.full rs2'.full s

/-- c.and (R364): AND rd', rd', rs2'. -/
def execCAnd (rd' rs2' : Reg3) (s : State) : Result :=
  ruleAnd 2 rd'.full rd'.full rs2'.full s

/-- c.j (R365): JAL x0, offset. -/
def execCJ (imm : BitVec 12) (s : State) : Result :=
  ruleJal 2 0 (imm.signExtend 21) s

/-- c.beqz (R366): BEQ rs1', x0, offset. -/
def execCBeqz (rs1' : Reg3) (imm : BitVec 9) (s : State) : Result :=
  ruleBeq 2 rs1'.full 0 (imm.signExtend 13) s

/-- c.bnez (R367): BNE rs1', x0, offset. -/
def execCBnez (rs1' : Reg3) (imm : BitVec 9) (s : State) : Result :=
  ruleBne 2 rs1'.full 0 (imm.signExtend 13) s

/-- c.slli (R368): SLLI rd, rd, shamt. -/
def execCSlli (rd : Reg) (shamt : BitVec 5) (s : State) : Result :=
  ruleSlli 2 rd rd shamt s

/-- The halfword of c.slli64 with a given `rd`: every other bit is fixed (R369; log entry 15). -/
def slli64Half (rd : Reg) : BitVec 16 := packC 0b000#3 0#1 rd 0 0b10#2

/-- c.slli64 (R369): recognised, not implemented; `FATAL_DECODE_COMPRESSED` (R119, R393), the machine is halted. -/
def execCSlli64 (rd : Reg) (s : State) : Result :=
  Host.Outcome.next (s.raise (.decodeCompressed (slli64Half rd)))

/-- c.jr (R371): JALR x0, 0(rs1). -/
def execCJr (rs1 : Reg) (s : State) : Result :=
  ruleJalr 0 rs1 0 s

/-- c.mv (R373): ADD rd, x0, rs2. -/
def execCMv (rd rs2 : Reg) (s : State) : Result :=
  ruleAdd 2 rd 0 rs2 s

/-- c.ebreak (R370): a no-op that advances by 2. -/
def execCEbreak (s : State) : Result :=
  noEffect 2 s

/-- c.jalr (R372): JALR x1, 0(rs1), linking `pc + 4` (R173). -/
def execCJalr (rs1 : Reg) (s : State) : Result :=
  ruleJalr 1 rs1 0 s

/-- c.add (R374): ADD rd, rd, rs2. -/
def execCAdd (rd rs2 : Reg) (s : State) : Result :=
  ruleAdd 2 rd rd rs2 s

end Sys2Proof.Machine
end

