-- ==== Sys2Proof/Machine/MulDiv.lean ====
section
/-! DEFINITION. Multiply and divide (spec/46_muldiv.md R270 to R279): exact integers, narrowed at the end. -/

namespace Sys2Proof.Machine

/-- `lo64(p)`: `p mod 2^64` (R270). -/
def lo64 (p : Int) : Word := BitVec.ofInt 64 p

/-- `hi64(p)`: `floor(p / 2^64) mod 2^64` (R270). -/
def hi64 (p : Int) : Word := BitVec.ofInt 64 (p / 2 ^ 64)

/-- `signed(v)` and `unsigned(v)` as integers (R10, R270). -/
def sgn (v : Word) : Int := v.toInt
def uns (v : Word) : Int := (v.toNat : Int)

/-- Signed division, rounded toward zero; by zero it is 0; the overflow pair wraps to −2^63 (R275). -/
def divSigned (a b : Word) : Word :=
  if b = 0 then 0
  else if sgn a = -2 ^ 63 ∧ sgn b = -1 then 0x8000000000000000#64
  else BitVec.ofInt 64 ((sgn a).tdiv (sgn b))

/-- Unsigned division; by zero it is 0 (R276). -/
def divUnsigned (a b : Word) : Word := if b = 0 then 0 else BitVec.ofNat 64 (a.toNat / b.toNat)

/-- Signed remainder with the sign of the dividend; by zero it is 0 (R277). -/
def remSigned (a b : Word) : Word :=
  if b = 0 then 0
  else if sgn a = -2 ^ 63 ∧ sgn b = -1 then 0
  else BitVec.ofInt 64 (sgn a - sgn b * (sgn a).tdiv (sgn b))

/-- Unsigned remainder; by zero it is 0 (R278). -/
def remUnsigned (a b : Word) : Word := if b = 0 then 0 else BitVec.ofNat 64 (a.toNat % b.toNat)

/-- MUL (R271). -/
def execMul (rd rs1 rs2 : Reg) (s : State) : Result :=
  writeResult 4 rd (lo64 (uns (s.getX rs1) * uns (s.getX rs2))) s

/-- MULH (R272). -/
def execMulh (rd rs1 rs2 : Reg) (s : State) : Result :=
  writeResult 4 rd (hi64 (sgn (s.getX rs1) * sgn (s.getX rs2))) s

/-- MULHSU (R273). -/
def execMulhsu (rd rs1 rs2 : Reg) (s : State) : Result :=
  writeResult 4 rd (hi64 (sgn (s.getX rs1) * uns (s.getX rs2))) s

/-- MULHU (R274). -/
def execMulhu (rd rs1 rs2 : Reg) (s : State) : Result :=
  writeResult 4 rd (hi64 (uns (s.getX rs1) * uns (s.getX rs2))) s

/-- DIV (R275). -/
def execDiv (rd rs1 rs2 : Reg) (s : State) : Result :=
  writeResult 4 rd (divSigned (s.getX rs1) (s.getX rs2)) s

/-- DIVU (R276). -/
def execDivu (rd rs1 rs2 : Reg) (s : State) : Result :=
  writeResult 4 rd (divUnsigned (s.getX rs1) (s.getX rs2)) s

/-- REM (R277). -/
def execRem (rd rs1 rs2 : Reg) (s : State) : Result :=
  writeResult 4 rd (remSigned (s.getX rs1) (s.getX rs2)) s

/-- REMU (R278). -/
def execRemu (rd rs1 rs2 : Reg) (s : State) : Result :=
  writeResult 4 rd (remUnsigned (s.getX rs1) (s.getX rs2)) s

end Sys2Proof.Machine
end

