-- ==== Sys2Proof/Machine/Step.lean ====
section
/-! DEFINITION. The step: fetch, decode, execute (spec/40_cycle_and_dispatch.md R140 to R145), and where the host puts
an instruction so that the next step fetches it. -/

namespace Sys2Proof.Machine

/-- One step (R145). While `halted` is set it changes nothing (R140); a fatal error of the fetch or of the decoder ends
it with `halted` set (R141, R142); otherwise the fetched instruction is executed (R143). -/
def step (s : State) : Host.Outcome State Fault Refusal :=
  match s.halted with
  | some _ => .next s
  | none =>
    match s.fetch with
    | (.error f, s1) => .next (s1.raise f)
    | (.ok w, s1) =>
      match decode w with
      | .error e => .next (s1.raise (Fatal.ofDecodeError e))
      | .ok i => exec i s1

/-- The machine, not halted, with the fetch word of the instruction (zeros above its bits) in the RAM or ROM buffer at
`pc`, as an image load would leave it (R448; log entry 4). Where no such buffer stands at `pc` the memory is left as it
is (log entry 24). -/
def State.withFetchWord (s : State) (nbits w : Nat) : State :=
  { s with halted := none, bus := Bus.poke s.pc (leBytes 4 ((tableWord nbits w).setWidth 64)) s.bus }

end Sys2Proof.Machine
end

