-- ==== Sys2Proof/Safety.lean ====
section
/-! DEFINITION. What a run without a fatal error is, the invariant of the machine, and the words in which the statements
say what an instruction changes and what it leaves. -/

namespace Sys2Proof.Machine

/-! ## Runs -/

/-- The state after `n` step requests (spec/70_reset_and_hazards.md R462). A step that is no next state ends the run. -/
def State.after : Nat → State → Host.Outcome State Fault Refusal
  | 0, s => .next s
  | n + 1, s =>
    match step s with
    | .next t => State.after n t
    | .fault f => .fault f
    | .refused r => .refused r

/-- A run of `n` steps is safe: it ends in a state in which no fatal error was raised (R33, R412). A fatal error is
never taken back by a step (R33), so the last state tells. -/
def State.safeFor (n : Nat) (s : State) : Prop := ∃ t, State.after n s = .next t ∧ t.halted = none

/-! ## The invariant -/

/-- The shape of the configured table: every tuple without its image (R51). -/
def Config.tableShape (cfg : Config) : List (Word × Word × RegionShape) :=
  cfg.regionTable.map (fun e => (e.start, e.stop,
    match e.kind with
    | .ram size _ => RegionShape.ram size
    | .rom size _ => RegionShape.rom size
    | .uart => RegionShape.uart))

/-- What every reachable state satisfies. -/
structure State.Inv (s : State) : Prop where
  /-- the cell of `x0` holds 0 between steps (R21, R22) -/
  zeroCell : s.regs[0] = 0
  /-- the CSR file is canonical and lists cells 0 to 4095 only (R27) -/
  csrWf : Cells.wf s.csr = true
  csrBelow : Cells.below csrCount s.csr = true
  /-- every buffer is canonical and inside its size, every UART queue holds at most 16 bytes (R64, R66, R416) -/
  busWf : Bus.wf s.bus = true
  /-- the region table is the configured one (R31, R51) -/
  table : Bus.shape s.bus = Config.tableShape s.cfg
  /-- a recorded fatal error names the address at which the machine stands (R150) -/
  record : ∀ r, s.halted = some r → r.pc = s.pc

/-! ## What an instruction changes and leaves -/

/-- Register effect `x[rd] <- v`: `rd` reads `v`, and `x0` still 0; every other register reads as before (R21, R22). -/
structure State.Wrote (s t : State) (rd : Reg) (v : Word) : Prop where
  result : t.getX rd = if rd = 0 then 0 else v
  others : ∀ r, r ≠ rd → t.getX r = s.getX r
  zeroCell : t.regs[0] = 0

/-- No register changes, and the cell of `x0` is re-zeroed (R144). -/
structure State.KeptRegs (s t : State) : Prop where
  regs : ∀ r, t.getX r = s.getX r
  zeroCell : t.regs[0] = 0

/-- The instruction completed with the next instruction at `next`: no fatal error was recorded, the CSR file and the
configuration are as before. -/
structure State.Reached (s t : State) (next : Word) : Prop where
  pc : t.pc = next
  csr : t.csr = s.csr
  halted : t.halted = s.halted
  cfg : t.cfg = s.cfg

/-- The step ended in fatal error `f` (R145, R150): the record names it and the address of the instruction, `pc` has not
moved, no register cell, no CSR and no configuration changed. -/
structure State.Raised (s t : State) (f : Fatal) : Prop where
  halted : t.halted = some { fatal := f, pc := s.pc }
  pc : t.pc = s.pc
  regs : t.regs = s.regs
  csr : t.csr = s.csr
  cfg : t.cfg = s.cfg

/-- No byte of RAM or ROM changes, nor the region table. -/
structure State.KeptMemory (s t : State) : Prop where
  bytes : ∀ a, t.peek a = s.peek a
  shape : Bus.shape t.bus = Bus.shape s.bus
  rom : Bus.romContents t.bus = Bus.romContents s.bus

/-- The address is routed to a UART in state `u`, at local offset `o`. -/
def State.atUart (s : State) (a : Word) (u : Uart) (o : Nat) : Prop :=
  ∃ m, Bus.lookup a s.bus = some m ∧ m.region = .uart u ∧ m.offset a = o

/-- An access at `a` reaches the tuple that `a` is routed to and no other: every other tuple keeps its buffer or its UART
whole, and where no tuple holds `a` nothing changes (R53, R54). -/
structure State.TouchedOnly (s t : State) (a : Word) : Prop where
  tuples : ∀ (pre : Bus) (m : Mapping) (post : Bus), s.bus = pre ++ m :: post → m.holds a = true →
    (∀ m' ∈ pre, m'.holds a = false) → ∃ r, t.bus = pre ++ { m with region := r } :: post
  missed : Bus.lookup a s.bus = none → t.bus = s.bus
  /-- in particular every UART but the one at `a` keeps its five fields, its queues and the bytes given to its sink -/
  uarts : ∀ (b : Word) (u : Uart) (o : Nat), Bus.lookup b s.bus ≠ Bus.lookup a s.bus → s.atUart b u o → t.atUart b u o

/-- Every byte of RAM and ROM outside the `n` bytes at `a` reads as before; ROM contents and the region table do not
change at all; no buffer and no UART but the one that `a` is routed to is touched. -/
structure State.KeptOutside (s t : State) (a : Word) (n : Nat) : Prop where
  bytes : ∀ b : Word, b.toNat < a.toNat ∨ a.toNat + n ≤ b.toNat → t.peek b = s.peek b
  shape : Bus.shape t.bus = Bus.shape s.bus
  rom : Bus.romContents t.bus = Bus.romContents s.bus
  touched : State.TouchedOnly s t a

/-! ## The bytes of an access -/

/-- Byte `i` of an access at `a`: the byte at that place of the buffer to which `a` is routed (R53, R56); `none` past
the buffer, past address 2^64 − 1, in a UART, and where no tuple holds `a`. -/
def State.accessByte (s : State) (a : Word) (i : Nat) : Option Byte :=
  match Bus.lookup a s.bus with
  | some m => if a.toNat + i < 2 ^ 64 then m.region.peek (m.offset a + i) else none
  | none => none

/-- An access at `a` finds the bytes `bs` in one RAM or ROM buffer. -/
def State.holdsBytes (s : State) (a : Word) (bs : List Byte) : Prop :=
  ∀ i (h : i < bs.length), s.accessByte a i = some bs[i]

/-- The `n` bytes of an access at `a` lie inside one RAM buffer. -/
def State.inRam (s : State) (a : Word) (n : Nat) : Prop :=
  ∃ m size buf, Bus.lookup a s.bus = some m ∧ m.region = .ram size buf ∧ m.offset a + n ≤ size ∧ a.toNat + n ≤ 2 ^ 64

/-- The address is routed to a ROM. -/
def State.inRom (s : State) (a : Word) : Prop :=
  ∃ m size buf, Bus.lookup a s.bus = some m ∧ m.region = .rom size buf

/-- The sum of the bytes at their weights: `b_0 + 2^8·b_1 + …` (R56). -/
def bytesNat : List Byte → Nat
  | [] => 0
  | b :: bs => b.toNat + 2 ^ 8 * bytesNat bs

end Sys2Proof.Machine

namespace Sys2Proof

open Sys2Proof.Machine

/-! ## Classes of instructions -/

/-- The register an instruction writes, as its rule names it. -/
def Instr.dest : Instr → Option Reg
  | .lui rd _ | .auipc rd _ | .jal rd _ | .jalr rd _ _ => some rd
  | .lb rd _ _ | .lh rd _ _ | .lw rd _ _ | .ld rd _ _ | .lbu rd _ _ | .lhu rd _ _ | .lwu rd _ _ => some rd
  | .addi rd _ _ | .slti rd _ _ | .sltiu rd _ _ | .xori rd _ _ | .ori rd _ _ | .andi rd _ _ => some rd
  | .slli rd _ _ | .srli rd _ _ | .srai rd _ _ | .addiw rd _ _ | .slliw rd _ _ | .srliw rd _ _ | .sraiw rd _ _ => some rd
  | .add rd _ _ | .sub rd _ _ | .sll rd _ _ | .slt rd _ _ | .sltu rd _ _ => some rd
  | .xor rd _ _ | .srl rd _ _ | .sra rd _ _ | .or rd _ _ | .and rd _ _ => some rd
  | .mul rd _ _ | .mulh rd _ _ | .mulhsu rd _ _ | .mulhu rd _ _ => some rd
  | .div rd _ _ | .divu rd _ _ | .rem rd _ _ | .remu rd _ _ => some rd
  | .lrW rd _ _ _ _ | .lrD rd _ _ _ _ | .scW rd _ _ _ _ | .scD rd _ _ _ _ => some rd
  | .amoswapW rd _ _ _ _ | .amoswapD rd _ _ _ _ => some rd
  | .csrrw rd _ _ _ | .csrrs rd _ _ _ | .csrrc rd _ _ _ | .csrrwi rd _ _ | .csrrsi rd _ _ | .csrrci rd _ _ => some rd
  | .cAddi4spn rd' _ | .cLw rd' _ _ | .cSrli rd' _ | .cSrai rd' _ | .cAndi rd' _ => some rd'.full
  | .cSub rd' _ | .cXor rd' _ | .cOr rd' _ | .cAnd rd' _ => some rd'.full
  | .cAddi rd _ | .cLi rd _ | .cLui rd _ | .cSlli rd _ | .cMv rd _ | .cAdd rd _ => some rd
  | .cJal _ | .cJalr _ => some 1
  | .cAddi16sp _ => some 2
  | .cJ _ | .cJr _ => some 0
  | .beq _ _ _ | .bne _ _ _ | .blt _ _ _ | .bge _ _ _ | .bltu _ _ _ | .bgeu _ _ _ => none
  | .sb _ _ _ | .sh _ _ _ | .sw _ _ _ | .sd _ _ _ | .cSw _ _ _ => none
  | .fence _ | .ecall | .ebreak | .cEbreak | .cSlli64 _ | .cBeqz _ _ | .cBnez _ _ => none

/-- Where an instruction stores and how many bytes: the stores, SC and AMOSWAP (R69, R190, R290). -/
def Instr.storeSpan (s : State) : Instr → Option (Word × Nat)
  | .sb rs1 _ imm => some (s.ea rs1 imm, 1)
  | .sh rs1 _ imm => some (s.ea rs1 imm, 2)
  | .sw rs1 _ imm => some (s.ea rs1 imm, 4)
  | .sd rs1 _ imm => some (s.ea rs1 imm, 8)
  | .cSw rs1' _ uimm => some (s.ea rs1'.full (uimm.setWidth 12), 4)
  | .scW _ rs1 _ _ _ | .amoswapW _ rs1 _ _ _ => some (s.getX rs1, 4)
  | .scD _ rs1 _ _ _ | .amoswapD _ rs1 _ _ _ => some (s.getX rs1, 8)
  | .lui _ _ | .auipc _ _ | .jal _ _ | .jalr _ _ _
  | .beq _ _ _ | .bne _ _ _ | .blt _ _ _ | .bge _ _ _ | .bltu _ _ _ | .bgeu _ _ _
  | .lb _ _ _ | .lh _ _ _ | .lw _ _ _ | .ld _ _ _ | .lbu _ _ _ | .lhu _ _ _ | .lwu _ _ _
  | .addi _ _ _ | .slti _ _ _ | .sltiu _ _ _ | .xori _ _ _ | .ori _ _ _ | .andi _ _ _
  | .slli _ _ _ | .srli _ _ _ | .srai _ _ _ | .addiw _ _ _ | .slliw _ _ _ | .srliw _ _ _ | .sraiw _ _ _
  | .add _ _ _ | .sub _ _ _ | .sll _ _ _ | .slt _ _ _ | .sltu _ _ _
  | .xor _ _ _ | .srl _ _ _ | .sra _ _ _ | .or _ _ _ | .and _ _ _
  | .mul _ _ _ | .mulh _ _ _ | .mulhsu _ _ _ | .mulhu _ _ _
  | .div _ _ _ | .divu _ _ _ | .rem _ _ _ | .remu _ _ _
  | .lrW _ _ _ _ _ | .lrD _ _ _ _ _ | .fence _ | .ecall | .ebreak
  | .csrrw _ _ _ _ | .csrrs _ _ _ _ | .csrrc _ _ _ _ | .csrrwi _ _ _ | .csrrsi _ _ _ | .csrrci _ _ _
  | .cAddi4spn _ _ | .cLw _ _ _ | .cAddi _ _ | .cJal _ | .cLi _ _ | .cAddi16sp _ | .cLui _ _
  | .cSrli _ _ | .cSrai _ _ | .cAndi _ _ | .cSub _ _ | .cXor _ _ | .cOr _ _ | .cAnd _ _ | .cJ _
  | .cBeqz _ _ | .cBnez _ _ | .cSlli _ _ | .cSlli64 _ | .cJr _ | .cMv _ _ | .cEbreak | .cJalr _ | .cAdd _ _ => none

/-- The six CSR instructions (R27). -/
def Instr.usesCsr : Instr → Bool
  | .csrrw _ _ _ _ | .csrrs _ _ _ _ | .csrrc _ _ _ _ | .csrrwi _ _ _ | .csrrsi _ _ _ | .csrrci _ _ _ => true
  | .lui _ _ | .auipc _ _ | .jal _ _ | .jalr _ _ _
  | .beq _ _ _ | .bne _ _ _ | .blt _ _ _ | .bge _ _ _ | .bltu _ _ _ | .bgeu _ _ _
  | .lb _ _ _ | .lh _ _ _ | .lw _ _ _ | .ld _ _ _ | .lbu _ _ _ | .lhu _ _ _ | .lwu _ _ _
  | .sb _ _ _ | .sh _ _ _ | .sw _ _ _ | .sd _ _ _
  | .addi _ _ _ | .slti _ _ _ | .sltiu _ _ _ | .xori _ _ _ | .ori _ _ _ | .andi _ _ _
  | .slli _ _ _ | .srli _ _ _ | .srai _ _ _ | .addiw _ _ _ | .slliw _ _ _ | .srliw _ _ _ | .sraiw _ _ _
  | .add _ _ _ | .sub _ _ _ | .sll _ _ _ | .slt _ _ _ | .sltu _ _ _
  | .xor _ _ _ | .srl _ _ _ | .sra _ _ _ | .or _ _ _ | .and _ _ _
  | .mul _ _ _ | .mulh _ _ _ | .mulhsu _ _ _ | .mulhu _ _ _
  | .div _ _ _ | .divu _ _ _ | .rem _ _ _ | .remu _ _ _
  | .lrW _ _ _ _ _ | .lrD _ _ _ _ _ | .scW _ _ _ _ _ | .scD _ _ _ _ _
  | .amoswapW _ _ _ _ _ | .amoswapD _ _ _ _ _ | .fence _ | .ecall | .ebreak
  | .cAddi4spn _ _ | .cLw _ _ _ | .cSw _ _ _ | .cAddi _ _ | .cJal _ | .cLi _ _ | .cAddi16sp _ | .cLui _ _
  | .cSrli _ _ | .cSrai _ _ | .cAndi _ _ | .cSub _ _ | .cXor _ _ | .cOr _ _ | .cAnd _ _ | .cJ _
  | .cBeqz _ _ | .cBnez _ _ | .cSlli _ _ | .cSlli64 _ | .cJr _ | .cMv _ _ | .cEbreak | .cJalr _ | .cAdd _ _ => false

/-- The instructions that may redirect: JAL, JALR and the branches, with their compressed forms (R148). -/
def Instr.mayRedirect : Instr → Bool
  | .jal _ _ | .jalr _ _ _ | .beq _ _ _ | .bne _ _ _ | .blt _ _ _ | .bge _ _ _ | .bltu _ _ _ | .bgeu _ _ _
  | .cJal _ | .cJ _ | .cBeqz _ _ | .cBnez _ _ | .cJr _ | .cJalr _ => true
  | .lui _ _ | .auipc _ _
  | .lb _ _ _ | .lh _ _ _ | .lw _ _ _ | .ld _ _ _ | .lbu _ _ _ | .lhu _ _ _ | .lwu _ _ _
  | .sb _ _ _ | .sh _ _ _ | .sw _ _ _ | .sd _ _ _
  | .addi _ _ _ | .slti _ _ _ | .sltiu _ _ _ | .xori _ _ _ | .ori _ _ _ | .andi _ _ _
  | .slli _ _ _ | .srli _ _ _ | .srai _ _ _ | .addiw _ _ _ | .slliw _ _ _ | .srliw _ _ _ | .sraiw _ _ _
  | .add _ _ _ | .sub _ _ _ | .sll _ _ _ | .slt _ _ _ | .sltu _ _ _
  | .xor _ _ _ | .srl _ _ _ | .sra _ _ _ | .or _ _ _ | .and _ _ _
  | .mul _ _ _ | .mulh _ _ _ | .mulhsu _ _ _ | .mulhu _ _ _
  | .div _ _ _ | .divu _ _ _ | .rem _ _ _ | .remu _ _ _
  | .lrW _ _ _ _ _ | .lrD _ _ _ _ _ | .scW _ _ _ _ _ | .scD _ _ _ _ _
  | .amoswapW _ _ _ _ _ | .amoswapD _ _ _ _ _ | .fence _ | .ecall | .ebreak
  | .csrrw _ _ _ _ | .csrrs _ _ _ _ | .csrrc _ _ _ _ | .csrrwi _ _ _ | .csrrsi _ _ _ | .csrrci _ _ _
  | .cAddi4spn _ _ | .cLw _ _ _ | .cSw _ _ _ | .cAddi _ _ | .cLi _ _ | .cAddi16sp _ | .cLui _ _
  | .cSrli _ _ | .cSrai _ _ | .cAndi _ _ | .cSub _ _ | .cXor _ _ | .cOr _ _ | .cAnd _ _
  | .cSlli _ _ | .cSlli64 _ | .cMv _ _ | .cEbreak | .cAdd _ _ => false

/-! ## The shapes of the statements about one instruction

Each says that `exec` answers a next state and what that state holds; every field of the state is accounted for. -/

namespace Machine

/-- The whole effect is the register write `x[rd] <- v`: `exec` completes, the next instruction is at `next`, memory and
devices are as before. -/
def WritesResult (i : Instr) (s : State) (rd : Reg) (v next : Word) : Prop :=
  ∃ t, exec i s = .next t ∧ State.Wrote s t rd v ∧ State.Reached s t next ∧ t.bus = s.bus

/-- No effect but the next address. -/
def OnlyMoves (i : Instr) (s : State) (next : Word) : Prop :=
  ∃ t, exec i s = .next t ∧ State.KeptRegs s t ∧ State.Reached s t next ∧ t.bus = s.bus

/-- A load of `n` bytes at `a` into `rd` through `view`. The first part is the rule, for every region that answers the
read (a UART read may change the device, R71); the second is a read of bytes that RAM or ROM holds. -/
def Loads (i : Instr) (s : State) (n : Nat) (view : Word → Word) (rd : Reg) (a next : Word) : Prop :=
  (∀ v s1, s.memRead a n = (.ok v, s1) →
    ∃ t, exec i s = .next t ∧ State.Wrote s t rd (view v) ∧ State.Reached s t next ∧ t.bus = s1.bus ∧
      State.KeptMemory s t ∧ State.TouchedOnly s t a) ∧
  (∀ bs, bs.length = n → s.holdsBytes a bs → WritesResult i s rd (view (leValue bs)) next)

/-- A store of the low `n` bytes of `v` at `a`, and the register write `x[rd] <- r` if there is one. The first part is the
rule, for every region that takes the write; the second is a write inside a RAM buffer, which then holds the bytes. -/
def Stores (i : Instr) (s : State) (n : Nat) (a v : Word) (result : Option (Reg × Word)) (next : Word) : Prop :=
  (∀ s1, s.memWrite a n v = (.ok (), s1) →
    ∃ t, exec i s = .next t ∧ (match result with | some (rd, r) => State.Wrote s t rd r | none => State.KeptRegs s t) ∧
      State.Reached s t next ∧ t.bus = s1.bus ∧ State.KeptOutside s t a n) ∧
  (s.inRam a n →
    ∃ t, exec i s = .next t ∧ (match result with | some (rd, r) => State.Wrote s t rd r | none => State.KeptRegs s t) ∧
      State.Reached s t next ∧ State.KeptOutside s t a n ∧ (Bus.wf s.bus = true → t.holdsBytes a (leBytes n v)))

/-- The instruction ends in fatal error `f`, with memory and devices as in `s1`. -/
def StopsWith (i : Instr) (s : State) (f : Fatal) (s1 : State) : Prop :=
  ∃ t, exec i s = .next t ∧ State.Raised s t f ∧ t.bus = s1.bus

/-- A CSR instruction: cell `k` goes from `t` to `new t`, its old value to `rd`, every other cell is as before. -/
def UpdatesCsr (i : Instr) (s : State) (rd : Reg) (k : Nat) (new : Word → Word) : Prop :=
  ∃ t, exec i s = .next t ∧ State.Wrote s t rd (s.csrGet k) ∧ t.csrGet k = new (s.csrGet k) ∧
    (∀ j, j ≠ k → t.csrGet j = s.csrGet j) ∧
    t.pc = s.pc + 4 ∧ t.halted = s.halted ∧ t.cfg = s.cfg ∧ t.bus = s.bus

/-! ## Words and halfwords that are no instruction -/

/-- R96: the thirteen primary opcodes. -/
def primaryOpcodes : List (BitVec 7) :=
  [0b0000011#7, 0b0001111#7, 0b0010011#7, 0b0010111#7, 0b0011011#7, 0b0100011#7, 0b0101111#7, 0b0110011#7,
    0b0110111#7, 0b1100011#7, 0b1100111#7, 0b1101111#7, 0b1110011#7]

/-- The second-level fields of a standard word, by primary opcode, as R106 to R113 list them. -/
def listedFields (w : BitVec 32) : Prop :=
  let f3 := w.extractLsb' 12 3
  let f7 := w.extractLsb' 25 7
  let f5 := w.extractLsb' 27 5
  match (w.extractLsb' 0 7).toNat with
  | 0x03 => f3 ≠ 0b111#3
  | 0x13 => (f3 = 0b001#3 → f7 = 0b0000000#7) ∧ (f3 = 0b101#3 → f7 = 0b0000000#7 ∨ f7 = 0b0100000#7)
  | 0x1B => f3 = 0b000#3 ∨ (f3 = 0b001#3 ∧ f7 = 0b0000000#7) ∨
      (f3 = 0b101#3 ∧ (f7 = 0b0000000#7 ∨ f7 = 0b0100000#7))
  | 0x23 => f3 = 0b000#3 ∨ f3 = 0b001#3 ∨ f3 = 0b010#3 ∨ f3 = 0b011#3
  | 0x2F => (f3 = 0b010#3 ∨ f3 = 0b011#3) ∧ (f5 = 0b00010#5 ∨ f5 = 0b00011#5 ∨ f5 = 0b00001#5)
  | 0x33 => f7 = 0b0000000#7 ∨ f7 = 0b0000001#7 ∨ (f7 = 0b0100000#7 ∧ (f3 = 0b000#3 ∨ f3 = 0b101#3))
  | 0x63 => f3 ≠ 0b010#3 ∧ f3 ≠ 0b011#3
  | 0x67 => f3 = 0b000#3
  | 0x73 => w = 0x00000073#32 ∨ w = 0x00100073#32 ∨ (f3 ≠ 0b000#3 ∧ f3 ≠ 0b100#3)
  | _ => True

/-- The illegal halfwords of R118, in its order. -/
def illegalHalf (c : BitVec 16) : Prop :=
  let q := c.extractLsb' 0 2
  let f3 := c.extractLsb' 13 3
  let c12 := c.extractLsb' 12 1
  (q = 0b00#2 ∧ (f3 = 0b001#3 ∨ f3 = 0b011#3 ∨ f3 = 0b100#3 ∨ f3 = 0b101#3 ∨ f3 = 0b111#3)) ∨
  (q = 0b00#2 ∧ f3 = 0b000#3 ∧ c.extractLsb' 5 8 = 0#8) ∨
  (q = 0b01#2 ∧ f3 = 0b011#3 ∧ c12 = 0#1 ∧ c.extractLsb' 2 5 = 0#5) ∨
  (q = 0b01#2 ∧ f3 = 0b100#3 ∧ c.extractLsb' 10 2 = 0b11#2 ∧ c12 = 1#1) ∨
  (q = 0b01#2 ∧ f3 = 0b100#3 ∧ (c.extractLsb' 10 2 = 0b00#2 ∨ c.extractLsb' 10 2 = 0b01#2) ∧ c12 = 1#1) ∨
  (q = 0b10#2 ∧ (f3 = 0b001#3 ∨ f3 = 0b010#3 ∨ f3 = 0b011#3 ∨ f3 = 0b101#3 ∨ f3 = 0b110#3 ∨ f3 = 0b111#3)) ∨
  (q = 0b10#2 ∧ f3 = 0b000#3 ∧ c12 = 1#1) ∨
  (q = 0b10#2 ∧ f3 = 0b100#3 ∧ c12 = 0#1 ∧ c.extractLsb' 2 5 = 0#5 ∧ c.extractLsb' 7 5 = 0#5)

/-- The pattern of c.slli64 (R369). -/
def slli64Pattern (c : BitVec 16) : Prop :=
  c.extractLsb' 0 2 = 0b10#2 ∧ c.extractLsb' 13 3 = 0b000#3 ∧ c.extractLsb' 12 1 = 0#1 ∧ c.extractLsb' 2 5 = 0#5

end Machine

end Sys2Proof
end

