-- ==== Sys2Proof/Certificates/Slice0/Obligations.lean ====
section
/-! DEFINITION. The statements for the provers, from the numbered rules of spec/. The words they are written in
(`WritesResult`, `Loads`, `Stores`, `StopsWith`, …) are defined in Sys2Proof/Safety.lean. Fields of an encoding are written
out from spec/30_encoding.md and spec/49_compressed.md, with no use of the encoder. -/

open Sys2Proof Sys2Proof.Machine

/-! ## Encoding -/

/-- Decoding the encoding of a well-formed instruction gives the instruction back, whatever its operands (the
numbers and layouts are the spec's decisions D28 and D29; that the ignored bits are kept is the model's, log entry
16). -/
def Obligations.DecodeOfEncode : Prop :=
  ∀ i : Instr, i.wf = true → decode (encode i) = .ok i

/-- Every word the decoder accepts is the encoding of the well-formed instruction it gives: all of a standard word,
the low half of a compressed one; and the two low bits tell the length (R90, R91; the ignored bits are kept, log
entry 16). -/
def Obligations.EncodeOfDecode : Prop :=
  ∀ (w : BitVec 32) (i : Instr), decode w = .ok i →
    i.wf = true ∧
    ((w.extractLsb' 0 2 = 0b11#2 ∧ i.size = 4 ∧ encode i = w) ∨
     (w.extractLsb' 0 2 ≠ 0b11#2 ∧ i.size = 2 ∧ (encode i).extractLsb' 0 16 = w.extractLsb' 0 16))

/-- R91: of a compressed instruction the high half of the fetch word is ignored. -/
def Obligations.CompressedHighHalfIgnored : Prop :=
  ∀ w w' : BitVec 32, w.extractLsb' 0 16 = w'.extractLsb' 0 16 → w.extractLsb' 0 2 ≠ 0b11#2 → decode w = decode w'

/-- Words written out in examples of spec/ decode to the instructions they stand for (the numbers are the spec's
decisions D28 and D29). -/
def Obligations.SampleWords : Prop :=
  decode 0x123452B7#32 = .ok (.lui 5 0x12345#20) ∧
  decode 0x008000EF#32 = .ok (.jal 1 8#21) ∧
  decode 0xFE029EE3#32 = .ok (.bne 5 0 (-4)) ∧
  decode 0xFFF30283#32 = .ok (.lb 5 6 (-1)) ∧
  decode 0xFE732E23#32 = .ok (.sw 6 7 (-4)) ∧
  decode 0x40435293#32 = .ok (.srai 5 6 4#5) ∧
  decode 0x0262C3B3#32 = .ok (.div 7 5 6) ∧
  decode 0x087322AF#32 = .ok (.amoswapW 5 6 7 0#1 0#1) ∧
  decode 0x007312F3#32 = .ok (.csrrw 5 6 7 0#7) ∧
  decode 0x00007139#32 = .ok (.cAddi16sp (-64))

/-- R97, R392: a standard word whose primary opcode is not one of the thirteen stops the step with
`FATAL_DECODE_OPCODE`, before any state but that of the fetch changes; a recognised opcode never does. The thirteen
numbers (R96) are the spec's decision D28. -/
def Obligations.UnknownOpcodeIsFatal : Prop :=
  (∀ (s s1 : State) (w : BitVec 32), s.halted = none → s.fetch = (.ok w, s1) → w.extractLsb' 0 2 = 0b11#2 →
    w.extractLsb' 0 7 ∉ primaryOpcodes →
    ∃ t, step s = .next t ∧ State.Raised s t (.decodeOpcode (w.extractLsb' 0 7) w) ∧ t.bus = s1.bus) ∧
  (∀ (w v : BitVec 32) (op : BitVec 7), decode w = .error (.unknownOpcode op v) →
    w.extractLsb' 0 2 = 0b11#2 ∧ w.extractLsb' 0 7 ∉ primaryOpcodes ∧ op = w.extractLsb' 0 7 ∧ v = w)

/-- R118, R393, R347, R375: the halfwords that are no instruction are exactly those of the list; each of them, and
c.slli64, stops the step with `FATAL_DECODE_COMPRESSED`. Layouts and reserved forms are the spec's decisions D13,
D29, D30 and D31. -/
def Obligations.IllegalCompressedIsFatal : Prop :=
  (∀ (s s1 : State) (w : BitVec 32), s.halted = none → s.fetch = (.ok w, s1) → w.extractLsb' 0 2 ≠ 0b11#2 →
    illegalHalf (w.extractLsb' 0 16) ∨ slli64Pattern (w.extractLsb' 0 16) →
    ∃ t, step s = .next t ∧ State.Raised s t (.decodeCompressed (w.extractLsb' 0 16)) ∧ t.bus = s1.bus) ∧
  (∀ (w : BitVec 32) (c : BitVec 16),
    decode w = .error (.illegalCompressed c) ↔
      w.extractLsb' 0 2 ≠ 0b11#2 ∧ c = w.extractLsb' 0 16 ∧ illegalHalf c)

/-- R114, R394, R299, R314: a recognised opcode whose second-level fields are not listed stops the step with
`FATAL_DISPATCH` before the instruction changes any state; a listed one is an instruction. The list is the spec's
decisions D13, D16, D17, D22 to D24, D27 and D28. -/
def Obligations.UnlistedFieldsAreFatal : Prop :=
  (∀ (s s1 : State) (w : BitVec 32), s.halted = none → s.fetch = (.ok w, s1) →
    w.extractLsb' 0 7 ∈ primaryOpcodes → ¬ listedFields w →
    ∃ t, step s = .next t ∧ State.Raised s t (.dispatch (w.extractLsb' 0 7) w) ∧ t.bus = s1.bus) ∧
  (∀ w : BitVec 32, w.extractLsb' 0 7 ∈ primaryOpcodes → listedFields w → ∃ i, decode w = .ok i)

/-! ## The step -/

/-- A step of a machine that is not halted runs the instruction that the decoder reads from the four bytes at `pc`. The
first part is for any fetch (a fetch from a UART changes the device); the second for four bytes in RAM or ROM, which the
fetch leaves as they are. -/
def Obligations.StepRunsDecodedInstruction : Prop :=
  (∀ (s s1 : State) (w : BitVec 32) (i : Instr), s.halted = none → s.fetch = (.ok w, s1) → decode w = .ok i →
    step s = exec i s1) ∧
  (∀ (s : State) (b0 b1 b2 b3 : Byte) (i : Instr), s.halted = none → s.holdsBytes s.pc [b0, b1, b2, b3] →
    decode (b3 ++ b2 ++ b1 ++ b0) = .ok i → step s = exec i s)

/-- R141: a fatal error of the fetch, always a four-byte read at `pc`, ends the step; at an address of no range it is
`FATAL_ADDRESS` of `pc`. -/
def Obligations.FetchErrorEndsStep : Prop :=
  (∀ (s s1 : State) (f : Fatal), s.halted = none → s.memRead s.pc 4 = (.error f, s1) →
    ∃ t, step s = .next t ∧ State.Raised s t f ∧ t.bus = s1.bus) ∧
  (∀ s : State, s.halted = none → Bus.lookup s.pc s.bus = none →
    ∃ t, step s = .next t ∧ State.Raised s t (.address s.pc) ∧ t.bus = s.bus)

/-- While `halted` is set no number of step requests changes any state (R140, the spec's decision D39). -/
def Obligations.HaltedMachineStands : Prop :=
  ∀ (s : State) (n : Nat), s.halted ≠ none → State.after n s = .next s

/-- No step and no instruction ends in a fault or a refusal of the model: every outcome is a next state, a fatal error too
(log entry 1). -/
def Obligations.EveryStepAnswersNext : Prop :=
  (∀ s : State, ∃ t, step s = .next t) ∧ (∀ (i : Instr) (s : State), ∃ t, exec i s = .next t)

/-- A step that ends in a fatal error leaves `pc`, every register cell, every CSR, the configuration, the ROMs and
the region table as they were, and records the address of the failing instruction; a fatal error is recorded once
(R147, R150, R409; the spec's decisions D12 and D39). -/
def Obligations.FatalErrorIsPrecise : Prop :=
  ∀ (s t : State) (r : HaltRecord), s.halted = none → step s = .next t → t.halted = some r →
    State.Raised s t r.fatal ∧ Bus.romContents t.bus = Bus.romContents s.bus ∧ Bus.shape t.bus = Bus.shape s.bus ∧
    step t = .next t

/-- A step without a fatal error executed one instruction: the cell of `x0` holds 0, and unless the instruction is a
jump or a branch `pc` has advanced by the length of its encoding, 2 or 4 (R144, R149). -/
def Obligations.CompletedStepAdvances : Prop :=
  ∀ s t : State, s.halted = none → step s = .next t → t.halted = none →
    t.regs[0] = 0 ∧ ∃ w i, s.fetch.1 = .ok w ∧ decode w = .ok i ∧
      (i.mayRedirect = false → t.pc = s.pc + BitVec.ofNat 64 i.size)

/-! ## Rules of the whole machine -/

/-- An instruction changes no register but the one its rule names. -/
def Obligations.OnlyDestinationChanges : Prop :=
  ∀ (i : Instr) (s t : State), exec i s = .next t → ∀ r : Reg, i.dest ≠ some r → t.getX r = s.getX r

/-- CSR cells are written by the six CSR instructions and by nothing else, and no other instruction depends on one. -/
def Obligations.CsrsBelongToCsrInstructions : Prop :=
  ∀ (i : Instr) (s t : State), i.usesCsr = false → exec i s = .next t →
    t.csr = s.csr ∧ ∀ c : Cells 64, exec i { s with csr := c } = .next { t with csr := c }

/-- Memory is written by the stores, SC and AMOSWAP, at the bytes of their access only; by every other instruction, and
by the fetch, no byte of RAM or ROM changes. A store or a fetch touches no UART but the one its address is routed to. -/
def Obligations.OnlyStoresWriteMemory : Prop :=
  (∀ (i : Instr) (s t : State), exec i s = .next t → i.storeSpan s = none → State.KeptMemory s t) ∧
  (∀ (i : Instr) (s t : State) (a : Word) (n : Nat), exec i s = .next t → i.storeSpan s = some (a, n) →
    State.KeptOutside s t a n) ∧
  (∀ s : State, State.KeptMemory s s.fetch.2 ∧ State.TouchedOnly s s.fetch.2 s.pc)

/-- ROM bytes, the region table and the configuration never change during execution. -/
def Obligations.RomAndTableNeverChange : Prop :=
  ∀ (n : Nat) (s t : State), State.after n s = .next t →
    Bus.romContents t.bus = Bus.romContents s.bus ∧ Bus.shape t.bus = Bus.shape s.bus ∧ t.cfg = s.cfg

/-- Every step keeps the invariant: the cell of `x0` is 0, the CSR file has its 4096 cells and the canonical form, the
buffers are canonical and inside their sizes, the UART queues bounded, the region table the configured one. -/
def Obligations.StepKeepsInvariant : Prop :=
  ∀ s t : State, s.Inv → step s = .next t → t.Inv

/-- The state after reset has the invariant, for every configuration, and the host's operations keep it (the zeros
are the spec's decision D5; the configuration of `State.reset` is the model's choice, log entries 3 and 4). -/
def Obligations.ResetHasInvariant : Prop :=
  State.reset.Inv ∧ (∀ cfg : Config, (State.resetFor cfg).Inv) ∧ (∀ s : State, s.hostReset.Inv) ∧
  (∀ (s : State) (b : Byte), s.Inv → (s.uartReceive b).Inv)

/-! ## LUI and AUIPC, jumps and branches -/

/-- R160, R161. The two opcode numbers are the spec's decision D28. -/
def Obligations.UpperImmediateResults : Prop :=
  ∀ (rd : Reg) (imm : BitVec 20),
    (decode (imm ++ rd ++ 0b0110111#7) = .ok (.lui rd imm) ∧
      ∀ s, WritesResult (.lui rd imm) s rd (0#32 ++ imm ++ 0#12) (s.pc + 4)) ∧
    (decode (imm ++ rd ++ 0b0010111#7) = .ok (.auipc rd imm) ∧
      ∀ s, WritesResult (.auipc rd imm) s rd (s.pc + (imm.signExtend 64 <<< 12)) (s.pc + 4))

/-- R170, R172, R174: link and target of JAL and JALR. `k` is `imm[20:1]` of JAL. The sign extension of JAL is from
`JAL_SEXT_BITS` (the spec's decision D2): 21 by default, and 20 gives the same target where bits 20 and 19 agree. That
JALR does not clear bit 0 is its decision D3, the opcode numbers its decision D28. -/
def Obligations.JumpResults : Prop :=
  (∀ (rd : Reg) (k : BitVec 20),
    decode (k.extractLsb' 19 1 ++ k.extractLsb' 0 10 ++ k.extractLsb' 10 1 ++ k.extractLsb' 11 8 ++ rd ++ 0b1101111#7)
      = .ok (.jal rd (k ++ 0#1)) ∧
    ∀ s : State,
      WritesResult (.jal rd (k ++ 0#1)) s rd (s.pc + 4) (s.pc + sext s.cfg.jalSextBits (k ++ 0#1)) ∧
      (s.cfg.jalSextBits = 21 →
        WritesResult (.jal rd (k ++ 0#1)) s rd (s.pc + 4) (s.pc + (k ++ 0#1).signExtend 64)) ∧
      (s.cfg.jalSextBits = 20 → k.extractLsb' 19 1 = k.extractLsb' 18 1 →
        WritesResult (.jal rd (k ++ 0#1)) s rd (s.pc + 4) (s.pc + (k ++ 0#1).signExtend 64))) ∧
  (∀ (rd rs1 : Reg) (imm : BitVec 12),
    decode (imm ++ rs1 ++ 0b000#3 ++ rd ++ 0b1100111#7) = .ok (.jalr rd rs1 imm) ∧
    ∀ s, WritesResult (.jalr rd rs1 imm) s rd (s.pc + 4) (s.getX rs1 + imm.signExtend 64))

/-- R176 to R181: each branch is taken exactly when its condition holds, and writes no register either way. `k` is
`imm[12:1]`. The opcode numbers are the spec's decision D28. -/
def Obligations.BranchResults : Prop :=
  ∀ (rs1 rs2 : Reg) (k : BitVec 12),
    let word := fun f3 : BitVec 3 =>
      k.extractLsb' 11 1 ++ k.extractLsb' 4 6 ++ rs2 ++ rs1 ++ f3 ++ k.extractLsb' 0 4 ++ k.extractLsb' 10 1 ++ 0b1100011#7
    let moves := fun (i : Instr) (cond : Word → Word → Prop) => ∀ s : State,
      (cond (s.getX rs1) (s.getX rs2) → OnlyMoves i s (s.pc + (k ++ 0#1).signExtend 64)) ∧
      (¬ cond (s.getX rs1) (s.getX rs2) → OnlyMoves i s (s.pc + 4))
    (decode (word 0b000#3) = .ok (.beq rs1 rs2 (k ++ 0#1)) ∧ moves (.beq rs1 rs2 (k ++ 0#1)) fun a b => a = b) ∧
    (decode (word 0b001#3) = .ok (.bne rs1 rs2 (k ++ 0#1)) ∧ moves (.bne rs1 rs2 (k ++ 0#1)) fun a b => a ≠ b) ∧
    (decode (word 0b100#3) = .ok (.blt rs1 rs2 (k ++ 0#1)) ∧
      moves (.blt rs1 rs2 (k ++ 0#1)) fun a b => a.toInt < b.toInt) ∧
    (decode (word 0b101#3) = .ok (.bge rs1 rs2 (k ++ 0#1)) ∧
      moves (.bge rs1 rs2 (k ++ 0#1)) fun a b => b.toInt ≤ a.toInt) ∧
    (decode (word 0b110#3) = .ok (.bltu rs1 rs2 (k ++ 0#1)) ∧
      moves (.bltu rs1 rs2 (k ++ 0#1)) fun a b => a.toNat < b.toNat) ∧
    (decode (word 0b111#3) = .ok (.bgeu rs1 rs2 (k ++ 0#1)) ∧
      moves (.bgeu rs1 rs2 (k ++ 0#1)) fun a b => b.toNat ≤ a.toNat)

/-! ## Loads, stores and atomics -/

/-- R192 to R195: LB, LH, LW and LD. The opcode numbers are the spec's decision D28. -/
def Obligations.SignedLoadResults : Prop :=
  ∀ (rd rs1 : Reg) (imm : BitVec 12),
    let word := fun f3 : BitVec 3 => imm ++ rs1 ++ f3 ++ rd ++ 0b0000011#7
    let loads := fun (i : Instr) (n : Nat) (view : Word → Word) => ∀ s : State,
      Loads i s n view rd (s.getX rs1 + imm.signExtend 64) (s.pc + 4)
    (decode (word 0b000#3) = .ok (.lb rd rs1 imm) ∧ loads (.lb rd rs1 imm) 1 fun v => (v.setWidth 8).signExtend 64) ∧
    (decode (word 0b001#3) = .ok (.lh rd rs1 imm) ∧ loads (.lh rd rs1 imm) 2 fun v => (v.setWidth 16).signExtend 64) ∧
    (decode (word 0b010#3) = .ok (.lw rd rs1 imm) ∧ loads (.lw rd rs1 imm) 4 fun v => (v.setWidth 32).signExtend 64) ∧
    (decode (word 0b011#3) = .ok (.ld rd rs1 imm) ∧ loads (.ld rd rs1 imm) 8 fun v => v)

/-- R196 to R198: LBU, LHU and LWU. That zero extension keeps the low bits whole is the spec's decision D1; the opcode
numbers are its decision D28. -/
def Obligations.UnsignedLoadResults : Prop :=
  ∀ (rd rs1 : Reg) (imm : BitVec 12),
    let word := fun f3 : BitVec 3 => imm ++ rs1 ++ f3 ++ rd ++ 0b0000011#7
    let loads := fun (i : Instr) (n : Nat) (view : Word → Word) => ∀ s : State,
      Loads i s n view rd (s.getX rs1 + imm.signExtend 64) (s.pc + 4)
    (decode (word 0b100#3) = .ok (.lbu rd rs1 imm) ∧ loads (.lbu rd rs1 imm) 1 fun v => (v.setWidth 8).setWidth 64) ∧
    (decode (word 0b101#3) = .ok (.lhu rd rs1 imm) ∧ loads (.lhu rd rs1 imm) 2 fun v => (v.setWidth 16).setWidth 64) ∧
    (decode (word 0b110#3) = .ok (.lwu rd rs1 imm) ∧ loads (.lwu rd rs1 imm) 4 fun v => (v.setWidth 32).setWidth 64)

/-- R199 to R202. `imm` is split as the S format has it; the opcode numbers are the spec's decision D28. -/
def Obligations.StoreResults : Prop :=
  ∀ (rs1 rs2 : Reg) (imm : BitVec 12),
    let word := fun f3 : BitVec 3 => imm.extractLsb' 5 7 ++ rs2 ++ rs1 ++ f3 ++ imm.extractLsb' 0 5 ++ 0b0100011#7
    let stores := fun (i : Instr) (n : Nat) => ∀ s : State,
      Stores i s n (s.getX rs1 + imm.signExtend 64) (s.getX rs2) none (s.pc + 4)
    (decode (word 0b000#3) = .ok (.sb rs1 rs2 imm) ∧ stores (.sb rs1 rs2 imm) 1) ∧
    (decode (word 0b001#3) = .ok (.sh rs1 rs2 imm) ∧ stores (.sh rs1 rs2 imm) 2) ∧
    (decode (word 0b010#3) = .ok (.sw rs1 rs2 imm) ∧ stores (.sw rs1 rs2 imm) 4) ∧
    (decode (word 0b011#3) = .ok (.sd rs1 rs2 imm) ∧ stores (.sd rs1 rs2 imm) 8)

/-- R291, R292: LR is the load with no displacement, whatever `aq`, `rl` and the `rs2` field hold (the spec's decision D20;
the opcode numbers are its decision D28). -/
def Obligations.LoadReservedResults : Prop :=
  ∀ (rd rs1 rs2 : Reg) (aq rl : BitVec 1),
    (decode (0b00010#5 ++ aq ++ rl ++ rs2 ++ rs1 ++ 0b010#3 ++ rd ++ 0b0101111#7) = .ok (.lrW rd rs1 rs2 aq rl) ∧
      (∀ s, Loads (.lrW rd rs1 rs2 aq rl) s 4 (fun v => (v.setWidth 32).signExtend 64) rd (s.getX rs1) (s.pc + 4)) ∧
      (∀ s, exec (.lrW rd rs1 rs2 aq rl) s = exec (.lw rd rs1 0) s)) ∧
    (decode (0b00010#5 ++ aq ++ rl ++ rs2 ++ rs1 ++ 0b011#3 ++ rd ++ 0b0101111#7) = .ok (.lrD rd rs1 rs2 aq rl) ∧
      (∀ s, Loads (.lrD rd rs1 rs2 aq rl) s 8 (fun v => v) rd (s.getX rs1) (s.pc + 4)))

/-- R294, R296: SC stores whatever happened before it, then writes `SC_RD_RESULT`, 0 in the default configuration (the
spec's decision D21; the opcode numbers are its decision D28). -/
def Obligations.StoreConditionalResults : Prop :=
  Config.default.scRdResult = 0 ∧
  ∀ (rd rs1 rs2 : Reg) (aq rl : BitVec 1),
    (decode (0b00011#5 ++ aq ++ rl ++ rs2 ++ rs1 ++ 0b010#3 ++ rd ++ 0b0101111#7) = .ok (.scW rd rs1 rs2 aq rl) ∧
      ∀ s, Stores (.scW rd rs1 rs2 aq rl) s 4 (s.getX rs1) (s.getX rs2) (some (rd, s.cfg.scRdResult)) (s.pc + 4)) ∧
    (decode (0b00011#5 ++ aq ++ rl ++ rs2 ++ rs1 ++ 0b011#3 ++ rd ++ 0b0101111#7) = .ok (.scD rd rs1 rs2 aq rl) ∧
      ∀ s, Stores (.scD rd rs1 rs2 aq rl) s 8 (s.getX rs1) (s.getX rs2) (some (rd, s.cfg.scRdResult)) (s.pc + 4))

/-- R297, R298: AMOSWAP reads, then writes at the same address, then writes the old value to `rd`. In RAM it swaps; a
failing read leaves memory as the read left it, a failing write leaves `rd` unwritten, as in a ROM (the spec's decisions D4
and D20; the opcode numbers are its decision D28). -/
def Obligations.AmoswapResults : Prop :=
  ∀ (rd rs1 rs2 : Reg) (aq rl : BitVec 1),
    let word := fun f3 : BitVec 3 => 0b00001#5 ++ aq ++ rl ++ rs2 ++ rs1 ++ f3 ++ rd ++ 0b0101111#7
    let swaps := fun (i : Instr) (n : Nat) (view : Word → Word) => ∀ s : State,
      (∀ t s1 s2, s.memRead (s.getX rs1) n = (.ok t, s1) → s1.memWrite (s.getX rs1) n (s.getX rs2) = (.ok (), s2) →
        ∃ u, exec i s = .next u ∧ State.Wrote s u rd (view t) ∧ State.Reached s u (s.pc + 4) ∧ u.bus = s2.bus ∧
          State.KeptOutside s u (s.getX rs1) n) ∧
      (∀ bs, bs.length = n → s.inRam (s.getX rs1) n → s.holdsBytes (s.getX rs1) bs →
        ∃ u, exec i s = .next u ∧ State.Wrote s u rd (view (leValue bs)) ∧ State.Reached s u (s.pc + 4) ∧
          State.KeptOutside s u (s.getX rs1) n ∧
          (Bus.wf s.bus = true → u.holdsBytes (s.getX rs1) (leBytes n (s.getX rs2)))) ∧
      (∀ f s1, s.memRead (s.getX rs1) n = (.error f, s1) → StopsWith i s f s1) ∧
      (∀ t f s1 s2, s.memRead (s.getX rs1) n = (.ok t, s1) →
        s1.memWrite (s.getX rs1) n (s.getX rs2) = (.error f, s2) → StopsWith i s f s2) ∧
      (∀ bs, bs.length = n → s.inRom (s.getX rs1) → s.holdsBytes (s.getX rs1) bs →
        StopsWith i s (.romWrite (s.getX rs1)) s)
    (decode (word 0b010#3) = .ok (.amoswapW rd rs1 rs2 aq rl) ∧
      swaps (.amoswapW rd rs1 rs2 aq rl) 4 fun v => (v.setWidth 32).signExtend 64) ∧
    (decode (word 0b011#3) = .ok (.amoswapD rd rs1 rs2 aq rl) ∧ swaps (.amoswapD rd rs1 rs2 aq rl) 8 fun v => v)

/-- R147, which the spec derives, and R191: a fatal error of the access of a load, a store, an LR or an SC ends the
instruction with no register written. -/
def Obligations.FailedAccessWritesNoRegister : Prop :=
  ∀ (s s1 : State) (f : Fatal) (rd rs1 rs2 : Reg) (imm : BitVec 12) (aq rl : BitVec 1),
    let ea := s.getX rs1 + imm.signExtend 64
    (s.memRead ea 1 = (.error f, s1) → StopsWith (.lb rd rs1 imm) s f s1 ∧ StopsWith (.lbu rd rs1 imm) s f s1) ∧
    (s.memRead ea 2 = (.error f, s1) → StopsWith (.lh rd rs1 imm) s f s1 ∧ StopsWith (.lhu rd rs1 imm) s f s1) ∧
    (s.memRead ea 4 = (.error f, s1) → StopsWith (.lw rd rs1 imm) s f s1 ∧ StopsWith (.lwu rd rs1 imm) s f s1) ∧
    (s.memRead ea 8 = (.error f, s1) → StopsWith (.ld rd rs1 imm) s f s1) ∧
    (s.memWrite ea 1 (s.getX rs2) = (.error f, s1) → StopsWith (.sb rs1 rs2 imm) s f s1) ∧
    (s.memWrite ea 2 (s.getX rs2) = (.error f, s1) → StopsWith (.sh rs1 rs2 imm) s f s1) ∧
    (s.memWrite ea 4 (s.getX rs2) = (.error f, s1) → StopsWith (.sw rs1 rs2 imm) s f s1) ∧
    (s.memWrite ea 8 (s.getX rs2) = (.error f, s1) → StopsWith (.sd rs1 rs2 imm) s f s1) ∧
    (s.memRead (s.getX rs1) 4 = (.error f, s1) → StopsWith (.lrW rd rs1 rs2 aq rl) s f s1) ∧
    (s.memRead (s.getX rs1) 8 = (.error f, s1) → StopsWith (.lrD rd rs1 rs2 aq rl) s f s1) ∧
    (s.memWrite (s.getX rs1) 4 (s.getX rs2) = (.error f, s1) → StopsWith (.scW rd rs1 rs2 aq rl) s f s1) ∧
    (s.memWrite (s.getX rs1) 8 (s.getX rs2) = (.error f, s1) → StopsWith (.scD rd rs1 rs2 aq rl) s f s1)

/-! ## ALU -/

/-- R221 to R226, with the frame of R220. SLTIU extends its immediate as `SLTIU_IMM_EXT` says, the default by sign. Which
immediates are sign-extended is the spec's decision D15, the opcode numbers its decision D28. -/
def Obligations.AluImmediateResults : Prop :=
  ∀ (rd rs1 : Reg) (imm : BitVec 12),
    let word := fun f3 : BitVec 3 => imm ++ rs1 ++ f3 ++ rd ++ 0b0010011#7
    let writes := fun (i : Instr) (f : Word → Word → Word) => ∀ s : State,
      WritesResult i s rd (f (s.getX rs1) (imm.signExtend 64)) (s.pc + 4)
    (decode (word 0b000#3) = .ok (.addi rd rs1 imm) ∧ writes (.addi rd rs1 imm) fun a b => a + b) ∧
    (decode (word 0b010#3) = .ok (.slti rd rs1 imm) ∧
      writes (.slti rd rs1 imm) fun a b => if a.toInt < b.toInt then 1 else 0) ∧
    (decode (word 0b011#3) = .ok (.sltiu rd rs1 imm) ∧ ∀ s : State,
      (s.cfg.sltiuImmExt = .sext →
        WritesResult (.sltiu rd rs1 imm) s rd (if (s.getX rs1).toNat < (imm.signExtend 64).toNat then 1 else 0)
          (s.pc + 4)) ∧
      (s.cfg.sltiuImmExt = .zext →
        WritesResult (.sltiu rd rs1 imm) s rd (if (s.getX rs1).toNat < imm.toNat then 1 else 0) (s.pc + 4))) ∧
    (decode (word 0b100#3) = .ok (.xori rd rs1 imm) ∧ writes (.xori rd rs1 imm) fun a b => a ^^^ b) ∧
    (decode (word 0b110#3) = .ok (.ori rd rs1 imm) ∧ writes (.ori rd rs1 imm) fun a b => a ||| b) ∧
    (decode (word 0b111#3) = .ok (.andi rd rs1 imm) ∧ writes (.andi rd rs1 imm) fun a b => a &&& b)

/-- R230, R231, R233: the immediate shifts, by 0 to 31 places. The opcode numbers are the spec's decision D28. -/
def Obligations.ShiftImmediateResults : Prop :=
  ∀ (rd rs1 : Reg) (shamt : BitVec 5),
    let word := fun (f7 : BitVec 7) (f3 : BitVec 3) => f7 ++ shamt ++ rs1 ++ f3 ++ rd ++ 0b0010011#7
    let writes := fun (i : Instr) (f : Word → Word) => ∀ s : State,
      WritesResult i s rd (f (s.getX rs1)) (s.pc + 4)
    (decode (word 0b0000000#7 0b001#3) = .ok (.slli rd rs1 shamt) ∧
      writes (.slli rd rs1 shamt) fun a => BitVec.ofNat 64 (a.toNat * 2 ^ shamt.toNat)) ∧
    (decode (word 0b0000000#7 0b101#3) = .ok (.srli rd rs1 shamt) ∧
      writes (.srli rd rs1 shamt) fun a => BitVec.ofNat 64 (a.toNat / 2 ^ shamt.toNat)) ∧
    (decode (word 0b0100000#7 0b101#3) = .ok (.srai rd rs1 shamt) ∧
      writes (.srai rd rs1 shamt) fun a => BitVec.ofInt 64 (a.toInt / 2 ^ shamt.toNat))

/-- R241 to R244, with the frame of R240: the low word of `rs1`, sign-extended, is the operand, and the low word of the
result, sign-extended, is written. SRLIW shifts the sign-extended operand and so equals SRAIW. All four are the spec's
decision D16, the opcode numbers its decision D28. -/
def Obligations.WordFormResults : Prop :=
  (∀ (rd rs1 : Reg) (imm : BitVec 12),
    decode (imm ++ rs1 ++ 0b000#3 ++ rd ++ 0b0011011#7) = .ok (.addiw rd rs1 imm) ∧
    ∀ s : State, WritesResult (.addiw rd rs1 imm) s rd
      (((s.getX rs1).setWidth 32 + imm.signExtend 32).signExtend 64) (s.pc + 4)) ∧
  (∀ (rd rs1 : Reg) (shamt : BitVec 5),
    let word := fun (f7 : BitVec 7) (f3 : BitVec 3) => f7 ++ shamt ++ rs1 ++ f3 ++ rd ++ 0b0011011#7
    (decode (word 0b0000000#7 0b001#3) = .ok (.slliw rd rs1 shamt) ∧
      ∀ s : State, WritesResult (.slliw rd rs1 shamt) s rd
        (((s.getX rs1).setWidth 32 <<< shamt.toNat).signExtend 64) (s.pc + 4)) ∧
    (decode (word 0b0000000#7 0b101#3) = .ok (.srliw rd rs1 shamt) ∧
      ∀ s : State, WritesResult (.srliw rd rs1 shamt) s rd
        ((((((s.getX rs1).setWidth 32).signExtend 64) >>> shamt.toNat).setWidth 32).signExtend 64) (s.pc + 4)) ∧
    (decode (word 0b0100000#7 0b101#3) = .ok (.sraiw rd rs1 shamt) ∧
      ∀ s : State, WritesResult (.sraiw rd rs1 shamt) s rd
        (BitVec.ofInt 64 (((s.getX rs1).setWidth 32).toInt / 2 ^ shamt.toNat)) (s.pc + 4)) ∧
    (∀ s : State, exec (.srliw rd rs1 shamt) s = exec (.sraiw rd rs1 shamt) s))

/-- R251, R252, R255 to R257, R260, R261: the register forms that are no shift. The opcode numbers are the spec's
decision D28. -/
def Obligations.AluRegisterResults : Prop :=
  ∀ rd rs1 rs2 : Reg,
    let word := fun (f7 : BitVec 7) (f3 : BitVec 3) => f7 ++ rs2 ++ rs1 ++ f3 ++ rd ++ 0b0110011#7
    let writes := fun (i : Instr) (f : Word → Word → Word) => ∀ s : State,
      WritesResult i s rd (f (s.getX rs1) (s.getX rs2)) (s.pc + 4)
    (decode (word 0b0000000#7 0b000#3) = .ok (.add rd rs1 rs2) ∧ writes (.add rd rs1 rs2) fun a b => a + b) ∧
    (decode (word 0b0100000#7 0b000#3) = .ok (.sub rd rs1 rs2) ∧ writes (.sub rd rs1 rs2) fun a b => a - b) ∧
    (decode (word 0b0000000#7 0b010#3) = .ok (.slt rd rs1 rs2) ∧
      writes (.slt rd rs1 rs2) fun a b => if a.toInt < b.toInt then 1 else 0) ∧
    (decode (word 0b0000000#7 0b011#3) = .ok (.sltu rd rs1 rs2) ∧
      writes (.sltu rd rs1 rs2) fun a b => if a.toNat < b.toNat then 1 else 0) ∧
    (decode (word 0b0000000#7 0b100#3) = .ok (.xor rd rs1 rs2) ∧ writes (.xor rd rs1 rs2) fun a b => a ^^^ b) ∧
    (decode (word 0b0000000#7 0b110#3) = .ok (.or rd rs1 rs2) ∧ writes (.or rd rs1 rs2) fun a b => a ||| b) ∧
    (decode (word 0b0000000#7 0b111#3) = .ok (.and rd rs1 rs2) ∧ writes (.and rd rs1 rs2) fun a b => a &&& b)

/-- R253, R258, R259: the register shifts. That the amount is the low six bits of `rs2` (R254) is the spec's decision D14;
the opcode numbers are its decision D28. -/
def Obligations.RegisterShiftResults : Prop :=
  ∀ rd rs1 rs2 : Reg,
    let word := fun (f7 : BitVec 7) (f3 : BitVec 3) => f7 ++ rs2 ++ rs1 ++ f3 ++ rd ++ 0b0110011#7
    let writes := fun (i : Instr) (f : Word → Word → Word) => ∀ s : State,
      WritesResult i s rd (f (s.getX rs1) (s.getX rs2)) (s.pc + 4)
    (decode (word 0b0000000#7 0b001#3) = .ok (.sll rd rs1 rs2) ∧
      writes (.sll rd rs1 rs2) fun a b => BitVec.ofNat 64 (a.toNat * 2 ^ (b.toNat % 64))) ∧
    (decode (word 0b0000000#7 0b101#3) = .ok (.srl rd rs1 rs2) ∧
      writes (.srl rd rs1 rs2) fun a b => BitVec.ofNat 64 (a.toNat / 2 ^ (b.toNat % 64))) ∧
    (decode (word 0b0100000#7 0b101#3) = .ok (.sra rd rs1 rs2) ∧
      writes (.sra rd rs1 rs2) fun a b => BitVec.ofInt 64 (a.toInt / 2 ^ (b.toNat % 64)))

/-- R271 to R274: the low and high halves of exact products. Which operands are signed is the spec's decision D19; the
opcode numbers are its decision D28. -/
def Obligations.MultiplyResults : Prop :=
  ∀ rd rs1 rs2 : Reg,
    let word := fun f3 : BitVec 3 => 0b0000001#7 ++ rs2 ++ rs1 ++ f3 ++ rd ++ 0b0110011#7
    let writes := fun (i : Instr) (f : Word → Word → Word) => ∀ s : State,
      WritesResult i s rd (f (s.getX rs1) (s.getX rs2)) (s.pc + 4)
    (decode (word 0b000#3) = .ok (.mul rd rs1 rs2) ∧ writes (.mul rd rs1 rs2) (fun a b => a * b) ∧
      writes (.mul rd rs1 rs2) fun a b => BitVec.ofInt 64 (a.toInt * b.toInt)) ∧
    (decode (word 0b001#3) = .ok (.mulh rd rs1 rs2) ∧
      writes (.mulh rd rs1 rs2) fun a b => (a.signExtend 128 * b.signExtend 128).extractLsb' 64 64) ∧
    (decode (word 0b010#3) = .ok (.mulhsu rd rs1 rs2) ∧
      writes (.mulhsu rd rs1 rs2) fun a b => (a.signExtend 128 * b.setWidth 128).extractLsb' 64 64) ∧
    (decode (word 0b011#3) = .ok (.mulhu rd rs1 rs2) ∧
      writes (.mulhu rd rs1 rs2) fun a b => (a.setWidth 128 * b.setWidth 128).extractLsb' 64 64)

/-- R275 to R278: a zero divisor gives 0 and no fault; the overflow pair wraps; otherwise the quotient is rounded toward
zero and the remainder has the sign of the dividend (the spec's decision D18; the opcode numbers are its decision D28). -/
def Obligations.DivideResults : Prop :=
  ∀ rd rs1 rs2 : Reg,
    let word := fun f3 : BitVec 3 => 0b0000001#7 ++ rs2 ++ rs1 ++ f3 ++ rd ++ 0b0110011#7
    let writes := fun (i : Instr) (f : Word → Word → Word) => ∀ s : State,
      WritesResult i s rd (f (s.getX rs1) (s.getX rs2)) (s.pc + 4)
    (decode (word 0b100#3) = .ok (.div rd rs1 rs2) ∧
      writes (.div rd rs1 rs2) fun a b => if b = 0 then 0 else BitVec.ofInt 64 (a.toInt.tdiv b.toInt)) ∧
    (decode (word 0b101#3) = .ok (.divu rd rs1 rs2) ∧
      writes (.divu rd rs1 rs2) fun a b => if b = 0 then 0 else BitVec.ofNat 64 (a.toNat / b.toNat)) ∧
    (decode (word 0b110#3) = .ok (.rem rd rs1 rs2) ∧
      writes (.rem rd rs1 rs2) fun a b => if b = 0 then 0 else BitVec.ofInt 64 (a.toInt.tmod b.toInt)) ∧
    (decode (word 0b111#3) = .ok (.remu rd rs1 rs2) ∧
      writes (.remu rd rs1 rs2) fun a b => if b = 0 then 0 else BitVec.ofNat 64 (a.toNat % b.toNat)) ∧
    (∀ s, s.getX rs1 = 0x8000000000000000#64 → s.getX rs2 = 0xFFFFFFFFFFFFFFFF#64 →
      WritesResult (.div rd rs1 rs2) s rd 0x8000000000000000#64 (s.pc + 4) ∧
      WritesResult (.rem rd rs1 rs2) s rd 0 (s.pc + 4))

/-- R279, which the spec derives: quotient and remainder of the same operands recombine exactly when the divisor is
not 0, or the dividend is. -/
def Obligations.DivisionIdentity : Prop :=
  ∀ (s sq sr : State) (q r rs1 rs2 : Reg), q ≠ 0 → r ≠ 0 →
    ((exec (.div q rs1 rs2) s = .next sq → exec (.rem r rs1 rs2) s = .next sr →
      (s.getX rs1 = s.getX rs2 * sq.getX q + sr.getX r ↔ s.getX rs2 ≠ 0 ∨ s.getX rs1 = 0)) ∧
     (exec (.divu q rs1 rs2) s = .next sq → exec (.remu r rs1 rs2) s = .next sr →
      (s.getX rs1 = s.getX rs2 * sq.getX q + sr.getX r ↔ s.getX rs2 ≠ 0 ∨ s.getX rs1 = 0)))

/-! ## FENCE, SYSTEM and the CSR file -/

/-- R310 to R313, R370: FENCE with any bits, ECALL, EBREAK and c.ebreak do nothing but advance. Which words these are is
the spec's decisions D23, D24 and D28. -/
def Obligations.NoOpResults : Prop :=
  (∀ bits : BitVec 25, decode (bits ++ 0b0001111#7) = .ok (.fence bits) ∧
    ∀ s, OnlyMoves (.fence bits) s (s.pc + 4)) ∧
  (decode 0x00000073#32 = .ok .ecall ∧ ∀ s, OnlyMoves .ecall s (s.pc + 4)) ∧
  (decode 0x00100073#32 = .ok .ebreak ∧ ∀ s, OnlyMoves .ebreak s (s.pc + 4)) ∧
  (∀ high : BitVec 16, decode (high ++ 0x9002#16) = .ok .cEbreak) ∧ (∀ s, OnlyMoves .cEbreak s (s.pc + 2))

/-- R316 to R321, R395: the cell that `rs1` names goes to `rd` and takes its new value; the other cells stay; an index of
4096 or more is fatal before anything changes. The premise that the CSR file is canonical is part of the invariant
(`State.Inv`). The index, the range and the operands are the spec's decisions D25 and D26, the encodings its decision
D28. -/
def Obligations.CsrResults : Prop :=
  ∀ (rd rs1 rs2 : Reg) (f7 : BitVec 7) (imm : BitVec 12),
    let reg := fun f3 : BitVec 3 => f7 ++ rs2 ++ rs1 ++ f3 ++ rd ++ 0b1110011#7
    let immediate := fun f3 : BitVec 3 => imm ++ rs1 ++ f3 ++ rd ++ 0b1110011#7
    let updates := fun (i : Instr) (new : State → Word → Word) => ∀ s : State,
      Cells.wf s.csr = true → (s.getX rs1).toNat < 4096 → UpdatesCsr i s rd (s.getX rs1).toNat (new s)
    (decode (reg 0b001#3) = .ok (.csrrw rd rs1 rs2 f7) ∧ updates (.csrrw rd rs1 rs2 f7) fun s _ => s.getX rs2) ∧
    (decode (reg 0b010#3) = .ok (.csrrs rd rs1 rs2 f7) ∧ updates (.csrrs rd rs1 rs2 f7) fun s t => t ||| s.getX rs2) ∧
    (decode (reg 0b011#3) = .ok (.csrrc rd rs1 rs2 f7) ∧
      updates (.csrrc rd rs1 rs2 f7) fun s t => t &&& ~~~(s.getX rs2)) ∧
    (decode (immediate 0b101#3) = .ok (.csrrwi rd rs1 imm) ∧
      updates (.csrrwi rd rs1 imm) fun _ _ => imm.setWidth 64) ∧
    (decode (immediate 0b110#3) = .ok (.csrrsi rd rs1 imm) ∧
      updates (.csrrsi rd rs1 imm) fun _ t => t ||| imm.setWidth 64) ∧
    (decode (immediate 0b111#3) = .ok (.csrrci rd rs1 imm) ∧
      updates (.csrrci rd rs1 imm) fun _ t => t &&& ~~~(imm.setWidth 64)) ∧
    (∀ s : State, 4096 ≤ (s.getX rs1).toNat →
      ∀ i ∈ [Instr.csrrw rd rs1 rs2 f7, .csrrs rd rs1 rs2 f7, .csrrc rd rs1 rs2 f7, .csrrwi rd rs1 imm,
        .csrrsi rd rs1 imm, .csrrci rd rs1 imm], StopsWith i s (.csrIndex (s.getX rs1)) s)

/-! ## Compressed instructions -/

/-- R340: a compressed instruction that is no jump or branch has the effect of the instruction it expands to, and
advances by 2. -/
def Obligations.ExpansionHasSameEffect : Prop :=
  ∀ (i j : Instr) (s t u : State), i.expand = some j → j.mayRedirect = false → s.halted = none →
    exec i s = .next t → exec j s = .next u →
    t = { u with pc := if u.halted = none then s.pc + 2 else s.pc }

/-- R344, R348, R352, R354, R356, R360: the compressed forms with an immediate. Immediate bits stand where the rules put
them (the spec's decisions D29, D30 and D32); any high half is ignored. -/
def Obligations.CompressedImmediateResults : Prop :=
  ∀ (high : BitVec 16),
    (∀ (r : Reg3) (k : BitVec 8), k ≠ 0 →
      decode (high ++ (0b000#3 ++ k.extractLsb' 2 2 ++ k.extractLsb' 4 4 ++ k.extractLsb' 0 1 ++ k.extractLsb' 1 1 ++ r ++
        0b00#2)) = .ok (.cAddi4spn r (k ++ 0#2)) ∧
      ∀ s, WritesResult (.cAddi4spn r (k ++ 0#2)) s (8 + r.setWidth 5) (s.getX 2 + BitVec.ofNat 64 (4 * k.toNat))
        (s.pc + 2)) ∧
    (∀ (rd : Reg) (v : BitVec 6),
      decode (high ++ (0b000#3 ++ v.extractLsb' 5 1 ++ rd ++ v.extractLsb' 0 5 ++ 0b01#2)) = .ok (.cAddi rd v) ∧
      ∀ s, WritesResult (.cAddi rd v) s rd (s.getX rd + v.signExtend 64) (s.pc + 2)) ∧
    (∀ (rd : Reg) (v : BitVec 6),
      decode (high ++ (0b010#3 ++ v.extractLsb' 5 1 ++ rd ++ v.extractLsb' 0 5 ++ 0b01#2)) = .ok (.cLi rd v) ∧
      ∀ s, WritesResult (.cLi rd v) s rd (v.signExtend 64) (s.pc + 2)) ∧
    (∀ k : BitVec 6, k ≠ 0 →
      decode (high ++ (0b011#3 ++ k.extractLsb' 5 1 ++ 0b00010#5 ++ k.extractLsb' 0 1 ++ k.extractLsb' 2 1 ++
        k.extractLsb' 3 2 ++ k.extractLsb' 1 1 ++ 0b01#2)) = .ok (.cAddi16sp (k ++ 0#4)) ∧
      ∀ s, WritesResult (.cAddi16sp (k ++ 0#4)) s 2 (s.getX 2 + (k ++ 0#4).signExtend 64) (s.pc + 2)) ∧
    (∀ (rd : Reg) (v : BitVec 6), rd ≠ 2 → v ≠ 0 →
      decode (high ++ (0b011#3 ++ v.extractLsb' 5 1 ++ rd ++ v.extractLsb' 0 5 ++ 0b01#2)) = .ok (.cLui rd v) ∧
      ∀ s, WritesResult (.cLui rd v) s rd (0#32 ++ v.signExtend 20 ++ 0#12) (s.pc + 2)) ∧
    (∀ (r : Reg3) (v : BitVec 6),
      decode (high ++ (0b100#3 ++ v.extractLsb' 5 1 ++ 0b10#2 ++ r ++ v.extractLsb' 0 5 ++ 0b01#2)) = .ok (.cAndi r v) ∧
      ∀ s, WritesResult (.cAndi r v) s (8 + r.setWidth 5) (s.getX (8 + r.setWidth 5) &&& v.signExtend 64) (s.pc + 2))

/-- R358, R359, R361 to R364, R368, R373, R374: the compressed shifts and register forms (layouts and shift amounts are the
spec's decisions D13 and D29). -/
def Obligations.CompressedRegisterResults : Prop :=
  ∀ (high : BitVec 16),
    (∀ (r : Reg3) (sh : BitVec 5),
      decode (high ++ (0b100#3 ++ 0#1 ++ 0b00#2 ++ r ++ sh ++ 0b01#2)) = .ok (.cSrli r sh) ∧
      decode (high ++ (0b100#3 ++ 0#1 ++ 0b01#2 ++ r ++ sh ++ 0b01#2)) = .ok (.cSrai r sh) ∧
      ∀ s, let x := 8 + r.setWidth 5
        WritesResult (.cSrli r sh) s x (s.getX x >>> sh.toNat) (s.pc + 2) ∧
        WritesResult (.cSrai r sh) s x ((s.getX x).sshiftRight sh.toNat) (s.pc + 2)) ∧
    (∀ r r2 : Reg3,
      let word := fun op : BitVec 2 => high ++ (0b100#3 ++ 0#1 ++ 0b11#2 ++ r ++ op ++ r2 ++ 0b01#2)
      decode (word 0b00#2) = .ok (.cSub r r2) ∧ decode (word 0b01#2) = .ok (.cXor r r2) ∧
      decode (word 0b10#2) = .ok (.cOr r r2) ∧ decode (word 0b11#2) = .ok (.cAnd r r2) ∧
      ∀ s, let x := 8 + r.setWidth 5
        let y := 8 + r2.setWidth 5
        WritesResult (.cSub r r2) s x (s.getX x - s.getX y) (s.pc + 2) ∧
        WritesResult (.cXor r r2) s x (s.getX x ^^^ s.getX y) (s.pc + 2) ∧
        WritesResult (.cOr r r2) s x (s.getX x ||| s.getX y) (s.pc + 2) ∧
        WritesResult (.cAnd r r2) s x (s.getX x &&& s.getX y) (s.pc + 2)) ∧
    (∀ (rd : Reg) (sh : BitVec 5), sh ≠ 0 →
      decode (high ++ (0b000#3 ++ 0#1 ++ rd ++ sh ++ 0b10#2)) = .ok (.cSlli rd sh) ∧
      ∀ s, WritesResult (.cSlli rd sh) s rd (s.getX rd <<< sh.toNat) (s.pc + 2)) ∧
    (∀ rd rs2 : Reg, rs2 ≠ 0 →
      decode (high ++ (0b100#3 ++ 0#1 ++ rd ++ rs2 ++ 0b10#2)) = .ok (.cMv rd rs2) ∧
      decode (high ++ (0b100#3 ++ 1#1 ++ rd ++ rs2 ++ 0b10#2)) = .ok (.cAdd rd rs2) ∧
      ∀ s, WritesResult (.cMv rd rs2) s rd (s.getX rs2) (s.pc + 2) ∧
        WritesResult (.cAdd rd rs2) s rd (s.getX rd + s.getX rs2) (s.pc + 2))

/-- R345, R346: c.lw and c.sw, with an unsigned offset that is a multiple of 4; a fatal access stops them as it
stops LW and SW. Layouts are the spec's decision D29. -/
def Obligations.CompressedMemoryResults : Prop :=
  ∀ (high : BitVec 16) (r1 r : Reg3) (k : BitVec 5),
    let word := fun f3 : BitVec 3 =>
      high ++ (f3 ++ k.extractLsb' 1 3 ++ r1 ++ k.extractLsb' 0 1 ++ k.extractLsb' 4 1 ++ r ++ 0b00#2)
    decode (word 0b010#3) = .ok (.cLw r r1 (k ++ 0#2)) ∧ decode (word 0b110#3) = .ok (.cSw r1 r (k ++ 0#2)) ∧
    ∀ s : State, let a := s.getX (8 + r1.setWidth 5) + BitVec.ofNat 64 (4 * k.toNat)
      Loads (.cLw r r1 (k ++ 0#2)) s 4 (fun v => (v.setWidth 32).signExtend 64) (8 + r.setWidth 5) a (s.pc + 2) ∧
      Stores (.cSw r1 r (k ++ 0#2)) s 4 a (s.getX (8 + r.setWidth 5)) none (s.pc + 2) ∧
      (∀ f s1, s.memRead a 4 = (.error f, s1) → StopsWith (.cLw r r1 (k ++ 0#2)) s f s1) ∧
      (∀ f s1, s.memWrite a 4 (s.getX (8 + r.setWidth 5)) = (.error f, s1) → StopsWith (.cSw r1 r (k ++ 0#2)) s f s1)

/-- R351, R365, R371, R372: the compressed jumps. c.jal links `pc + 2` and c.jalr `pc + 4`; the target of c.jr and c.jalr
keeps its bit 0. The offset of c.jal and c.j is extended from `JAL_SEXT_BITS`, which gives `v` itself for 21 and for 20. The
layouts are the spec's decision D29, the uncleared bit 0 its decision D3, the extension its decision D2. -/
def Obligations.CompressedJumpResults : Prop :=
  ∀ high : BitVec 16,
    (∀ k : BitVec 11,
      let word := fun f3 : BitVec 3 => high ++ (f3 ++ k.extractLsb' 10 1 ++ k.extractLsb' 3 1 ++ k.extractLsb' 7 2 ++
        k.extractLsb' 9 1 ++ k.extractLsb' 5 1 ++ k.extractLsb' 6 1 ++ k.extractLsb' 0 3 ++ k.extractLsb' 4 1 ++ 0b01#2)
      decode (word 0b001#3) = .ok (.cJal (k ++ 0#1)) ∧ decode (word 0b101#3) = .ok (.cJ (k ++ 0#1)) ∧
      ∀ s : State, let offset := sext s.cfg.jalSextBits ((k ++ 0#1).signExtend 21)
        (s.cfg.jalSextBits = 21 ∨ s.cfg.jalSextBits = 20 → offset = (k ++ 0#1).signExtend 64) ∧
        WritesResult (.cJal (k ++ 0#1)) s 1 (s.pc + 2) (s.pc + offset) ∧
        OnlyMoves (.cJ (k ++ 0#1)) s (s.pc + offset)) ∧
    (∀ rs1 : Reg, rs1 ≠ 0 →
      decode (high ++ (0b100#3 ++ 0#1 ++ rs1 ++ 0b00000#5 ++ 0b10#2)) = .ok (.cJr rs1) ∧
      decode (high ++ (0b100#3 ++ 1#1 ++ rs1 ++ 0b00000#5 ++ 0b10#2)) = .ok (.cJalr rs1) ∧
      ∀ s, OnlyMoves (.cJr rs1) s (s.getX rs1) ∧ WritesResult (.cJalr rs1) s 1 (s.pc + 4) (s.getX rs1))

/-- R366, R367: c.beqz and c.bnez (layouts are the spec's decision D29). -/
def Obligations.CompressedBranchResults : Prop :=
  ∀ (high : BitVec 16) (r : Reg3) (k : BitVec 8),
    let word := fun f3 : BitVec 3 => high ++ (f3 ++ k.extractLsb' 7 1 ++ k.extractLsb' 2 2 ++ r ++ k.extractLsb' 5 2 ++
      k.extractLsb' 0 2 ++ k.extractLsb' 4 1 ++ 0b01#2)
    decode (word 0b110#3) = .ok (.cBeqz r (k ++ 0#1)) ∧ decode (word 0b111#3) = .ok (.cBnez r (k ++ 0#1)) ∧
    ∀ s : State, let x := s.getX (8 + r.setWidth 5)
      let target := s.pc + (k ++ 0#1).signExtend 64
      (x = 0 → OnlyMoves (.cBeqz r (k ++ 0#1)) s target ∧ OnlyMoves (.cBnez r (k ++ 0#1)) s (s.pc + 2)) ∧
      (x ≠ 0 → OnlyMoves (.cBeqz r (k ++ 0#1)) s (s.pc + 2) ∧ OnlyMoves (.cBnez r (k ++ 0#1)) s target)

/-- R369: c.slli64 is recognised, and stops the machine with `FATAL_DECODE_COMPRESSED` of its halfword. Its pattern
and its error kind are the spec's decision D31. -/
def Obligations.CompressedSlli64Stops : Prop :=
  ∀ (high : BitVec 16) (rd : Reg),
    decode (high ++ (0b000#3 ++ 0#1 ++ rd ++ 0b00000#5 ++ 0b10#2)) = .ok (.cSlli64 rd) ∧
    ∀ s, StopsWith (.cSlli64 rd) s (.decodeCompressed (0b000#3 ++ 0#1 ++ rd ++ 0b00000#5 ++ 0b10#2)) s

/-! ## Memory -/

/-- R53, R54: routing takes the first tuple in registration order whose half-open range holds the address; where
there is none, an access raises `FATAL_ADDRESS` and changes nothing. An access, failing or not, touches the tuple it
is routed to only: no other buffer, no other UART, no register. That addresses compare unsigned is the spec's decision
D11. -/
def Obligations.UnmappedAddressIsFatal : Prop :=
  (∀ (a : Word) (bus : Bus) (m : Mapping), Bus.lookup a bus = some m ↔
    ∃ pre post, bus = pre ++ m :: post ∧ m.start.toNat ≤ a.toNat ∧ a.toNat < m.stop.toNat ∧
      ∀ m' ∈ pre, ¬ (m'.start.toNat ≤ a.toNat ∧ a.toNat < m'.stop.toNat)) ∧
  (∀ (s : State) (a v : Word) (n : Nat),
    (∀ m ∈ s.bus, ¬ (m.start.toNat ≤ a.toNat ∧ a.toNat < m.stop.toNat)) →
    s.memRead a n = (.error (.address a), s) ∧ s.memWrite a n v = (.error (.address a), s)) ∧
  (∀ (s : State) (a v : Word) (n : Nat),
    State.TouchedOnly s (s.memRead a n).2 a ∧ (s.memRead a n).2 = { s with bus := (s.memRead a n).2.bus } ∧
    State.TouchedOnly s (s.memWrite a n v).2 a ∧ (s.memWrite a n v).2 = { s with bus := (s.memWrite a n v).2.bus })

/-- A read of bytes that one RAM or ROM buffer holds answers their little-endian value, at any alignment, and
changes nothing; a read that runs past the buffer, or past address 2^64 − 1, or starts past the buffer, raises
`FATAL_ADDRESS` of its first byte and changes nothing (R56, R58, R60, R62, R71; the spec's decisions D8, D10 and
D11; log entry 9). -/
def Obligations.BufferReads : Prop :=
  (∀ (s : State) (a : Word) (bs : List Byte), bs ≠ [] → s.holdsBytes a bs →
    (bs.length ≤ 8 → ∃ v, s.memRead a bs.length = (.ok v, s) ∧ v.toNat = bytesNat bs) ∧
    (∀ n, bs.length < n → s.accessByte a bs.length = none → s.memRead a n = (.error (.address a), s))) ∧
  (∀ (s : State) (a : Word) (n : Nat) (m : Mapping), 0 < n → Bus.lookup a s.bus = some m → m.region.shape ≠ .uart →
    s.accessByte a 0 = none → s.memRead a n = (.error (.address a), s))

/-- A write inside one RAM buffer puts byte i of the value, bits 8i+7 to 8i, at place i, at any alignment; one that
runs past the buffer raises `FATAL_ADDRESS` of its first byte, and the bytes before the end stay written; one that
starts past the buffer changes nothing (R57, R58, R60, R62; the spec's decisions D8 to D11; log entry 9). The
premise that the buffers are canonical is part of the invariant. -/
def Obligations.RamWrites : Prop :=
  (∀ (s : State) (a v : Word) (n k : Nat), Bus.wf s.bus = true → s.inRam a k →
    (∃ s1, s.memWrite a k v = (.ok (), s1) ∧ State.KeptOutside s s1 a k ∧
      ∀ i, i < k → s1.accessByte a i = some ((v >>> (8 * i)).setWidth 8)) ∧
    (k < n → ¬ s.inRam a (k + 1) →
      ∃ s1, s.memWrite a n v = (.error (.address a), s1) ∧ State.KeptOutside s s1 a k ∧
        ∀ i, i < k → s1.accessByte a i = some ((v >>> (8 * i)).setWidth 8))) ∧
  (∀ (s : State) (a v : Word) (n : Nat) (m : Mapping) (size : Nat) (buf : Memory), 0 < n →
    Bus.lookup a s.bus = some m → m.region = .ram size buf → size ≤ m.offset a →
    s.memWrite a n v = (.error (.address a), s))

/-- R397: every write routed to a ROM raises `FATAL_ROM_WRITE` at its first byte and changes nothing, in each
instruction that stores; the read of AMOSWAP succeeds first. -/
def Obligations.RomWriteIsFatal : Prop :=
  (∀ (s : State) (a v : Word) (n : Nat), 0 < n → s.inRom a → s.memWrite a n v = (.error (.romWrite a), s)) ∧
  (∀ (s : State) (rs1 rs2 : Reg) (imm : BitVec 12), s.inRom (s.getX rs1 + imm.signExtend 64) →
    ∀ i ∈ [Instr.sb rs1 rs2 imm, .sh rs1 rs2 imm, .sw rs1 rs2 imm, .sd rs1 rs2 imm],
      StopsWith i s (.romWrite (s.getX rs1 + imm.signExtend 64)) s) ∧
  (∀ (s : State) (r1 r : Reg3) (uimm : BitVec 7), s.inRom (s.getX (8 + r1.setWidth 5) + uimm.setWidth 64) →
    StopsWith (.cSw r1 r uimm) s (.romWrite (s.getX (8 + r1.setWidth 5) + uimm.setWidth 64)) s) ∧
  (∀ (s : State) (rd rs1 rs2 : Reg) (aq rl : BitVec 1), s.inRom (s.getX rs1) →
    (∀ i ∈ [Instr.scW rd rs1 rs2 aq rl, .scD rd rs1 rs2 aq rl], StopsWith i s (.romWrite (s.getX rs1)) s) ∧
    (∀ bs, bs.length = 4 → s.holdsBytes (s.getX rs1) bs →
      StopsWith (.amoswapW rd rs1 rs2 aq rl) s (.romWrite (s.getX rs1)) s) ∧
    (∀ bs, bs.length = 8 → s.holdsBytes (s.getX rs1) bs →
      StopsWith (.amoswapD rd rs1 rs2 aq rl) s (.romWrite (s.getX rs1)) s))

/-- R203, which the spec derives: a load after a store of the same width at the same RAM address gives the stored
value, narrowed and extended as the load does (the spec's decision D1), at every alignment. -/
def Obligations.StoreLoadRoundTrip : Prop :=
  ∀ (s : State) (rs1 rs2 rd r1 : Reg) (imm off : BitVec 12), s.Inv → rd ≠ 0 →
    let a := s.getX rs1 + imm.signExtend 64
    let v := s.getX rs2
    let after := fun (store load : Instr) (n : Nat) (x : Word) => s.inRam a n →
      ∃ t, exec store s = .next t ∧ t.halted = s.halted ∧
        (t.getX r1 + off.signExtend 64 = a → ∃ u, exec load t = .next u ∧ u.halted = s.halted ∧ u.getX rd = x)
    after (.sb rs1 rs2 imm) (.lbu rd r1 off) 1 ((v.setWidth 8).setWidth 64) ∧
    after (.sb rs1 rs2 imm) (.lb rd r1 off) 1 ((v.setWidth 8).signExtend 64) ∧
    after (.sh rs1 rs2 imm) (.lhu rd r1 off) 2 ((v.setWidth 16).setWidth 64) ∧
    after (.sh rs1 rs2 imm) (.lh rd r1 off) 2 ((v.setWidth 16).signExtend 64) ∧
    after (.sw rs1 rs2 imm) (.lwu rd r1 off) 4 ((v.setWidth 32).setWidth 64) ∧
    after (.sw rs1 rs2 imm) (.lw rd r1 off) 4 ((v.setWidth 32).signExtend 64) ∧
    after (.sd rs1 rs2 imm) (.ld rd r1 off) 8 v

/-- A narrow read inside a wide write returns exactly the bytes the wide write placed there (R61, which the spec
derives). The narrow access is routed to the tuple of the wide one: a premise, since ranges may overlap (R52, R53). -/
def Obligations.NarrowReadOfWideWrite : Prop :=
  ∀ (s s1 : State) (a v : Word) (n m k : Nat), Bus.wf s.bus = true → s.inRam a n → n ≤ 8 → 0 < m → k + m ≤ n →
    Bus.lookup (a + BitVec.ofNat 64 k) s.bus = Bus.lookup a s.bus → s.memWrite a n v = (.ok (), s1) →
    s1.memRead (a + BitVec.ofNat 64 k) m = (.ok ((v >>> (8 * k)) &&& BitVec.ofNat 64 (2 ^ (8 * m) - 1)), s1)

/-- A word that SW stores at the address of the next instruction is the instruction that the next step runs, with no
fence (R76, R204, which the spec derives). -/
def Obligations.StoreIsSeenByNextFetch : Prop :=
  ∀ (s : State) (rs1 rs2 : Reg) (imm : BitVec 12) (i : Instr), s.Inv → s.halted = none →
    s.getX rs1 + imm.signExtend 64 = s.pc + 4 → s.inRam (s.pc + 4) 4 → decode ((s.getX rs2).setWidth 32) = .ok i →
    ∃ t, exec (.sw rs1 rs2 imm) s = .next t ∧ t.pc = s.pc + 4 ∧ step t = exec i t

/-! ## The UART -/

/-- R417, R418, R422: a byte read of each register, with what it does to the device; no other offset is a register.
Offsets and the data-ready bit are the spec's decision D34. -/
def Obligations.UartByteReads : Prop :=
  ∀ (s : State) (a : Word) (u : Uart) (o : Nat), s.atUart a u o →
    let reads := fun (b : Byte) (u' : Uart) =>
      ∃ s1, s.memRead a 1 = (.ok (b.setWidth 64), s1) ∧ s1.atUart a u' o ∧ State.KeptMemory s s1 ∧
        State.TouchedOnly s s1 a
    (o = 0 → u.rxq = [] → reads 0 u) ∧
    (∀ b rest, o = 0 → u.rxq = b :: rest → reads b { u with rxq := rest }) ∧
    (o = 1 → reads u.ier u) ∧ (o = 2 → reads u.fcr u) ∧ (o = 3 → reads u.lcr u) ∧ (o = 4 → reads u.mcr u) ∧
    (o = 5 → ∀ l : Byte, l = (u.lsr &&& 0xFE#8) ||| (if 0 < u.rxq.length then 1#8 else 0#8) →
      reads l { u with lsr := l }) ∧
    (6 ≤ o → s.memRead a 1 = (.error (.uartReg o), s))

/-- R419, R420, R421: a byte write of each register. A write of offset 0 reaches the sink once whether or not the byte
fits the queue (the spec's decision D34). -/
def Obligations.UartByteWrites : Prop :=
  ∀ (s : State) (a v : Word) (u : Uart) (o : Nat), s.atUart a u o →
    let b := v.setWidth 8
    let leaves := fun u' : Uart =>
      ∃ s1, s.memWrite a 1 v = (.ok (), s1) ∧ s1.atUart a u' o ∧ State.KeptMemory s s1 ∧ State.TouchedOnly s s1 a
    (o = 0 → u.txq.length < 16 → leaves { u with txq := u.txq ++ [b], sent := u.sent ++ [b] }) ∧
    (o = 0 → 16 ≤ u.txq.length → leaves { u with sent := u.sent ++ [b] }) ∧
    (o = 1 → leaves { u with ier := b }) ∧ (o = 2 → leaves { u with fcr := b }) ∧
    (o = 3 → leaves { u with lcr := b }) ∧ (o = 4 → leaves { u with mcr := b }) ∧
    (o = 5 → leaves { u with lsr := b }) ∧
    (6 ≤ o → s.memWrite a 1 v = (.error (.uartReg o), s))

/-- R398: an access that touches a UART offset of 6 or more raises `FATAL_UART_REG` at that byte, reads and writes alike;
the bytes before it have had their effects, and no more. -/
def Obligations.UartOffsetsPastFiveAreFatal : Prop :=
  ∀ (s : State) (a v : Word) (u : Uart) (o n : Nat), s.atUart a u o → 0 < n → 6 < o + n → a.toNat + n ≤ 2 ^ 64 →
    (s.memRead a n).1 = .error (.uartReg (if o < 6 then 6 else o)) ∧
    (s.memWrite a n v).1 = .error (.uartReg (if o < 6 then 6 else o)) ∧
    (∃ x s1, s.memRead a (6 - o) = (.ok x, s1) ∧ (s.memRead a n).2 = s1) ∧
    (∃ s1, s.memWrite a (6 - o) v = (.ok (), s1) ∧ (s.memWrite a n v).2 = s1)

/-- R424, R56, R57, R63, which the spec derives: an access of n + 1 bytes of a UART is the byte access at its first
offset `o`, then the access of the other n bytes at offset `o + 1` in the state which that leaves: the value is joined
little-endian, the first error ends the access, and the device ends as the second part leaves it. The second part is
said of any state `s2` and address `c` that stand at offset `o + 1` of such a device, since the address after `a` need not
be routed to the UART (R53). A byte past address 2^64 − 1 is `FATAL_ADDRESS` after the effects of the bytes before it
(R59; log entry 9). Then the spec's own instances: LH at offset 0 dequeues, then reads `IER`; SW at offset 0 reaches the
sink, then writes `IER`, `FCR` and `LCR`; LW at offset 4 fails at offset 6 after the effect of the `LSR` read; a fetch is
the same read as LWU. -/
def Obligations.UartMultiByteAccesses : Prop :=
  (∀ (s : State) (a : Word) (u : Uart) (o n : Nat), s.atUart a u o → a.toNat + (n + 1) ≤ 2 ^ 64 →
    (∀ f s1, s.memRead a 1 = (.error f, s1) → s.memRead a (n + 1) = (.error f, s1)) ∧
    (∀ b s1 u1, s.memRead a 1 = (.ok b, s1) → s1.atUart a u1 o →
      ∀ (s2 : State) (c : Word), s2.atUart c u1 (o + 1) → c.toNat + n ≤ 2 ^ 64 →
        (∀ f, (s2.memRead c n).1 = .error f → (s.memRead a (n + 1)).1 = .error f) ∧
        (∀ x, (s2.memRead c n).1 = .ok x → (s.memRead a (n + 1)).1 = .ok (b ||| (x <<< 8))) ∧
        (∀ u2, (s2.memRead c n).2.atUart c u2 (o + 1) → (s.memRead a (n + 1)).2.atUart a u2 o))) ∧
  (∀ (s : State) (a v : Word) (u : Uart) (o n : Nat), s.atUart a u o → a.toNat + (n + 1) ≤ 2 ^ 64 →
    (∀ f s1, s.memWrite a 1 v = (.error f, s1) → s.memWrite a (n + 1) v = (.error f, s1)) ∧
    (∀ s1 u1, s.memWrite a 1 v = (.ok (), s1) → s1.atUart a u1 o →
      ∀ (s2 : State) (c : Word), s2.atUart c u1 (o + 1) → c.toNat + n ≤ 2 ^ 64 →
        (s.memWrite a (n + 1) v).1 = (s2.memWrite c n (v >>> 8)).1 ∧
        (∀ u2, (s2.memWrite c n (v >>> 8)).2.atUart c u2 (o + 1) → (s.memWrite a (n + 1) v).2.atUart a u2 o))) ∧
  (∀ (s : State) (a v : Word) (u : Uart) (o n k : Nat), s.atUart a u o → a.toNat + k = 2 ^ 64 → k < n →
    (∀ x s1, s.memRead a k = (.ok x, s1) → s.memRead a n = (.error (.address a), s1)) ∧
    (∀ f s1, s.memRead a k = (.error f, s1) → s.memRead a n = (.error f, s1)) ∧
    (∀ s1, s.memWrite a k v = (.ok (), s1) → s.memWrite a n v = (.error (.address a), s1)) ∧
    (∀ f s1, s.memWrite a k v = (.error f, s1) → s.memWrite a n v = (.error f, s1))) ∧
  (∀ (s : State) (a v : Word) (u : Uart), a.toNat + 4 ≤ 2 ^ 64 →
    (∀ b rest, s.atUart a u 0 → u.rxq = b :: rest →
      ∃ s1, s.memRead a 2 = (.ok (0#48 ++ u.ier ++ b), s1) ∧ s1.atUart a { u with rxq := rest } 0) ∧
    (s.atUart a u 0 → u.txq.length < 16 →
      ∃ s1, s.memWrite a 4 v = (.ok (), s1) ∧
        s1.atUart a
          { u with
            txq := u.txq ++ [v.setWidth 8]
            sent := u.sent ++ [v.setWidth 8]
            ier := v.extractLsb' 8 8
            fcr := v.extractLsb' 16 8
            lcr := v.extractLsb' 24 8 } 0) ∧
    (s.atUart a u 4 →
      ∃ s1, s.memRead a 4 = (.error (.uartReg 6), s1) ∧
        s1.atUart a { u with lsr := (u.lsr &&& 0xFE#8) ||| (if 0 < u.rxq.length then 1#8 else 0#8) } 4) ∧
    (s.pc = a → s.fetch = ((s.memRead a 4).1.map fun x => x.setWidth 32, (s.memRead a 4).2)))

/-- The host's `uart_receive(b)` appends to the first UART's queue while it holds fewer than 16 bytes and otherwise
drops the byte; it changes nothing else (R423, the spec's decision D34; which UART is the model's choice, log entry
10). -/
def Obligations.UartReceive : Prop :=
  ∀ (s : State) (b : Byte) (pre post : List Mapping) (m : Mapping) (u : Uart),
    s.bus = pre ++ m :: post → m.region = .uart u → (∀ m' ∈ pre, m'.region.shape ≠ .uart) →
    let u' : Uart := { u with rxq := if u.rxq.length < 16 then u.rxq ++ [b] else u.rxq }
    let m' : Mapping := { m with region := .uart u' }
    s.uartReceive b = { s with bus := pre ++ m' :: post }

/-! ## Setup and reset -/

/-- R34, R35, R442: the state after reset, for any configuration (the zeros are the spec's decisions D5 and D34). -/
def Obligations.ResetState : Prop :=
  ∀ cfg : Config, let s := State.resetFor cfg
    s.pc = cfg.resetPc ∧ (∀ r, s.getX r = 0) ∧ (∀ k, s.csrGet k = 0) ∧ s.halted = none ∧
    s.bus.length = cfg.regionTable.length ∧
    (∀ (j : Nat) (e : RegionEntry), cfg.regionTable[j]? = some e →
      ∃ m, s.bus[j]? = some m ∧ m.start = e.start ∧ m.stop = e.stop ∧
        match e.kind with
        | .ram size image => ∃ buf, m.region = .ram size buf ∧
            ∀ o, Cells.get buf o = if o < size then image.contents.getD o 0 else 0
        | .rom size image => ∃ buf, m.region = .rom size buf ∧
            ∀ o, Cells.get buf o = if o < size then image.contents.getD o 0 else 0
        | .uart => ∃ u, m.region = .uart u ∧ u.ier = 0 ∧ u.fcr = 0 ∧ u.lcr = 0 ∧ u.mcr = 0 ∧
            u.lsr = cfg.uartLsrReset ∧ u.rxq = [] ∧ u.txq = []) ∧
    (∀ t : State, t.cfg = cfg → t.hostReset = s)

/-- Setup stops if a RAM is over `RAM_MAX_SIZE` or an image is missing or larger than its region; `FATAL_RAM_SIZE` names a
tuple of the first kind, `FATAL_BOOT` one of the second (R65, R67, R399); else setup gives the reset state (R440, R442).
No step raises either (R399). That an error names a tuple by its place in the table is the model's choice, log entry
22. -/
def Obligations.SetupErrors : Prop :=
  (∀ cfg : Config,
    let oversized := fun e : RegionEntry => ∃ size image, e.kind = .ram size image ∧ cfg.ramMaxSize < size
    let unfit := fun e : RegionEntry => ∃ size image, (e.kind = .ram size image ∨ e.kind = .rom size image) ∧
      (image = .missing ∨ ∃ bs, image = .bytes bs ∧ size < bs.length)
    ((∃ e ∈ cfg.regionTable, oversized e ∨ unfit e) → ∃ f, State.setup cfg = .fault f) ∧
    (∀ j, State.setup cfg = .fault (.ramSize j) → ∃ e, cfg.regionTable[j]? = some e ∧ oversized e) ∧
    (∀ j, State.setup cfg = .fault (.boot j) → ∃ e, cfg.regionTable[j]? = some e ∧ unfit e) ∧
    ((∀ e ∈ cfg.regionTable, ¬ oversized e ∧ ¬ unfit e) → State.setup cfg = .next (State.resetFor cfg))) ∧
  (∀ s f, step s ≠ .fault f)
end

