-- ==== Sys2Proof/Laws/Cells.lean ====
section
/-! SUPPORT. The laws of sparse storage: read after write, the frame of a write, and that every operation keeps the
canonical form. -/

namespace Sys2Proof.Machine

variable {w : Nat}

@[simp] theorem Cells.get_nil (a : Nat) : Cells.get ([] : Cells w) a = 0 := rfl

theorem Cells.get_cons_entry (k a : Nat) (v : BitVec w) (m : Cells w) :
    Cells.get ((k, v) :: m) a = if k = a then v else Cells.get m a := rfl

/-- A cell below every listed address reads as an unlisted one. -/
theorem Cells.get_of_lt {lo a : Nat} {m : Cells w} (h : Cells.risingFrom lo m = true) (ha : a < lo) :
    Cells.get m a = 0 := by
  induction m generalizing lo with
  | nil => rfl
  | cons c rest ih =>
    obtain ⟨k, v⟩ := c
    simp only [Cells.risingFrom, Bool.and_eq_true, decide_eq_true_eq] at h
    rw [Cells.get_cons_entry, if_neg (by omega)]
    exact ih h.2 (by omega)

theorem Cells.get_cons_other (a b : Nat) (v : BitVec w) (m : Cells w) (h : a ≠ b) :
    Cells.get (Cells.cons a v m) b = Cells.get m b := by
  unfold Cells.cons
  split
  · rfl
  · simp [Cells.get_cons_entry, h]

theorem Cells.get_cons_self {lo a : Nat} (v : BitVec w) {m : Cells w} (h : Cells.risingFrom lo m = true)
    (ha : a < lo) : Cells.get (Cells.cons a v m) a = v := by
  unfold Cells.cons
  split
  · next hv => rw [Cells.get_of_lt h ha, hv]; rfl
  · simp [Cells.get_cons_entry]

/-- A write leaves every other cell alone, whatever the list. -/
theorem Cells.get_set_other (m : Cells w) (a b : Nat) (v : BitVec w) (h : a ≠ b) :
    Cells.get (Cells.set m a v) b = Cells.get m b := by
  induction m with
  | nil => simpa [Cells.set] using Cells.get_cons_other a b v [] h
  | cons c rest ih =>
    obtain ⟨k, u⟩ := c
    simp only [Cells.set]
    split
    · exact Cells.get_cons_other a b v _ h
    · split
      · next hk => rw [Cells.get_cons_other a b v _ h, Cells.get_cons_entry, if_neg (by omega)]
      · simp [Cells.get_cons_entry, ih]

/-- A read after a write to the same cell gives the value written. -/
theorem Cells.get_set_self {lo : Nat} {m : Cells w} (a : Nat) (v : BitVec w) (h : Cells.risingFrom lo m = true) :
    Cells.get (Cells.set m a v) a = v := by
  induction m generalizing lo with
  | nil => exact Cells.get_cons_self v (lo := a + 1) (by rfl) (by omega)
  | cons c rest ih =>
    obtain ⟨k, u⟩ := c
    simp only [Cells.risingFrom, Bool.and_eq_true, decide_eq_true_eq] at h
    simp only [Cells.set]
    split
    · next hk =>
      exact Cells.get_cons_self v (lo := k) (by simp [Cells.risingFrom, h.2]) hk
    · split
      · next hk => subst hk; exact Cells.get_cons_self v h.2 (by omega)
      · rw [Cells.get_cons_entry, if_neg (by omega)]; exact ih h.2

theorem Cells.risingFrom_mono {lo lo' : Nat} {m : Cells w} (h : Cells.risingFrom lo m = true) (hle : lo' ≤ lo) :
    Cells.risingFrom lo' m = true := by
  cases m with
  | nil => rfl
  | cons c rest =>
    obtain ⟨k, v⟩ := c
    simp only [Cells.risingFrom, Bool.and_eq_true, decide_eq_true_eq] at h ⊢
    exact ⟨by omega, h.2⟩

theorem Cells.risingFrom_cons {lo a : Nat} (v : BitVec w) {m : Cells w} (h : Cells.risingFrom (a + 1) m = true)
    (ha : lo ≤ a) : Cells.risingFrom lo (Cells.cons a v m) = true := by
  unfold Cells.cons
  split
  · exact Cells.risingFrom_mono h (by omega)
  · simp [Cells.risingFrom, h, ha]

theorem Cells.risingFrom_set {lo a : Nat} (v : BitVec w) {m : Cells w} (h : Cells.risingFrom lo m = true)
    (ha : lo ≤ a) : Cells.risingFrom lo (Cells.set m a v) = true := by
  induction m generalizing lo with
  | nil => exact Cells.risingFrom_cons v (by rfl) ha
  | cons c rest ih =>
    obtain ⟨k, u⟩ := c
    simp only [Cells.risingFrom, Bool.and_eq_true, decide_eq_true_eq] at h
    simp only [Cells.set]
    split
    · next hk => exact Cells.risingFrom_cons v (by simp [Cells.risingFrom, h.2]; omega) ha
    · split
      · next hk => subst hk; exact Cells.risingFrom_cons v h.2 ha
      · simp only [Cells.risingFrom, Bool.and_eq_true, decide_eq_true_eq]
        exact ⟨h.1, ih h.2 (by omega)⟩

/-- Every entry of the list after a write is an old entry or the written one, which is not what an unlisted address
reads as. -/
theorem Cells.mem_set {m : Cells w} {a : Nat} {v : BitVec w} {c : Nat × BitVec w} (h : c ∈ Cells.set m a v) :
    c ∈ m ∨ (c = (a, v) ∧ v ≠ Cells.unlisted w) := by
  have key : ∀ rest : Cells w, c ∈ Cells.cons a v rest → c ∈ rest ∨ (c = (a, v) ∧ v ≠ Cells.unlisted w) := by
    intro rest hc
    unfold Cells.cons at hc
    split at hc
    · exact .inl hc
    · next hv =>
      rcases List.mem_cons.mp hc with rfl | hc
      · exact .inr ⟨rfl, hv⟩
      · exact .inl hc
  induction m with
  | nil => simpa using key [] h
  | cons d rest ih =>
    obtain ⟨k, u⟩ := d
    simp only [Cells.set] at h
    split at h
    · exact key _ h
    · split at h
      · exact (key _ h).imp_left (List.mem_cons_of_mem _)
      · rcases List.mem_cons.mp h with rfl | h
        · simp
        · exact (ih h).imp_left (List.mem_cons_of_mem _)

/-- A write keeps the canonical form. -/
theorem Cells.wf_set {m : Cells w} (a : Nat) (v : BitVec w) (h : Cells.wf m = true) :
    Cells.wf (Cells.set m a v) = true := by
  simp only [Cells.wf, Bool.and_eq_true, List.all_eq_true] at h ⊢
  refine ⟨Cells.risingFrom_set v h.1 (Nat.zero_le a), fun c hc => ?_⟩
  rcases Cells.mem_set hc with hm | ⟨rfl, hv⟩
  · exact h.2 c hm
  · simpa using hv

/-- A write below a bound keeps every listed address below it. -/
theorem Cells.below_set {m : Cells w} {n a : Nat} (v : BitVec w) (h : Cells.below n m = true) (ha : a < n) :
    Cells.below n (Cells.set m a v) = true := by
  simp only [Cells.below, List.all_eq_true, decide_eq_true_eq] at h ⊢
  intro c hc
  rcases Cells.mem_set hc with hm | ⟨rfl, -⟩
  · exact h c hm
  · exact ha

theorem Cells.rising_of_wf {m : Cells w} (h : Cells.wf m = true) : Cells.risingFrom 0 m = true := by
  simp only [Cells.wf, Bool.and_eq_true] at h; exact h.1

/-- In a canonical list a read after a write to the same cell gives the value written. -/
theorem Cells.get_set (m : Cells w) (a b : Nat) (v : BitVec w) (h : Cells.wf m = true) :
    Cells.get (Cells.set m a v) b = if a = b then v else Cells.get m b := by
  split
  · next hab => subst hab; exact Cells.get_set_self a v (Cells.rising_of_wf h)
  · next hab => exact Cells.get_set_other m a b v hab

/-! ## The image load -/

theorem Memory.ofImage_rising (o : Nat) (bs : List Byte) : Cells.risingFrom o (Memory.ofImage o bs) = true := by
  induction bs generalizing o with
  | nil => rfl
  | cons b bs ih => exact Cells.risingFrom_cons b (ih (o + 1)) (Nat.le_refl o)

theorem Memory.mem_ofImage {o : Nat} {bs : List Byte} {c : Nat × Byte} (h : c ∈ Memory.ofImage o bs) :
    c.2 ≠ Cells.unlisted 8 ∧ c.1 < o + bs.length := by
  induction bs generalizing o with
  | nil => simp [Memory.ofImage] at h
  | cons b bs ih =>
    simp only [Memory.ofImage, Cells.cons] at h
    split at h
    · obtain ⟨h1, h2⟩ := ih h; exact ⟨h1, by simp only [List.length_cons]; omega⟩
    · next hb =>
      rcases List.mem_cons.mp h with rfl | h
      · exact ⟨hb, by simp⟩
      · obtain ⟨h1, h2⟩ := ih h; exact ⟨h1, by simp only [List.length_cons]; omega⟩

/-- A loaded buffer has the canonical form. -/
theorem Memory.ofImage_wf (bs : List Byte) : Memory.wf (Memory.ofImage 0 bs) = true := by
  simp only [Memory.wf, Cells.wf, Bool.and_eq_true, List.all_eq_true]
  exact ⟨Memory.ofImage_rising 0 bs, fun c hc => by simpa using (Memory.mem_ofImage hc).1⟩

/-- A loaded buffer lists no offset past the image. -/
theorem Memory.ofImage_below {n : Nat} (bs : List Byte) (h : bs.length ≤ n) :
    Cells.below n (Memory.ofImage 0 bs) = true := by
  simp only [Cells.below, List.all_eq_true, decide_eq_true_eq]
  intro c hc
  have := (Memory.mem_ofImage hc).2
  omega

/-- A loaded buffer holds byte i of the image at offset i and zeros after it (R35, R67). -/
theorem Memory.get_ofImage (o : Nat) (bs : List Byte) (i : Nat) :
    Cells.get (Memory.ofImage o bs) (o + i) = bs.getD i 0 := by
  induction bs generalizing o i with
  | nil => rfl
  | cons b bs ih =>
    cases i with
    | zero => exact Cells.get_cons_self (lo := o + 1) b (Memory.ofImage_rising (o + 1) bs) (by omega)
    | succ i =>
      rw [Memory.ofImage, Cells.get_cons_other _ _ _ _ (by omega)]
      have h := ih (o + 1) i
      rw [Nat.add_assoc, Nat.add_comm 1 i] at h
      exact h

end Sys2Proof.Machine
end

