-- ==== Sys2Proof/Laws/Bus.lean ====
section
/-! SUPPORT. The laws of the bus: what an access answers and leaves, what it cannot change, and that it keeps the
canonical form. -/

namespace Sys2Proof.Machine

/-! ## One byte -/

theorem Uart.readByte_fifo (u : Uart) (o : Nat) :
    (u.readByte o).2.txq = u.txq ∧ (u.readByte o).2.sent = u.sent ∧ (u.readByte o).2.rxq.length ≤ u.rxq.length := by
  unfold Uart.readByte
  split <;> try exact ⟨rfl, rfl, Nat.le_refl _⟩
  unfold Uart.receive
  split
  · exact ⟨rfl, rfl, Nat.le_refl _⟩
  · next h => rw [h]; exact ⟨rfl, rfl, Nat.le_succ _⟩

theorem fifoPush_bound (q : List Byte) (b : Byte) (h : q.length ≤ uartFifoSize) :
    (fifoPush q b).length ≤ uartFifoSize := by
  unfold fifoPush
  split
  · simp only [List.length_append, List.length_cons, List.length_nil]; omega
  · exact h

theorem Uart.writeByte_fifo (u : Uart) (o : Nat) (b : Byte) :
    (u.writeByte o b).2.rxq = u.rxq ∧
      (u.txq.length ≤ uartFifoSize → (u.writeByte o b).2.txq.length ≤ uartFifoSize) := by
  unfold Uart.writeByte
  split <;> try exact ⟨rfl, id⟩
  exact ⟨rfl, fifoPush_bound u.txq b⟩

@[simp] theorem Region.readByte_shape (acc : Word) (o : Nat) (r : Region) : (r.readByte acc o).2.shape = r.shape := by
  cases r <;> rfl

@[simp] theorem Region.writeByte_shape (acc : Word) (o : Nat) (b : Byte) (r : Region) :
    (r.writeByte acc o b).2.shape = r.shape := by
  cases r with
  | ram size buf => simp only [Region.writeByte]; split <;> rfl
  | rom size buf => rfl
  | uart dev => rfl

/-- A byte read changes no byte of RAM or ROM (R71). -/
@[simp] theorem Region.readByte_peek (acc : Word) (o k : Nat) (r : Region) :
    (r.readByte acc o).2.peek k = r.peek k := by
  cases r <;> rfl

/-- A byte write changes no byte at another offset. -/
theorem Region.writeByte_peek (acc : Word) (o k : Nat) (b : Byte) (r : Region) (h : k ≠ o) :
    (r.writeByte acc o b).2.peek k = r.peek k := by
  cases r with
  | ram size buf =>
    simp only [Region.writeByte]
    split
    · simp only [Region.peek, Cells.get_set_other buf o k b h.symm]
    · rfl
  | rom size buf => rfl
  | uart dev => rfl

theorem Region.readByte_wf (acc : Word) (o : Nat) (r : Region) (h : r.wf = true) : (r.readByte acc o).2.wf = true := by
  cases r with
  | ram size buf => exact h
  | rom size buf => exact h
  | uart dev =>
    simp only [Region.readByte, Region.wf, Bool.and_eq_true, decide_eq_true_eq] at h ⊢
    obtain ⟨h1, -, h3⟩ := Uart.readByte_fifo dev o
    rw [h1]
    exact ⟨Nat.le_trans h3 h.1, h.2⟩

theorem Region.writeByte_wf (acc : Word) (o : Nat) (b : Byte) (r : Region) (h : r.wf = true) :
    (r.writeByte acc o b).2.wf = true := by
  cases r with
  | ram size buf =>
    simp only [Region.writeByte]
    split
    · next ho =>
      simp only [Region.wf, Memory.wf, Bool.and_eq_true] at h ⊢
      exact ⟨Cells.wf_set o b h.1, Cells.below_set b h.2 ho⟩
    · exact h
  | rom size buf => exact h
  | uart dev =>
    simp only [Region.writeByte, Region.wf, Bool.and_eq_true, decide_eq_true_eq] at h ⊢
    obtain ⟨h1, h2⟩ := Uart.writeByte_fifo dev o b
    rw [h1]
    exact ⟨h.1, h2 h.2⟩

/-! ## The bytes of an access: what they cannot change -/

/-- A property that every byte read keeps is kept by a read of any width. -/
theorem Region.readBytes_keeps (P : Region → Prop) (acc : Word) (hP : ∀ o r, P r → P (r.readByte acc o).2)
    (top n o : Nat) (r : Region) (h : P r) : P (r.readBytes acc top n o).2 := by
  induction n generalizing o r with
  | zero => exact h
  | succ n ih =>
    have h1 := hP o r h
    unfold Region.readBytes
    split
    · exact h
    · rcases hb : r.readByte acc o with ⟨_ | b, r1⟩ <;> rw [hb] at h1
      · exact h1
      · have h2 := ih (o + 1) r1 h1
        rcases hbs : r1.readBytes acc top n (o + 1) with ⟨_ | bs, r2⟩ <;> rw [hbs] at h2
        · simpa [hbs] using h2
        · simpa [hbs] using h2

/-- A property that every byte write keeps is kept by a write of any width. -/
theorem Region.writeBytes_keeps (P : Region → Prop) (acc : Word) (bytes : List Byte) (top o : Nat)
    (hP : ∀ k b r, o ≤ k → k < o + bytes.length → P r → P (r.writeByte acc k b).2) (r : Region) (h : P r) :
    P (r.writeBytes acc top o bytes).2 := by
  induction bytes generalizing o r with
  | nil => exact h
  | cons b bs ih =>
    have h1 := hP o b r (Nat.le_refl o) (by simp only [List.length_cons]; omega) h
    unfold Region.writeBytes
    split
    · exact h
    · rcases hb : r.writeByte acc o b with ⟨_ | u, r1⟩ <;> rw [hb] at h1
      · exact h1
      · exact ih (o + 1) (fun k b r hk hk' => hP k b r (by omega) (by simp only [List.length_cons]; omega)) r1 h1

@[simp] theorem Region.readBytes_shape (acc : Word) (top n o : Nat) (r : Region) :
    (r.readBytes acc top n o).2.shape = r.shape :=
  Region.readBytes_keeps (fun r' => r'.shape = r.shape) acc (fun _ _ h => by simpa using h) top n o r rfl

@[simp] theorem Region.writeBytes_shape (acc : Word) (bytes : List Byte) (top o : Nat) (r : Region) :
    (r.writeBytes acc top o bytes).2.shape = r.shape :=
  Region.writeBytes_keeps (fun r' => r'.shape = r.shape) acc bytes top o (fun _ _ _ _ _ h => by simpa using h) r rfl

@[simp] theorem Region.readBytes_peek (acc : Word) (top n o k : Nat) (r : Region) :
    (r.readBytes acc top n o).2.peek k = r.peek k :=
  Region.readBytes_keeps (fun r' => r'.peek k = r.peek k) acc (fun _ _ h => by simpa using h) top n o r rfl

/-- A write of several bytes changes no byte of the buffer outside them. -/
theorem Region.writeBytes_peek (acc : Word) (bytes : List Byte) (top o k : Nat) (r : Region)
    (hk : k < o ∨ o + bytes.length ≤ k) : (r.writeBytes acc top o bytes).2.peek k = r.peek k :=
  Region.writeBytes_keeps (fun r' => r'.peek k = r.peek k) acc bytes top o
    (fun j b r' h1 h2 h => by rw [Region.writeByte_peek acc j k b r' (by omega)]; exact h) r rfl

theorem Region.readBytes_wf (acc : Word) (top n o : Nat) (r : Region) (h : r.wf = true) :
    (r.readBytes acc top n o).2.wf = true :=
  Region.readBytes_keeps (fun r' => r'.wf = true) acc (fun o r' => Region.readByte_wf acc o r') top n o r h

theorem Region.writeBytes_wf (acc : Word) (bytes : List Byte) (top o : Nat) (r : Region) (h : r.wf = true) :
    (r.writeBytes acc top o bytes).2.wf = true :=
  Region.writeBytes_keeps (fun r' => r'.wf = true) acc bytes top o (fun k b r' _ _ => Region.writeByte_wf acc k b r') r h

/-- The contents of a ROM region. -/
theorem Region.readBytes_rom (acc : Word) (top n o size : Nat) (buf : Memory) :
    (Region.readBytes acc top n o (.rom size buf)).2 = .rom size buf :=
  Region.readBytes_keeps (fun r' => r' = .rom size buf) acc (fun _ _ h => by subst h; rfl) top n o _ rfl

theorem Region.readBytes_ram (acc : Word) (top n o size : Nat) (buf : Memory) :
    (Region.readBytes acc top n o (.ram size buf)).2 = .ram size buf :=
  Region.readBytes_keeps (fun r' => r' = .ram size buf) acc (fun _ _ h => by subst h; rfl) top n o _ rfl

/-- A write to a ROM changes nothing and, unless it is empty, is fatal at its first byte (R66). -/
theorem Region.writeBytes_rom (acc : Word) (top o size : Nat) (b : Byte) (bs : List Byte) (buf : Memory) (h : o < top) :
    Region.writeBytes acc top o (b :: bs) (.rom size buf) = (.error (.romWrite acc), .rom size buf) := by
  simp only [Region.writeBytes, if_neg (Nat.not_le.mpr h), Region.writeByte]

theorem Region.writeBytes_rom_snd (acc : Word) (top o size : Nat) (bytes : List Byte) (buf : Memory) :
    (Region.writeBytes acc top o bytes (.rom size buf)).2 = .rom size buf :=
  Region.writeBytes_keeps (fun r' => r' = .rom size buf) acc bytes top o (fun _ _ _ _ _ h => by subst h; rfl) _ rfl

/-! ## The bytes of an access: what they answer -/

/-- A read answers the bytes that stand there, when all of them are bytes of a buffer below the top of the address
space (R56). -/
theorem Region.readBytes_ok (acc : Word) (top o : Nat) (r : Region) (bs : List Byte)
    (h : ∀ i (hi : i < bs.length), o + i < top ∧ r.peek (o + i) = some bs[i]) :
    r.readBytes acc top bs.length o = (.ok bs, r) := by
  induction bs generalizing o with
  | nil => rfl
  | cons b bs ih =>
    obtain ⟨h1, h2⟩ := h 0 (by simp)
    have hrest := ih (o + 1) fun i hi => by
      obtain ⟨h3, h4⟩ := h (i + 1) (by simpa using hi)
      rw [Nat.add_assoc, Nat.add_comm 1 i]
      exact ⟨h3, by simpa using h4⟩
    have hb : r.readByte acc o = (.ok b, r) := by
      simp only [Nat.add_zero, List.getElem_cons_zero] at h2
      cases r with
      | ram size buf =>
        simp only [Region.peek] at h2
        split at h2
        · next hs => simp only [Region.readByte, if_pos hs]; rw [Option.some.inj h2]
        · cases h2
      | rom size buf =>
        simp only [Region.peek] at h2
        split at h2
        · next hs => simp only [Region.readByte, if_pos hs]; rw [Option.some.inj h2]
        · cases h2
      | uart dev => cases h2
    simp only [List.length_cons, Region.readBytes, if_neg (show ¬ top ≤ o by omega), hb, hrest]

/-- The buffer after the bytes of a write inside it. -/
theorem Region.writeBytes_ram (acc : Word) (top o size : Nat) (bytes : List Byte) (buf : Memory)
    (h1 : o + bytes.length ≤ size) (h2 : o + bytes.length ≤ top) :
    ∃ buf', Region.writeBytes acc top o bytes (.ram size buf) = (.ok (), .ram size buf') ∧
      (Cells.wf buf = true → ∀ i (hi : i < bytes.length), Cells.get buf' (o + i) = bytes[i]) ∧
      (∀ k, k < o ∨ o + bytes.length ≤ k → Cells.get buf' k = Cells.get buf k) := by
  induction bytes generalizing o buf with
  | nil => exact ⟨buf, rfl, fun _ i hi => by simp at hi, fun _ _ => rfl⟩
  | cons b bs ih =>
    simp only [List.length_cons] at h1 h2
    obtain ⟨buf', he, hin, hout⟩ := ih (o + 1) (Cells.set buf o b) (by omega) (by omega)
    refine ⟨buf', ?_, fun hwf i hi => ?_, fun k hk => ?_⟩
    · simp only [Region.writeBytes, if_neg (show ¬ top ≤ o by omega), Region.writeByte, if_pos (show o < size by omega), he]
    · cases i with
      | zero =>
        rw [Nat.add_zero, hout o (.inl (by omega)), Cells.get_set_self o b (Cells.rising_of_wf hwf)]
        rfl
      | succ i =>
        have := hin (Cells.wf_set o b hwf) i (by simpa using hi)
        rw [Nat.add_assoc, Nat.add_comm 1 i] at this
        simpa using this
    · simp only [List.length_cons] at hk
      rw [hout k (by omega), Cells.get_set_other buf o k b (by omega)]

/-- A write of a list of bytes is the write of its front, then of its rest. -/
theorem Region.writeBytes_append (acc : Word) (top o : Nat) (xs ys : List Byte) (r : Region) :
    Region.writeBytes acc top o (xs ++ ys) r =
      match Region.writeBytes acc top o xs r with
      | (.ok _, r1) => Region.writeBytes acc top (o + xs.length) ys r1
      | (.error f, r1) => (.error f, r1) := by
  induction xs generalizing o r with
  | nil => rfl
  | cons x xs ih =>
    simp only [List.cons_append, Region.writeBytes]
    split
    · rfl
    · rcases r.writeByte acc o x with ⟨f | u, r1⟩
      · rfl
      · simp only [ih, List.length_cons]
        rw [show o + 1 + xs.length = o + (xs.length + 1) by omega]

/-- A read that goes past the buffer, or past the top of the address space, is fatal at that byte and reports the address
of its first one (R58, R59). -/
theorem Region.readBytes_past (acc : Word) (top o n : Nat) (r : Region) (bs : List Byte) (hr : r.shape ≠ .uart)
    (h : ∀ i (hi : i < bs.length), o + i < top ∧ r.peek (o + i) = some bs[i]) (hn : bs.length < n)
    (hp : top ≤ o + bs.length ∨ r.peek (o + bs.length) = none) :
    r.readBytes acc top n o = (.error (.address acc), r) := by
  induction bs generalizing o n with
  | nil =>
    obtain ⟨n, rfl⟩ : ∃ k, n = k + 1 := ⟨n - 1, by simp at hn; omega⟩
    simp only [List.length_nil, Nat.add_zero] at hp
    simp only [Region.readBytes]
    split
    · rfl
    · next ht =>
      have hp := hp.resolve_left ht
      cases r with
      | ram size buf => simp only [Region.peek] at hp; split at hp; cases hp; next hs => simp [Region.readByte, hs]
      | rom size buf => simp only [Region.peek] at hp; split at hp; cases hp; next hs => simp [Region.readByte, hs]
      | uart dev => exact absurd rfl hr
  | cons b bs ih =>
    obtain ⟨n, rfl⟩ : ∃ k, n = k + 1 := ⟨n - 1, by simp at hn; omega⟩
    obtain ⟨h1, h2⟩ := h 0 (by simp)
    have hrest := ih (o + 1) n (fun i hi => by
      obtain ⟨h3, h4⟩ := h (i + 1) (by simpa using hi)
      rw [Nat.add_assoc, Nat.add_comm 1 i]
      exact ⟨h3, by simpa using h4⟩) (by simpa using hn) (by simpa [Nat.add_assoc, Nat.add_comm 1] using hp)
    have hb : r.readByte acc o = (.ok b, r) := by
      simp only [Nat.add_zero, List.getElem_cons_zero] at h2
      cases r with
      | ram size buf =>
        simp only [Region.peek] at h2
        split at h2
        · next hs => simp only [Region.readByte, if_pos hs]; rw [Option.some.inj h2]
        · cases h2
      | rom size buf =>
        simp only [Region.peek] at h2
        split at h2
        · next hs => simp only [Region.readByte, if_pos hs]; rw [Option.some.inj h2]
        · cases h2
      | uart dev => cases h2
    simp only [Region.readBytes, if_neg (show ¬ top ≤ o by omega), hb, hrest]

/-! ## Routing -/

theorem Bus.route_none {β : Type} {a : Word} {bus : Bus} (access : Mapping → Except Fatal β × Region)
    (h : Bus.lookup a bus = none) : Bus.route a access bus = (.error (.address a), bus) := by
  induction bus with
  | nil => rfl
  | cons m rest ih =>
    simp only [Bus.lookup] at h
    split at h
    · cases h
    · next hm => simp only [Bus.route, hm, Bool.false_eq_true, if_false, ih h]

theorem Bus.route_fst {β : Type} {a : Word} {bus : Bus} {m : Mapping} (access : Mapping → Except Fatal β × Region)
    (h : Bus.lookup a bus = some m) : (Bus.route a access bus).1 = (access m).1 := by
  induction bus with
  | nil => cases h
  | cons m' rest ih =>
    simp only [Bus.lookup] at h
    simp only [Bus.route]
    split at h
    · next hm => rw [if_pos hm]; cases h; rfl
    · next hm => rw [if_neg hm]; exact ih h

theorem Bus.holds_of_lookup {a : Word} {bus : Bus} {m : Mapping} (h : Bus.lookup a bus = some m) : m.holds a = true := by
  induction bus with
  | nil => cases h
  | cons m' rest ih =>
    simp only [Bus.lookup] at h
    split at h
    · next hm => cases h; exact hm
    · exact ih h

/-- After an access the tuple of its address has the region the access left. -/
theorem Bus.lookup_route_self {β : Type} {a : Word} {bus : Bus} {m : Mapping}
    (access : Mapping → Except Fatal β × Region) (h : Bus.lookup a bus = some m) :
    Bus.lookup a (Bus.route a access bus).2 = some { m with region := (access m).2 } := by
  induction bus with
  | nil => cases h
  | cons m' rest ih =>
    simp only [Bus.lookup] at h
    simp only [Bus.route]
    split at h
    · next hm =>
      cases h
      rw [if_pos hm]
      have : Mapping.holds { m with region := (access m).2 } a = true := hm
      simp only [Bus.lookup, this, if_true]
    · next hm =>
      rw [if_neg hm]
      simp only [Bus.lookup, hm, if_false, Bool.false_eq_true]
      exact ih h

/-- After an access any address has the tuple it had, but for the region of the accessed tuple. -/
theorem Bus.lookup_route {β : Type} {a : Word} {bus : Bus} {m : Mapping} (access : Mapping → Except Fatal β × Region)
    (h : Bus.lookup a bus = some m) (c : Word) :
    Bus.lookup c (Bus.route a access bus).2 = Bus.lookup c bus ∨
      (Bus.lookup c bus = some m ∧
        Bus.lookup c (Bus.route a access bus).2 = some { m with region := (access m).2 }) := by
  induction bus with
  | nil => cases h
  | cons m' rest ih =>
    simp only [Bus.lookup] at h
    simp only [Bus.route]
    split at h
    · next hm =>
      cases h
      rw [if_pos hm]
      simp only [Bus.lookup]
      have : Mapping.holds { m with region := (access m).2 } c = m.holds c := rfl
      rw [this]
      split
      · exact .inr ⟨rfl, rfl⟩
      · exact .inl rfl
    · next hm =>
      rw [if_neg hm]
      simp only [Bus.lookup]
      split
      · exact .inl rfl
      · exact ih h

/-- The routed tuple, with the tuples before it, which do not hold the address (R53). -/
theorem Bus.split_of_lookup {a : Word} {bus : Bus} {m : Mapping} (h : Bus.lookup a bus = some m) :
    ∃ pre post, bus = pre ++ m :: post ∧ ∀ m' ∈ pre, m'.holds a = false := by
  induction bus with
  | nil => cases h
  | cons m' rest ih =>
    simp only [Bus.lookup] at h
    split at h
    · cases h; exact ⟨[], rest, rfl, by simp⟩
    · next hm =>
      obtain ⟨pre, post, rfl, hp⟩ := ih h
      exact ⟨m' :: pre, post, rfl, List.forall_mem_cons.2 ⟨by simpa using hm, hp⟩⟩

theorem Bus.lookup_append {a : Word} {pre : Bus} {m : Mapping} (post : Bus) (hm : m.holds a = true)
    (hp : ∀ m' ∈ pre, m'.holds a = false) : Bus.lookup a (pre ++ m :: post) = some m := by
  induction pre with
  | nil => simp [Bus.lookup, hm]
  | cons m' pre ih =>
    simp only [List.mem_cons, forall_eq_or_imp] at hp
    simp [Bus.lookup, hp.1, ih hp.2]

/-- Routing changes the region of the first tuple that holds the address and nothing else. -/
theorem Bus.route_append {β : Type} {a : Word} {pre : Bus} {m : Mapping} (post : Bus)
    (access : Mapping → Except Fatal β × Region) (hm : m.holds a = true) (hp : ∀ m' ∈ pre, m'.holds a = false) :
    (Bus.route a access (pre ++ m :: post)).2 = pre ++ { m with region := (access m).2 } :: post := by
  induction pre with
  | nil => simp [Bus.route, hm]
  | cons m' pre ih =>
    simp only [List.mem_cons, forall_eq_or_imp] at hp
    simp [Bus.route, hp.1, ih hp.2]

/-- An address with another tuple than the accessed one keeps its tuple whole. -/
theorem Bus.lookup_route_of_ne {β : Type} {a c : Word} {bus : Bus} (access : Mapping → Except Fatal β × Region)
    (h : Bus.lookup c bus ≠ Bus.lookup a bus) : Bus.lookup c (Bus.route a access bus).2 = Bus.lookup c bus := by
  rcases hl : Bus.lookup a bus with _ | m
  · rw [Bus.route_none access hl]
  · rcases Bus.lookup_route access hl c with h1 | ⟨h1, -⟩
    · exact h1
    · exact absurd (h1.trans hl.symm) h

/-- A property of the entries that the access keeps is kept by routing. -/
theorem Bus.route_map {β γ : Type} (f : Mapping → γ) {a : Word} (access : Mapping → Except Fatal β × Region)
    (hf : ∀ m : Mapping, f { m with region := (access m).2 } = f m) (bus : Bus) :
    (Bus.route a access bus).2.map f = bus.map f := by
  induction bus with
  | nil => rfl
  | cons m rest ih =>
    simp only [Bus.route]
    split
    · simp only [List.map_cons, hf]
    · simp only [List.map_cons, ih]

theorem Bus.route_shape {β : Type} {a : Word} (access : Mapping → Except Fatal β × Region)
    (h : ∀ m : Mapping, (access m).2.shape = m.region.shape) (bus : Bus) :
    Bus.shape (Bus.route a access bus).2 = Bus.shape bus :=
  Bus.route_map (fun m => (m.start, m.stop, m.region.shape)) access (fun m => by simp only [h]) bus

theorem Bus.route_wf {β : Type} {a : Word} (access : Mapping → Except Fatal β × Region)
    (h : ∀ m : Mapping, m.region.wf = true → (access m).2.wf = true) (bus : Bus) (hb : Bus.wf bus = true) :
    Bus.wf (Bus.route a access bus).2 = true := by
  induction bus with
  | nil => exact hb
  | cons m rest ih =>
    simp only [Bus.wf, List.all_cons, Bool.and_eq_true] at hb
    simp only [Bus.route]
    split
    · simp only [Bus.wf, List.all_cons, Bool.and_eq_true]; exact ⟨h m hb.1, hb.2⟩
    · simp only [Bus.wf, List.all_cons, Bool.and_eq_true]; exact ⟨hb.1, ih hb.2⟩

/-- The byte at an address is unchanged if the access leaves it in the region it is given. -/
theorem Bus.route_peek {β : Type} {a : Word} (access : Mapping → Except Fatal β × Region) (c : Word) (bus : Bus)
    (h : ∀ m : Mapping, Bus.lookup a bus = some m → m.holds c = true →
      (access m).2.peek (m.offset c) = m.region.peek (m.offset c)) :
    Bus.peek c (Bus.route a access bus).2 = Bus.peek c bus := by
  rcases hl : Bus.lookup a bus with _ | m
  · rw [Bus.route_none access hl]
  · rcases Bus.lookup_route access hl c with h1 | ⟨h1, h2⟩
    · simp only [Bus.peek, h1]
    · simp only [Bus.peek, h1, h2]
      exact h m hl (Bus.holds_of_lookup h1)

theorem Bus.route_romContents {β : Type} {a : Word} (access : Mapping → Except Fatal β × Region)
    (hr : ∀ (m : Mapping) size buf, m.region = .rom size buf → (access m).2 = .rom size buf)
    (hs : ∀ m : Mapping, (access m).2.shape = m.region.shape) (bus : Bus) :
    Bus.romContents (Bus.route a access bus).2 = Bus.romContents bus := by
  induction bus with
  | nil => rfl
  | cons m rest ih =>
    simp only [Bus.route]
    split
    · have hm := hs m
      rcases hreg : m.region with ⟨size, buf⟩ | ⟨size, buf⟩ | dev
      · rw [hreg] at hm
        rcases hacc : (access m).2 with ⟨size', buf'⟩ | ⟨size', buf'⟩ | dev' <;> rw [hacc] at hm
        · simp [Bus.romContents, hreg]
        · cases hm
        · cases hm
      · simp [Bus.romContents, hreg, hr m size buf hreg]
      · rw [hreg] at hm
        rcases hacc : (access m).2 with ⟨size', buf'⟩ | ⟨size', buf'⟩ | dev' <;> rw [hacc] at hm
        · cases hm
        · cases hm
        · simp [Bus.romContents, hreg]
    · simp only [Bus.romContents, List.filterMap_cons] at ih ⊢
      rw [ih]

/-! ## Reads and writes through the bus -/

@[simp] theorem Bus.read_shape (a : Word) (n : Nat) (bus : Bus) : Bus.shape (Bus.read a n bus).2 = Bus.shape bus :=
  Bus.route_shape _ (fun m => Region.readBytes_shape a m.top n (m.offset a) m.region) bus

@[simp] theorem Bus.write_shape (a : Word) (bytes : List Byte) (bus : Bus) :
    Bus.shape (Bus.write a bytes bus).2 = Bus.shape bus :=
  Bus.route_shape _ (fun m => Region.writeBytes_shape a bytes m.top (m.offset a) m.region) bus

theorem Bus.read_wf (a : Word) (n : Nat) (bus : Bus) (h : Bus.wf bus = true) : Bus.wf (Bus.read a n bus).2 = true :=
  Bus.route_wf _ (fun m => Region.readBytes_wf a m.top n (m.offset a) m.region) bus h

theorem Bus.write_wf (a : Word) (bytes : List Byte) (bus : Bus) (h : Bus.wf bus = true) :
    Bus.wf (Bus.write a bytes bus).2 = true :=
  Bus.route_wf _ (fun m => Region.writeBytes_wf a bytes m.top (m.offset a) m.region) bus h

@[simp] theorem Bus.read_romContents (a : Word) (n : Nat) (bus : Bus) :
    Bus.romContents (Bus.read a n bus).2 = Bus.romContents bus :=
  Bus.route_romContents _ (fun m size buf h => by simp only [h]; exact Region.readBytes_rom a m.top n (m.offset a) size buf)
    (fun m => Region.readBytes_shape a m.top n (m.offset a) m.region) bus

@[simp] theorem Bus.write_romContents (a : Word) (bytes : List Byte) (bus : Bus) :
    Bus.romContents (Bus.write a bytes bus).2 = Bus.romContents bus :=
  Bus.route_romContents _
    (fun m size buf h => by simp only [h]; exact Region.writeBytes_rom_snd a m.top (m.offset a) size bytes buf)
    (fun m => Region.writeBytes_shape a bytes m.top (m.offset a) m.region) bus

/-- A read changes no byte of RAM or ROM (R71). -/
@[simp] theorem Bus.read_peek (a : Word) (n : Nat) (bus : Bus) (c : Word) :
    Bus.peek c (Bus.read a n bus).2 = Bus.peek c bus :=
  Bus.route_peek _ c bus (fun m _ _ => Region.readBytes_peek a m.top n (m.offset a) (m.offset c) m.region)

/-- A write changes no byte of RAM or ROM outside the bytes at `a`, `a + 1`, … (R57). -/
theorem Bus.write_peek (a : Word) (bytes : List Byte) (bus : Bus) (c : Word)
    (h : c.toNat < a.toNat ∨ a.toNat + bytes.length ≤ c.toNat) :
    Bus.peek c (Bus.write a bytes bus).2 = Bus.peek c bus := by
  refine Bus.route_peek _ c bus fun m hl hc => Region.writeBytes_peek a bytes m.top (m.offset a) (m.offset c) m.region ?_
  have ha := Bus.holds_of_lookup hl
  simp only [Mapping.holds, Bool.and_eq_true, decide_eq_true_eq] at ha hc
  simp only [Mapping.offset]
  omega

/-- A read of bytes that stand in one buffer answers them and changes nothing (R56, R64). -/
theorem Bus.read_ok {a : Word} {bus : Bus} {m : Mapping} (bs : List Byte) (hl : Bus.lookup a bus = some m)
    (h : ∀ i (hi : i < bs.length), a.toNat + i < 2 ^ 64 ∧ m.region.peek (m.offset a + i) = some bs[i]) :
    (Bus.read a bs.length bus).1 = .ok bs := by
  unfold Bus.read
  rw [Bus.route_fst _ hl]
  have ha := Bus.holds_of_lookup hl
  simp only [Mapping.holds, Bool.and_eq_true, decide_eq_true_eq] at ha
  rw [Region.readBytes_ok]
  intro i hi
  obtain ⟨h1, h2⟩ := h i hi
  refine ⟨?_, h2⟩
  simp only [Mapping.offset, Mapping.top]
  omega

/-- An access that leaves the region of its tuple as it is leaves the bus as it is. -/
theorem Bus.route_id {β : Type} {a : Word} (access : Mapping → Except Fatal β × Region) (bus : Bus)
    (h : ∀ m, Bus.lookup a bus = some m → (access m).2 = m.region) : (Bus.route a access bus).2 = bus := by
  induction bus with
  | nil => rfl
  | cons m rest ih =>
    simp only [Bus.route]
    simp only [Bus.lookup] at h
    split
    · next hm => simp only [hm, if_true] at h; rw [h m rfl]
    · next hm => simp only [hm, Bool.false_eq_true, if_false] at h; rw [ih h]

/-- A read that is not given to a UART changes nothing (R71). -/
theorem Bus.read_buffer (a : Word) (n : Nat) (bus : Bus)
    (h : ∀ m, Bus.lookup a bus = some m → m.region.shape ≠ .uart) : (Bus.read a n bus).2 = bus := by
  refine Bus.route_id _ bus fun m hl => ?_
  have hm := h m hl
  rcases hreg : m.region with ⟨size, buf⟩ | ⟨size, buf⟩ | dev
  · exact Region.readBytes_ram a m.top n (m.offset a) size buf
  · exact Region.readBytes_rom a m.top n (m.offset a) size buf
  · rw [hreg] at hm; exact absurd rfl hm

/-! ## The host's operations and setup -/

@[simp] theorem Bus.uartReceive_shape (b : Byte) (bus : Bus) : Bus.shape (Bus.uartReceive b bus) = Bus.shape bus := by
  induction bus with
  | nil => rfl
  | cons m rest ih =>
    simp only [Bus.uartReceive]
    simp only [Bus.shape] at ih
    split
    · next h => simp [Bus.shape, h, Region.shape]
    · simp [Bus.shape, ih]
    · simp [Bus.shape, ih]

theorem Bus.uartReceive_wf (b : Byte) (bus : Bus) (h : Bus.wf bus = true) : Bus.wf (Bus.uartReceive b bus) = true := by
  induction bus with
  | nil => exact h
  | cons m rest ih =>
    simp only [Bus.wf, List.all_cons, Bool.and_eq_true] at h
    simp only [Bus.uartReceive]
    split
    · next dev hr =>
      simp only [Bus.wf, List.all_cons, Bool.and_eq_true]
      refine ⟨?_, h.2⟩
      rw [hr] at h
      simp only [Region.wf, Bool.and_eq_true, decide_eq_true_eq] at h ⊢
      exact ⟨fifoPush_bound dev.rxq b h.1.1, h.1.2⟩
    · simp only [Bus.wf, List.all_cons, Bool.and_eq_true]; exact ⟨h.1, ih h.2⟩
    · simp only [Bus.wf, List.all_cons, Bool.and_eq_true]; exact ⟨h.1, ih h.2⟩

theorem Region.ofKind_wf (lsr : Byte) (k : RegionKind) : (Region.ofKind lsr k).wf = true := by
  cases k with
  | ram size image =>
    simp only [Region.ofKind, Region.wf, Bool.and_eq_true]
    exact ⟨Memory.ofImage_wf _, Memory.ofImage_below _ (List.length_take_le _ _)⟩
  | rom size image =>
    simp only [Region.ofKind, Region.wf, Bool.and_eq_true]
    exact ⟨Memory.ofImage_wf _, Memory.ofImage_below _ (List.length_take_le _ _)⟩
  | uart => rfl

/-- The buffers that setup builds have the canonical form, so `State.reset` has it. -/
theorem Bus.ofConfig_wf (cfg : Config) : Bus.wf (Bus.ofConfig cfg) = true := by
  simp only [Bus.wf, Bus.ofConfig, List.all_eq_true, List.mem_map]
  rintro m ⟨e, -, rfl⟩
  exact Region.ofKind_wf _ _

/-! ## Bytes and values -/

@[simp] theorem leBytes_length (n : Nat) (v : Word) : (leBytes n v).length = n := by
  induction n generalizing v with
  | zero => rfl
  | succ n ih => simp [leBytes, ih]

/-- Byte i of an access of n bytes is bits 8i+7 to 8i of the value (R57, R60). -/
theorem leBytes_getElem (n i : Nat) (v : Word) (h : i < (leBytes n v).length) :
    (leBytes n v)[i] = (v >>> (8 * i)).setWidth 8 := by
  induction n generalizing v i with
  | zero => simp [leBytes] at h
  | succ n ih =>
    cases i with
    | zero => simp [leBytes]
    | succ i =>
      simp only [leBytes, List.getElem_cons_succ]
      rw [ih]
      rw [show 8 * (i + 1) = 8 + 8 * i by ring, BitVec.shiftRight_add]

/-- The bytes of a longer access are those of a shorter one, then the rest. -/
theorem leBytes_append (k m : Nat) (v : Word) : leBytes (k + m) v = leBytes k v ++ leBytes m (v >>> (8 * k)) := by
  induction k generalizing v with
  | zero => simp [leBytes]
  | succ k ih =>
    rw [show k + 1 + m = (k + m) + 1 by omega]
    simp only [leBytes, ih, List.cons_append]
    rw [show 8 * (k + 1) = 8 + 8 * k by ring, BitVec.shiftRight_add]

/-- Bit i of the bytes of an access put together again. -/
theorem leValue_leBytes_getLsbD (n : Nat) (v : Word)
    (i : Nat) : (leValue (leBytes n v)).getLsbD i = (decide (i < 8 * n) && v.getLsbD i) := by
  induction n generalizing v i with
  | zero => simp [leBytes, leValue]
  | succ n ih =>
    simp only [leBytes, leValue, BitVec.getLsbD_or, BitVec.getLsbD_setWidth, BitVec.getLsbD_shiftLeft, ih, BitVec.getLsbD_ushiftRight]
    by_cases h : i < 8
    · simp [h, show i < 64 by omega, show i < 8 * (n+1) by omega]
    · by_cases h6 : i < 64
      · simp [h, h6, show 8 + (i - 8) = i by omega, show (i - 8 < 8 * n ↔ i < 8 * (n+1)) by omega]
      · simp [h, h6, BitVec.getLsbD_of_ge v i (by omega)]

/-- Narrowing to n bytes: what a read gives of the bytes a write put there (R56, R57). -/
theorem leValue_leBytes (n : Nat) (v : Word) : leValue (leBytes n v) = v &&& BitVec.ofNat 64 (2 ^ (8 * n) - 1) := by
  apply BitVec.eq_of_getLsbD_eq; intro i hi
  rw [leValue_leBytes_getLsbD, BitVec.getLsbD_and, BitVec.getLsbD_ofNat, Nat.testBit_two_pow_sub_one, Bool.and_comm]
  simp [hi]

end Sys2Proof.Machine
end

