-- ==== Sys2Proof/Laws/Encoding.lean ====
section
/-! SUPPORT. Every field of a packed word reads as it was packed: the laws that decoding and encoding agree by. -/

namespace Sys2Proof

theorem getLsbD_of_lowZero {w k j : Nat} {v : BitVec w} (h : lowZero k v = true) (hj : j < k) : v.getLsbD j = false := by
  simp only [lowZero, beq_iff_eq] at h
  have := congrArg (fun z => z.getLsbD j) h
  simpa [hj] using this

/-- The length bits of a word are the low bits of its opcode field (R90, R93). -/
theorem lowBits_opcodeOf (w : BitVec 32) : w.extractLsb' 0 2 = (opcodeOf w).extractLsb' 0 2 := by
  apply BitVec.eq_of_getLsbD_eq
  intro i hi
  simp only [opcodeOf, BitVec.getLsbD_extractLsb']
  interval_cases i <;> simp

/-- The length bits of a word are the quadrant field of its low half (R90, R115). -/
theorem lowBits_quadrantOf (w : BitVec 32) : w.extractLsb' 0 2 = quadrantOf (w.extractLsb' 0 16) := by
  apply BitVec.eq_of_getLsbD_eq
  intro i hi
  simp only [quadrantOf, BitVec.getLsbD_extractLsb']
  interval_cases i <;> simp

/-! ## Standard words -/

@[simp] theorem opcodeOf_packR (f7 : BitVec 7) (r2 r1 : Reg) (f3 : BitVec 3) (rd : Reg) (op : BitVec 7) :
    opcodeOf (packR f7 r2 r1 f3 rd op) = op := by
  apply BitVec.eq_of_getLsbD_eq
  intro i hi
  simp only [opcodeOf, packR, BitVec.getLsbD_append, BitVec.getLsbD_extractLsb']
  interval_cases i <;> simp

@[simp] theorem rdOf_packR (f7 : BitVec 7) (r2 r1 : Reg) (f3 : BitVec 3) (rd : Reg) (op : BitVec 7) :
    rdOf (packR f7 r2 r1 f3 rd op) = rd := by
  apply BitVec.eq_of_getLsbD_eq
  intro i hi
  simp only [rdOf, packR, BitVec.getLsbD_append, BitVec.getLsbD_extractLsb']
  interval_cases i <;> simp

@[simp] theorem funct3Of_packR (f7 : BitVec 7) (r2 r1 : Reg) (f3 : BitVec 3) (rd : Reg) (op : BitVec 7) :
    funct3Of (packR f7 r2 r1 f3 rd op) = f3 := by
  apply BitVec.eq_of_getLsbD_eq
  intro i hi
  simp only [funct3Of, packR, BitVec.getLsbD_append, BitVec.getLsbD_extractLsb']
  interval_cases i <;> simp

@[simp] theorem rs1Of_packR (f7 : BitVec 7) (r2 r1 : Reg) (f3 : BitVec 3) (rd : Reg) (op : BitVec 7) :
    rs1Of (packR f7 r2 r1 f3 rd op) = r1 := by
  apply BitVec.eq_of_getLsbD_eq
  intro i hi
  simp only [rs1Of, packR, BitVec.getLsbD_append, BitVec.getLsbD_extractLsb']
  interval_cases i <;> simp

@[simp] theorem rs2Of_packR (f7 : BitVec 7) (r2 r1 : Reg) (f3 : BitVec 3) (rd : Reg) (op : BitVec 7) :
    rs2Of (packR f7 r2 r1 f3 rd op) = r2 := by
  apply BitVec.eq_of_getLsbD_eq
  intro i hi
  simp only [rs2Of, packR, BitVec.getLsbD_append, BitVec.getLsbD_extractLsb']
  interval_cases i <;> simp

@[simp] theorem shamtOf_packR (f7 : BitVec 7) (r2 r1 : Reg) (f3 : BitVec 3) (rd : Reg) (op : BitVec 7) :
    shamtOf (packR f7 r2 r1 f3 rd op) = r2 := by
  apply BitVec.eq_of_getLsbD_eq
  intro i hi
  simp only [shamtOf, packR, BitVec.getLsbD_append, BitVec.getLsbD_extractLsb']
  interval_cases i <;> simp

@[simp] theorem funct7Of_packR (f7 : BitVec 7) (r2 r1 : Reg) (f3 : BitVec 3) (rd : Reg) (op : BitVec 7) :
    funct7Of (packR f7 r2 r1 f3 rd op) = f7 := by
  apply BitVec.eq_of_getLsbD_eq
  intro i hi
  simp only [funct7Of, packR, BitVec.getLsbD_append, BitVec.getLsbD_extractLsb']
  interval_cases i <;> simp

@[simp] theorem opcodeOf_packI (imm : BitVec 12) (r1 : Reg) (f3 : BitVec 3) (rd : Reg) (op : BitVec 7) :
    opcodeOf (packI imm r1 f3 rd op) = op := by
  apply BitVec.eq_of_getLsbD_eq
  intro i hi
  simp only [opcodeOf, packI, BitVec.getLsbD_append, BitVec.getLsbD_extractLsb']
  interval_cases i <;> simp

@[simp] theorem rdOf_packI (imm : BitVec 12) (r1 : Reg) (f3 : BitVec 3) (rd : Reg) (op : BitVec 7) :
    rdOf (packI imm r1 f3 rd op) = rd := by
  apply BitVec.eq_of_getLsbD_eq
  intro i hi
  simp only [rdOf, packI, BitVec.getLsbD_append, BitVec.getLsbD_extractLsb']
  interval_cases i <;> simp

@[simp] theorem funct3Of_packI (imm : BitVec 12) (r1 : Reg) (f3 : BitVec 3) (rd : Reg) (op : BitVec 7) :
    funct3Of (packI imm r1 f3 rd op) = f3 := by
  apply BitVec.eq_of_getLsbD_eq
  intro i hi
  simp only [funct3Of, packI, BitVec.getLsbD_append, BitVec.getLsbD_extractLsb']
  interval_cases i <;> simp

@[simp] theorem rs1Of_packI (imm : BitVec 12) (r1 : Reg) (f3 : BitVec 3) (rd : Reg) (op : BitVec 7) :
    rs1Of (packI imm r1 f3 rd op) = r1 := by
  apply BitVec.eq_of_getLsbD_eq
  intro i hi
  simp only [rs1Of, packI, BitVec.getLsbD_append, BitVec.getLsbD_extractLsb']
  interval_cases i <;> simp

@[simp] theorem immIOf_packI (imm : BitVec 12) (r1 : Reg) (f3 : BitVec 3) (rd : Reg) (op : BitVec 7) :
    immIOf (packI imm r1 f3 rd op) = imm := by
  apply BitVec.eq_of_getLsbD_eq
  intro i hi
  simp only [immIOf, packI, BitVec.getLsbD_append, BitVec.getLsbD_extractLsb']
  interval_cases i <;> simp

@[simp] theorem opcodeOf_packS (imm : BitVec 12) (r2 r1 : Reg) (f3 : BitVec 3) (op : BitVec 7) : opcodeOf (packS imm r2 r1 f3 op) = op := opcodeOf_packR _ _ _ _ _ _

@[simp] theorem funct3Of_packS (imm : BitVec 12) (r2 r1 : Reg) (f3 : BitVec 3) (op : BitVec 7) : funct3Of (packS imm r2 r1 f3 op) = f3 := funct3Of_packR _ _ _ _ _ _

@[simp] theorem rs1Of_packS (imm : BitVec 12) (r2 r1 : Reg) (f3 : BitVec 3) (op : BitVec 7) : rs1Of (packS imm r2 r1 f3 op) = r1 := rs1Of_packR _ _ _ _ _ _

@[simp] theorem rs2Of_packS (imm : BitVec 12) (r2 r1 : Reg) (f3 : BitVec 3) (op : BitVec 7) : rs2Of (packS imm r2 r1 f3 op) = r2 := rs2Of_packR _ _ _ _ _ _

@[simp] theorem immSOf_packS (imm : BitVec 12) (r2 r1 : Reg) (f3 : BitVec 3) (op : BitVec 7) :
    immSOf (packS imm r2 r1 f3 op) = imm := by
  apply BitVec.eq_of_getLsbD_eq
  intro i hi
  simp only [immSOf, packS, packR, BitVec.getLsbD_append, BitVec.getLsbD_extractLsb']
  interval_cases i <;> simp

@[simp] theorem opcodeOf_packB (imm : BitVec 13) (r2 r1 : Reg) (f3 : BitVec 3) (op : BitVec 7) : opcodeOf (packB imm r2 r1 f3 op) = op := opcodeOf_packR _ _ _ _ _ _

@[simp] theorem funct3Of_packB (imm : BitVec 13) (r2 r1 : Reg) (f3 : BitVec 3) (op : BitVec 7) : funct3Of (packB imm r2 r1 f3 op) = f3 := funct3Of_packR _ _ _ _ _ _

@[simp] theorem rs1Of_packB (imm : BitVec 13) (r2 r1 : Reg) (f3 : BitVec 3) (op : BitVec 7) : rs1Of (packB imm r2 r1 f3 op) = r1 := rs1Of_packR _ _ _ _ _ _

@[simp] theorem rs2Of_packB (imm : BitVec 13) (r2 r1 : Reg) (f3 : BitVec 3) (op : BitVec 7) : rs2Of (packB imm r2 r1 f3 op) = r2 := rs2Of_packR _ _ _ _ _ _

theorem immBOf_packB (imm : BitVec 13) (r2 r1 : Reg) (f3 : BitVec 3) (op : BitVec 7) (h : lowZero 1 imm = true) :
    immBOf (packB imm r2 r1 f3 op) = imm := by
  have h0 : imm[0] = false := by simpa using getLsbD_of_lowZero h (show 0 < 1 by decide)
  apply BitVec.eq_of_getLsbD_eq
  intro i hi
  simp only [immBOf, packB, packR, BitVec.getLsbD_append, BitVec.getLsbD_extractLsb']
  interval_cases i <;> simp [h0]

@[simp] theorem opcodeOf_packU (imm : BitVec 20) (rd : Reg) (op : BitVec 7) :
    opcodeOf (packU imm rd op) = op := by
  apply BitVec.eq_of_getLsbD_eq
  intro i hi
  simp only [opcodeOf, packU, BitVec.getLsbD_append, BitVec.getLsbD_extractLsb']
  interval_cases i <;> simp

@[simp] theorem rdOf_packU (imm : BitVec 20) (rd : Reg) (op : BitVec 7) :
    rdOf (packU imm rd op) = rd := by
  apply BitVec.eq_of_getLsbD_eq
  intro i hi
  simp only [rdOf, packU, BitVec.getLsbD_append, BitVec.getLsbD_extractLsb']
  interval_cases i <;> simp

@[simp] theorem immUOf_packU (imm : BitVec 20) (rd : Reg) (op : BitVec 7) :
    immUOf (packU imm rd op) = imm := by
  apply BitVec.eq_of_getLsbD_eq
  intro i hi
  simp only [immUOf, packU, BitVec.getLsbD_append, BitVec.getLsbD_extractLsb']
  interval_cases i <;> simp

@[simp] theorem opcodeOf_packJ (imm : BitVec 21) (rd : Reg) (op : BitVec 7) : opcodeOf (packJ imm rd op) = op := opcodeOf_packU _ _ _

@[simp] theorem rdOf_packJ (imm : BitVec 21) (rd : Reg) (op : BitVec 7) : rdOf (packJ imm rd op) = rd := rdOf_packU _ _ _

theorem immJOf_packJ (imm : BitVec 21) (rd : Reg) (op : BitVec 7) (h : lowZero 1 imm = true) :
    immJOf (packJ imm rd op) = imm := by
  have h0 : imm[0] = false := by simpa using getLsbD_of_lowZero h (show 0 < 1 by decide)
  apply BitVec.eq_of_getLsbD_eq
  intro i hi
  simp only [immJOf, packJ, packU, BitVec.getLsbD_append, BitVec.getLsbD_extractLsb']
  interval_cases i <;> simp [h0]

@[simp] theorem opcodeOf_packAtomic (f5 : BitVec 5) (aq rl : BitVec 1) (r2 r1 : Reg) (f3 : BitVec 3) (rd : Reg) : opcodeOf (packAtomic f5 aq rl r2 r1 f3 rd) = opAtomic := opcodeOf_packR _ _ _ _ _ _

@[simp] theorem rdOf_packAtomic (f5 : BitVec 5) (aq rl : BitVec 1) (r2 r1 : Reg) (f3 : BitVec 3) (rd : Reg) : rdOf (packAtomic f5 aq rl r2 r1 f3 rd) = rd := rdOf_packR _ _ _ _ _ _

@[simp] theorem funct3Of_packAtomic (f5 : BitVec 5) (aq rl : BitVec 1) (r2 r1 : Reg) (f3 : BitVec 3) (rd : Reg) : funct3Of (packAtomic f5 aq rl r2 r1 f3 rd) = f3 := funct3Of_packR _ _ _ _ _ _

@[simp] theorem rs1Of_packAtomic (f5 : BitVec 5) (aq rl : BitVec 1) (r2 r1 : Reg) (f3 : BitVec 3) (rd : Reg) : rs1Of (packAtomic f5 aq rl r2 r1 f3 rd) = r1 := rs1Of_packR _ _ _ _ _ _

@[simp] theorem rs2Of_packAtomic (f5 : BitVec 5) (aq rl : BitVec 1) (r2 r1 : Reg) (f3 : BitVec 3) (rd : Reg) : rs2Of (packAtomic f5 aq rl r2 r1 f3 rd) = r2 := rs2Of_packR _ _ _ _ _ _

@[simp] theorem funct5Of_packAtomic (f5 : BitVec 5) (aq rl : BitVec 1) (r2 r1 : Reg) (f3 : BitVec 3) (rd : Reg) :
    funct5Of (packAtomic f5 aq rl r2 r1 f3 rd) = f5 := by
  apply BitVec.eq_of_getLsbD_eq
  intro i hi
  simp only [funct5Of, packAtomic, packR, BitVec.getLsbD_append, BitVec.getLsbD_extractLsb']
  interval_cases i <;> simp

@[simp] theorem aqOf_packAtomic (f5 : BitVec 5) (aq rl : BitVec 1) (r2 r1 : Reg) (f3 : BitVec 3) (rd : Reg) :
    aqOf (packAtomic f5 aq rl r2 r1 f3 rd) = aq := by
  apply BitVec.eq_of_getLsbD_eq
  intro i hi
  simp only [aqOf, packAtomic, packR, BitVec.getLsbD_append, BitVec.getLsbD_extractLsb']
  interval_cases i; simp

@[simp] theorem rlOf_packAtomic (f5 : BitVec 5) (aq rl : BitVec 1) (r2 r1 : Reg) (f3 : BitVec 3) (rd : Reg) :
    rlOf (packAtomic f5 aq rl r2 r1 f3 rd) = rl := by
  apply BitVec.eq_of_getLsbD_eq
  intro i hi
  simp only [rlOf, packAtomic, packR, BitVec.getLsbD_append, BitVec.getLsbD_extractLsb']
  interval_cases i; simp

@[simp] theorem opcodeOf_fence (bits : BitVec 25) (op : BitVec 7) :
    opcodeOf (bits ++ op) = op := by
  apply BitVec.eq_of_getLsbD_eq
  intro i hi
  simp only [opcodeOf, BitVec.getLsbD_append, BitVec.getLsbD_extractLsb']
  interval_cases i <;> simp

@[simp] theorem bits_fence (bits : BitVec 25) (op : BitVec 7) :
    BitVec.extractLsb' 7 25 (bits ++ op) = bits := by
  apply BitVec.eq_of_getLsbD_eq
  intro i hi
  simp only [BitVec.getLsbD_append, BitVec.getLsbD_extractLsb']
  interval_cases i <;> simp

theorem packR_fields (w : BitVec 32) :
    packR (funct7Of w) (rs2Of w) (rs1Of w) (funct3Of w) (rdOf w) (opcodeOf w) = w := by
  apply BitVec.eq_of_getLsbD_eq
  intro i hi
  simp only [packR, funct7Of, rs2Of, rs1Of, funct3Of, rdOf, opcodeOf, BitVec.getLsbD_append, BitVec.getLsbD_extractLsb']
  interval_cases i <;> simp

theorem packI_fields (w : BitVec 32) :
    packI (immIOf w) (rs1Of w) (funct3Of w) (rdOf w) (opcodeOf w) = w := by
  apply BitVec.eq_of_getLsbD_eq
  intro i hi
  simp only [packI, immIOf, rs1Of, funct3Of, rdOf, opcodeOf, BitVec.getLsbD_append, BitVec.getLsbD_extractLsb']
  interval_cases i <;> simp

theorem packS_fields (w : BitVec 32) :
    packS (immSOf w) (rs2Of w) (rs1Of w) (funct3Of w) (opcodeOf w) = w := by
  apply BitVec.eq_of_getLsbD_eq
  intro i hi
  simp only [packS, packR, immSOf, rs2Of, rs1Of, funct3Of, opcodeOf, BitVec.getLsbD_append, BitVec.getLsbD_extractLsb']
  interval_cases i <;> simp

theorem packB_fields (w : BitVec 32) :
    packB (immBOf w) (rs2Of w) (rs1Of w) (funct3Of w) (opcodeOf w) = w := by
  apply BitVec.eq_of_getLsbD_eq
  intro i hi
  simp only [packB, packR, immBOf, rs2Of, rs1Of, funct3Of, opcodeOf, BitVec.getLsbD_append, BitVec.getLsbD_extractLsb']
  interval_cases i <;> simp

theorem packU_fields (w : BitVec 32) :
    packU (immUOf w) (rdOf w) (opcodeOf w) = w := by
  apply BitVec.eq_of_getLsbD_eq
  intro i hi
  simp only [packU, immUOf, rdOf, opcodeOf, BitVec.getLsbD_append, BitVec.getLsbD_extractLsb']
  interval_cases i <;> simp

theorem packJ_fields (w : BitVec 32) :
    packJ (immJOf w) (rdOf w) (opcodeOf w) = w := by
  apply BitVec.eq_of_getLsbD_eq
  intro i hi
  simp only [packJ, packU, immJOf, rdOf, opcodeOf, BitVec.getLsbD_append, BitVec.getLsbD_extractLsb']
  interval_cases i <;> simp

theorem packAtomic_fields (w : BitVec 32) (h : opcodeOf w = opAtomic) :
    packAtomic (funct5Of w) (aqOf w) (rlOf w) (rs2Of w) (rs1Of w) (funct3Of w) (rdOf w) = w := by
  have h7 : funct5Of w ++ aqOf w ++ rlOf w = funct7Of w := by
    apply BitVec.eq_of_getLsbD_eq
    intro i hi
    simp only [funct5Of, aqOf, rlOf, funct7Of, BitVec.getLsbD_append, BitVec.getLsbD_extractLsb']
    interval_cases i <;> simp
  rw [packAtomic, h7, ← h, packR_fields]

theorem fence_fields (w : BitVec 32) :
    w.extractLsb' 7 25 ++ opcodeOf w = w := by
  apply BitVec.eq_of_getLsbD_eq
  intro i hi
  simp only [opcodeOf, BitVec.getLsbD_append, BitVec.getLsbD_extractLsb']
  interval_cases i <;> simp

/-! ## Compressed halfwords -/

@[simp] theorem lowHalf_compressed (c : BitVec 16) :
    BitVec.extractLsb' 0 16 (0#16 ++ c) = c := by
  apply BitVec.eq_of_getLsbD_eq
  intro i hi
  simp only [BitVec.getLsbD_append, BitVec.getLsbD_extractLsb']
  interval_cases i <;> simp

@[simp] theorem quadrantOf_packC (f3 : BitVec 3) (b : BitVec 1) (rd r2 : Reg) (q : BitVec 2) :
    quadrantOf (packC f3 b rd r2 q) = q := by
  apply BitVec.eq_of_getLsbD_eq
  intro i hi
  simp only [quadrantOf, packC, BitVec.getLsbD_append, BitVec.getLsbD_extractLsb']
  interval_cases i <;> simp

@[simp] theorem cFunct3Of_packC (f3 : BitVec 3) (b : BitVec 1) (rd r2 : Reg) (q : BitVec 2) :
    cFunct3Of (packC f3 b rd r2 q) = f3 := by
  apply BitVec.eq_of_getLsbD_eq
  intro i hi
  simp only [cFunct3Of, packC, BitVec.getLsbD_append, BitVec.getLsbD_extractLsb']
  interval_cases i <;> simp

@[simp] theorem cBit12Of_packC (f3 : BitVec 3) (b : BitVec 1) (rd r2 : Reg) (q : BitVec 2) :
    cBit12Of (packC f3 b rd r2 q) = b := by
  apply BitVec.eq_of_getLsbD_eq
  intro i hi
  simp only [cBit12Of, packC, BitVec.getLsbD_append, BitVec.getLsbD_extractLsb']
  interval_cases i; simp

@[simp] theorem cRdOf_packC (f3 : BitVec 3) (b : BitVec 1) (rd r2 : Reg) (q : BitVec 2) :
    cRdOf (packC f3 b rd r2 q) = rd := by
  apply BitVec.eq_of_getLsbD_eq
  intro i hi
  simp only [cRdOf, packC, BitVec.getLsbD_append, BitVec.getLsbD_extractLsb']
  interval_cases i <;> simp

@[simp] theorem cRs2Of_packC (f3 : BitVec 3) (b : BitVec 1) (rd r2 : Reg) (q : BitVec 2) :
    cRs2Of (packC f3 b rd r2 q) = r2 := by
  apply BitVec.eq_of_getLsbD_eq
  intro i hi
  simp only [cRs2Of, packC, BitVec.getLsbD_append, BitVec.getLsbD_extractLsb']
  interval_cases i <;> simp

@[simp] theorem quadrantOf_packCI (f3 : BitVec 3) (v : BitVec 6) (rd : Reg) : quadrantOf (packCI f3 v rd) = 0b01#2 := quadrantOf_packC _ _ _ _ _

@[simp] theorem cFunct3Of_packCI (f3 : BitVec 3) (v : BitVec 6) (rd : Reg) : cFunct3Of (packCI f3 v rd) = f3 := cFunct3Of_packC _ _ _ _ _

@[simp] theorem cRdOf_packCI (f3 : BitVec 3) (v : BitVec 6) (rd : Reg) : cRdOf (packCI f3 v rd) = rd := cRdOf_packC _ _ _ _ _

@[simp] theorem cImm6Of_packCI (f3 : BitVec 3) (v : BitVec 6) (rd : Reg) :
    cImm6Of (packCI f3 v rd) = v := by
  apply BitVec.eq_of_getLsbD_eq
  intro i hi
  simp only [cImm6Of, packCI, packC, BitVec.getLsbD_append, BitVec.getLsbD_extractLsb']
  interval_cases i <;> simp

@[simp] theorem quadrantOf_pack4spn (v : BitVec 10) (r' : Reg3) :
    quadrantOf (pack4spn v r') = 0b00#2 := by
  apply BitVec.eq_of_getLsbD_eq
  intro i hi
  simp only [quadrantOf, pack4spn, BitVec.getLsbD_append, BitVec.getLsbD_extractLsb']
  interval_cases i <;> simp

@[simp] theorem cFunct3Of_pack4spn (v : BitVec 10) (r' : Reg3) :
    cFunct3Of (pack4spn v r') = 0b000#3 := by
  apply BitVec.eq_of_getLsbD_eq
  intro i hi
  simp only [cFunct3Of, pack4spn, BitVec.getLsbD_append, BitVec.getLsbD_extractLsb']
  interval_cases i <;> simp

@[simp] theorem cRs2'Of_pack4spn (v : BitVec 10) (r' : Reg3) :
    cRs2'Of (pack4spn v r') = r' := by
  apply BitVec.eq_of_getLsbD_eq
  intro i hi
  simp only [cRs2'Of, pack4spn, BitVec.getLsbD_append, BitVec.getLsbD_extractLsb']
  interval_cases i <;> simp

theorem cImm4spnOf_pack4spn (v : BitVec 10) (r' : Reg3) (h : lowZero 2 v = true) :
    cImm4spnOf (pack4spn v r') = v := by
  have h0 : v[0] = false := by simpa using getLsbD_of_lowZero h (show 0 < 2 by decide)
  have h1 : v[1] = false := by simpa using getLsbD_of_lowZero h (show 1 < 2 by decide)
  apply BitVec.eq_of_getLsbD_eq
  intro i hi
  simp only [cImm4spnOf, pack4spn, BitVec.getLsbD_append, BitVec.getLsbD_extractLsb']
  interval_cases i <;> simp [h0, h1]

@[simp] theorem quadrantOf_packCLw (f3 : BitVec 3) (v : BitVec 7) (r1' r' : Reg3) :
    quadrantOf (packCLw f3 v r1' r') = 0b00#2 := by
  apply BitVec.eq_of_getLsbD_eq
  intro i hi
  simp only [quadrantOf, packCLw, BitVec.getLsbD_append, BitVec.getLsbD_extractLsb']
  interval_cases i <;> simp

@[simp] theorem cFunct3Of_packCLw (f3 : BitVec 3) (v : BitVec 7) (r1' r' : Reg3) :
    cFunct3Of (packCLw f3 v r1' r') = f3 := by
  apply BitVec.eq_of_getLsbD_eq
  intro i hi
  simp only [cFunct3Of, packCLw, BitVec.getLsbD_append, BitVec.getLsbD_extractLsb']
  interval_cases i <;> simp

@[simp] theorem cRs1'Of_packCLw (f3 : BitVec 3) (v : BitVec 7) (r1' r' : Reg3) :
    cRs1'Of (packCLw f3 v r1' r') = r1' := by
  apply BitVec.eq_of_getLsbD_eq
  intro i hi
  simp only [cRs1'Of, packCLw, BitVec.getLsbD_append, BitVec.getLsbD_extractLsb']
  interval_cases i <;> simp

@[simp] theorem cRs2'Of_packCLw (f3 : BitVec 3) (v : BitVec 7) (r1' r' : Reg3) :
    cRs2'Of (packCLw f3 v r1' r') = r' := by
  apply BitVec.eq_of_getLsbD_eq
  intro i hi
  simp only [cRs2'Of, packCLw, BitVec.getLsbD_append, BitVec.getLsbD_extractLsb']
  interval_cases i <;> simp

theorem cImmLwOf_packCLw (f3 : BitVec 3) (v : BitVec 7) (r1' r' : Reg3) (h : lowZero 2 v = true) :
    cImmLwOf (packCLw f3 v r1' r') = v := by
  have h0 : v[0] = false := by simpa using getLsbD_of_lowZero h (show 0 < 2 by decide)
  have h1 : v[1] = false := by simpa using getLsbD_of_lowZero h (show 1 < 2 by decide)
  apply BitVec.eq_of_getLsbD_eq
  intro i hi
  simp only [cImmLwOf, packCLw, BitVec.getLsbD_append, BitVec.getLsbD_extractLsb']
  interval_cases i <;> simp [h0, h1]

@[simp] theorem quadrantOf_packCJ (f3 : BitVec 3) (v : BitVec 12) :
    quadrantOf (packCJ f3 v) = 0b01#2 := by
  apply BitVec.eq_of_getLsbD_eq
  intro i hi
  simp only [quadrantOf, packCJ, BitVec.getLsbD_append, BitVec.getLsbD_extractLsb']
  interval_cases i <;> simp

@[simp] theorem cFunct3Of_packCJ (f3 : BitVec 3) (v : BitVec 12) :
    cFunct3Of (packCJ f3 v) = f3 := by
  apply BitVec.eq_of_getLsbD_eq
  intro i hi
  simp only [cFunct3Of, packCJ, BitVec.getLsbD_append, BitVec.getLsbD_extractLsb']
  interval_cases i <;> simp

theorem cImmJOf_packCJ (f3 : BitVec 3) (v : BitVec 12) (h : lowZero 1 v = true) :
    cImmJOf (packCJ f3 v) = v := by
  have h0 : v[0] = false := by simpa using getLsbD_of_lowZero h (show 0 < 1 by decide)
  apply BitVec.eq_of_getLsbD_eq
  intro i hi
  simp only [cImmJOf, packCJ, BitVec.getLsbD_append, BitVec.getLsbD_extractLsb']
  interval_cases i <;> simp [h0]

@[simp] theorem quadrantOf_pack16sp (v : BitVec 10) :
    quadrantOf (pack16sp v) = 0b01#2 := by
  apply BitVec.eq_of_getLsbD_eq
  intro i hi
  simp only [quadrantOf, pack16sp, BitVec.getLsbD_append, BitVec.getLsbD_extractLsb']
  interval_cases i <;> simp

@[simp] theorem cFunct3Of_pack16sp (v : BitVec 10) :
    cFunct3Of (pack16sp v) = 0b011#3 := by
  apply BitVec.eq_of_getLsbD_eq
  intro i hi
  simp only [cFunct3Of, pack16sp, BitVec.getLsbD_append, BitVec.getLsbD_extractLsb']
  interval_cases i <;> simp

@[simp] theorem cRdOf_pack16sp (v : BitVec 10) :
    cRdOf (pack16sp v) = 2 := by
  apply BitVec.eq_of_getLsbD_eq
  intro i hi
  simp only [cRdOf, pack16sp, BitVec.getLsbD_append, BitVec.getLsbD_extractLsb']
  interval_cases i <;> simp

theorem cImm16spOf_pack16sp (v : BitVec 10) (h : lowZero 4 v = true) :
    cImm16spOf (pack16sp v) = v := by
  have h0 : v[0] = false := by simpa using getLsbD_of_lowZero h (show 0 < 4 by decide)
  have h1 : v[1] = false := by simpa using getLsbD_of_lowZero h (show 1 < 4 by decide)
  have h2 : v[2] = false := by simpa using getLsbD_of_lowZero h (show 2 < 4 by decide)
  have h3 : v[3] = false := by simpa using getLsbD_of_lowZero h (show 3 < 4 by decide)
  apply BitVec.eq_of_getLsbD_eq
  intro i hi
  simp only [cImm16spOf, pack16sp, BitVec.getLsbD_append, BitVec.getLsbD_extractLsb']
  interval_cases i <;> simp [h0, h1, h2, h3]

@[simp] theorem quadrantOf_packCA (b : BitVec 1) (sel : BitVec 2) (r' : Reg3) (low : BitVec 5) :
    quadrantOf (packCA b sel r' low) = 0b01#2 := by
  apply BitVec.eq_of_getLsbD_eq
  intro i hi
  simp only [quadrantOf, packCA, BitVec.getLsbD_append, BitVec.getLsbD_extractLsb']
  interval_cases i <;> simp

@[simp] theorem cFunct3Of_packCA (b : BitVec 1) (sel : BitVec 2) (r' : Reg3) (low : BitVec 5) :
    cFunct3Of (packCA b sel r' low) = 0b100#3 := by
  apply BitVec.eq_of_getLsbD_eq
  intro i hi
  simp only [cFunct3Of, packCA, BitVec.getLsbD_append, BitVec.getLsbD_extractLsb']
  interval_cases i <;> simp

@[simp] theorem cSel_packCA (b : BitVec 1) (sel : BitVec 2) (r' : Reg3) (low : BitVec 5) :
    BitVec.extractLsb' 10 2 (packCA b sel r' low) = sel := by
  apply BitVec.eq_of_getLsbD_eq
  intro i hi
  simp only [packCA, BitVec.getLsbD_append, BitVec.getLsbD_extractLsb']
  interval_cases i <;> simp

@[simp] theorem cBit12Of_packCA (b : BitVec 1) (sel : BitVec 2) (r' : Reg3) (low : BitVec 5) :
    cBit12Of (packCA b sel r' low) = b := by
  apply BitVec.eq_of_getLsbD_eq
  intro i hi
  simp only [cBit12Of, packCA, BitVec.getLsbD_append, BitVec.getLsbD_extractLsb']
  interval_cases i; simp

@[simp] theorem cRs1'Of_packCA (b : BitVec 1) (sel : BitVec 2) (r' : Reg3) (low : BitVec 5) :
    cRs1'Of (packCA b sel r' low) = r' := by
  apply BitVec.eq_of_getLsbD_eq
  intro i hi
  simp only [cRs1'Of, packCA, BitVec.getLsbD_append, BitVec.getLsbD_extractLsb']
  interval_cases i <;> simp

@[simp] theorem cRs2Of_packCA (b : BitVec 1) (sel : BitVec 2) (r' : Reg3) (low : BitVec 5) :
    cRs2Of (packCA b sel r' low) = low := by
  apply BitVec.eq_of_getLsbD_eq
  intro i hi
  simp only [cRs2Of, packCA, BitVec.getLsbD_append, BitVec.getLsbD_extractLsb']
  interval_cases i <;> simp

@[simp] theorem cImm6Of_packCA (v : BitVec 6) (sel : BitVec 2) (r' : Reg3) :
    cImm6Of (packCA (v.extractLsb' 5 1) sel r' (v.extractLsb' 0 5)) = v := by
  apply BitVec.eq_of_getLsbD_eq
  intro i hi
  simp only [cImm6Of, packCA, BitVec.getLsbD_append, BitVec.getLsbD_extractLsb']
  interval_cases i <;> simp

@[simp] theorem cOp_packCA (b : BitVec 1) (sel k : BitVec 2) (r' r2' : Reg3) :
    BitVec.extractLsb' 5 2 (packCA b sel r' (k ++ r2')) = k := by
  apply BitVec.eq_of_getLsbD_eq
  intro i hi
  simp only [packCA, BitVec.getLsbD_append, BitVec.getLsbD_extractLsb']
  interval_cases i <;> simp

@[simp] theorem cRs2'Of_packCA (b : BitVec 1) (sel k : BitVec 2) (r' r2' : Reg3) :
    cRs2'Of (packCA b sel r' (k ++ r2')) = r2' := by
  apply BitVec.eq_of_getLsbD_eq
  intro i hi
  simp only [cRs2'Of, packCA, BitVec.getLsbD_append, BitVec.getLsbD_extractLsb']
  interval_cases i <;> simp

@[simp] theorem quadrantOf_packCB (f3 : BitVec 3) (v : BitVec 9) (r1' : Reg3) :
    quadrantOf (packCB f3 v r1') = 0b01#2 := by
  apply BitVec.eq_of_getLsbD_eq
  intro i hi
  simp only [quadrantOf, packCB, BitVec.getLsbD_append, BitVec.getLsbD_extractLsb']
  interval_cases i <;> simp

@[simp] theorem cFunct3Of_packCB (f3 : BitVec 3) (v : BitVec 9) (r1' : Reg3) :
    cFunct3Of (packCB f3 v r1') = f3 := by
  apply BitVec.eq_of_getLsbD_eq
  intro i hi
  simp only [cFunct3Of, packCB, BitVec.getLsbD_append, BitVec.getLsbD_extractLsb']
  interval_cases i <;> simp

@[simp] theorem cRs1'Of_packCB (f3 : BitVec 3) (v : BitVec 9) (r1' : Reg3) :
    cRs1'Of (packCB f3 v r1') = r1' := by
  apply BitVec.eq_of_getLsbD_eq
  intro i hi
  simp only [cRs1'Of, packCB, BitVec.getLsbD_append, BitVec.getLsbD_extractLsb']
  interval_cases i <;> simp

theorem cImmBOf_packCB (f3 : BitVec 3) (v : BitVec 9) (r1' : Reg3) (h : lowZero 1 v = true) :
    cImmBOf (packCB f3 v r1') = v := by
  have h0 : v[0] = false := by simpa using getLsbD_of_lowZero h (show 0 < 1 by decide)
  apply BitVec.eq_of_getLsbD_eq
  intro i hi
  simp only [cImmBOf, packCB, BitVec.getLsbD_append, BitVec.getLsbD_extractLsb']
  interval_cases i <;> simp [h0]

theorem packC_fields (c : BitVec 16) :
    packC (cFunct3Of c) (cBit12Of c) (cRdOf c) (cRs2Of c) (quadrantOf c) = c := by
  apply BitVec.eq_of_getLsbD_eq
  intro i hi
  simp only [packC, cFunct3Of, cBit12Of, cRdOf, cRs2Of, quadrantOf, BitVec.getLsbD_append, BitVec.getLsbD_extractLsb']
  interval_cases i <;> simp

theorem packCI_fields (f3 : BitVec 3) (b : BitVec 1) (rd r2 : Reg) :
    packCI f3 (cImm6Of (packC f3 b rd r2 0b01#2)) (cRdOf (packC f3 b rd r2 0b01#2)) = packC f3 b rd r2 0b01#2 := by
  apply BitVec.eq_of_getLsbD_eq
  intro i hi
  simp only [packCI, cImm6Of, cRdOf, packC, BitVec.getLsbD_append, BitVec.getLsbD_extractLsb']
  interval_cases i <;> simp

theorem pack4spn_fields (b : BitVec 1) (rd r2 : Reg) :
    pack4spn (cImm4spnOf (packC 0b000#3 b rd r2 0b00#2)) (cRs2'Of (packC 0b000#3 b rd r2 0b00#2)) = packC 0b000#3 b rd r2 0b00#2 := by
  apply BitVec.eq_of_getLsbD_eq
  intro i hi
  simp only [pack4spn, cImm4spnOf, cRs2'Of, packC, BitVec.getLsbD_append, BitVec.getLsbD_extractLsb']
  interval_cases i <;> simp

theorem packCLw_fields (f3 : BitVec 3) (b : BitVec 1) (rd r2 : Reg) :
    packCLw f3 (cImmLwOf (packC f3 b rd r2 0b00#2)) (cRs1'Of (packC f3 b rd r2 0b00#2)) (cRs2'Of (packC f3 b rd r2 0b00#2)) = packC f3 b rd r2 0b00#2 := by
  apply BitVec.eq_of_getLsbD_eq
  intro i hi
  simp only [packCLw, cImmLwOf, cRs1'Of, cRs2'Of, packC, BitVec.getLsbD_append, BitVec.getLsbD_extractLsb']
  interval_cases i <;> simp

theorem packCJ_fields (f3 : BitVec 3) (b : BitVec 1) (rd r2 : Reg) :
    packCJ f3 (cImmJOf (packC f3 b rd r2 0b01#2)) = packC f3 b rd r2 0b01#2 := by
  apply BitVec.eq_of_getLsbD_eq
  intro i hi
  simp only [packCJ, cImmJOf, packC, BitVec.getLsbD_append, BitVec.getLsbD_extractLsb']
  interval_cases i <;> simp

theorem pack16sp_fields (b : BitVec 1) (r2 : Reg) :
    pack16sp (cImm16spOf (packC 0b011#3 b 2 r2 0b01#2)) = packC 0b011#3 b 2 r2 0b01#2 := by
  apply BitVec.eq_of_getLsbD_eq
  intro i hi
  simp only [pack16sp, cImm16spOf, packC, BitVec.getLsbD_append, BitVec.getLsbD_extractLsb']
  interval_cases i <;> simp

theorem packCB_fields (f3 : BitVec 3) (b : BitVec 1) (rd r2 : Reg) :
    packCB f3 (cImmBOf (packC f3 b rd r2 0b01#2)) (cRs1'Of (packC f3 b rd r2 0b01#2)) = packC f3 b rd r2 0b01#2 := by
  apply BitVec.eq_of_getLsbD_eq
  intro i hi
  simp only [packCB, cImmBOf, cRs1'Of, packC, BitVec.getLsbD_append, BitVec.getLsbD_extractLsb']
  interval_cases i <;> simp

theorem packCA_fields (b : BitVec 1) (rd r2 : Reg) :
    packCA b (BitVec.extractLsb' 10 2 (packC 0b100#3 b rd r2 0b01#2)) (cRs1'Of (packC 0b100#3 b rd r2 0b01#2)) r2 = packC 0b100#3 b rd r2 0b01#2 := by
  apply BitVec.eq_of_getLsbD_eq
  intro i hi
  simp only [packCA, cRs1'Of, packC, BitVec.getLsbD_append, BitVec.getLsbD_extractLsb']
  interval_cases i <;> simp

theorem cOp_fields (c : BitVec 16) :
    BitVec.extractLsb' 5 2 c ++ cRs2'Of c = cRs2Of c := by
  apply BitVec.eq_of_getLsbD_eq
  intro i hi
  simp only [cRs2'Of, cRs2Of, BitVec.getLsbD_append, BitVec.getLsbD_extractLsb']
  interval_cases i <;> simp

@[simp] theorem lowBits_compressed (c : BitVec 16) :
    BitVec.extractLsb' 0 2 (0#16 ++ c) = quadrantOf c := by
  apply BitVec.eq_of_getLsbD_eq
  intro i hi
  simp only [quadrantOf, BitVec.getLsbD_append, BitVec.getLsbD_extractLsb']
  interval_cases i <;> simp

end Sys2Proof
end

