-- ==== Sys2Proof/Laws/State.lean ====
section
/-! SUPPORT. One lemma per field per update of the state, true by `rfl` and tagged `@[simp]`, and the laws of the
register port. -/

namespace Sys2Proof.Machine

section Fields
variable (s : State) (r rd : Reg) (v len t a : Word) (f : Fatal) (n k : Nat) (b : Byte)

@[simp] theorem State.setX_pc : (s.setX rd v).pc = s.pc := by unfold State.setX; split <;> rfl
@[simp] theorem State.setX_csr : (s.setX rd v).csr = s.csr := by unfold State.setX; split <;> rfl
@[simp] theorem State.setX_halted : (s.setX rd v).halted = s.halted := by unfold State.setX; split <;> rfl
@[simp] theorem State.setX_bus : (s.setX rd v).bus = s.bus := by unfold State.setX; split <;> rfl
@[simp] theorem State.setX_cfg : (s.setX rd v).cfg = s.cfg := by unfold State.setX; split <;> rfl

@[simp] theorem State.zeroX0_pc : s.zeroX0.pc = s.pc := rfl
@[simp] theorem State.zeroX0_csr : s.zeroX0.csr = s.csr := rfl
@[simp] theorem State.zeroX0_halted : s.zeroX0.halted = s.halted := rfl
@[simp] theorem State.zeroX0_bus : s.zeroX0.bus = s.bus := rfl
@[simp] theorem State.zeroX0_cfg : s.zeroX0.cfg = s.cfg := rfl

@[simp] theorem State.tail_regs : (s.tail len).regs = s.zeroX0.regs := rfl
@[simp] theorem State.tail_pc : (s.tail len).pc = s.pc + len := rfl
@[simp] theorem State.tail_csr : (s.tail len).csr = s.csr := rfl
@[simp] theorem State.tail_halted : (s.tail len).halted = s.halted := rfl
@[simp] theorem State.tail_bus : (s.tail len).bus = s.bus := rfl
@[simp] theorem State.tail_cfg : (s.tail len).cfg = s.cfg := rfl

@[simp] theorem State.redirect_regs : (s.redirect t).regs = s.zeroX0.regs := rfl
@[simp] theorem State.redirect_pc : (s.redirect t).pc = t := rfl
@[simp] theorem State.redirect_csr : (s.redirect t).csr = s.csr := rfl
@[simp] theorem State.redirect_halted : (s.redirect t).halted = s.halted := rfl
@[simp] theorem State.redirect_bus : (s.redirect t).bus = s.bus := rfl
@[simp] theorem State.redirect_cfg : (s.redirect t).cfg = s.cfg := rfl

@[simp] theorem State.raise_regs : (s.raise f).regs = s.regs := rfl
@[simp] theorem State.raise_pc : (s.raise f).pc = s.pc := rfl
@[simp] theorem State.raise_csr : (s.raise f).csr = s.csr := rfl
@[simp] theorem State.raise_halted : (s.raise f).halted = some { fatal := f, pc := s.pc } := rfl
@[simp] theorem State.raise_bus : (s.raise f).bus = s.bus := rfl
@[simp] theorem State.raise_cfg : (s.raise f).cfg = s.cfg := rfl

@[simp] theorem State.csrSet_regs : (s.csrSet k v).regs = s.regs := rfl
@[simp] theorem State.csrSet_pc : (s.csrSet k v).pc = s.pc := rfl
@[simp] theorem State.csrSet_csr : (s.csrSet k v).csr = Cells.set s.csr k v := rfl
@[simp] theorem State.csrSet_halted : (s.csrSet k v).halted = s.halted := rfl
@[simp] theorem State.csrSet_bus : (s.csrSet k v).bus = s.bus := rfl
@[simp] theorem State.csrSet_cfg : (s.csrSet k v).cfg = s.cfg := rfl

@[simp] theorem State.memRead_regs : (s.memRead a n).2.regs = s.regs := rfl
@[simp] theorem State.memRead_pc : (s.memRead a n).2.pc = s.pc := rfl
@[simp] theorem State.memRead_csr : (s.memRead a n).2.csr = s.csr := rfl
@[simp] theorem State.memRead_halted : (s.memRead a n).2.halted = s.halted := rfl
@[simp] theorem State.memRead_bus : (s.memRead a n).2.bus = (Bus.read a n s.bus).2 := rfl
@[simp] theorem State.memRead_cfg : (s.memRead a n).2.cfg = s.cfg := rfl

@[simp] theorem State.memWrite_regs : (s.memWrite a n v).2.regs = s.regs := rfl
@[simp] theorem State.memWrite_pc : (s.memWrite a n v).2.pc = s.pc := rfl
@[simp] theorem State.memWrite_csr : (s.memWrite a n v).2.csr = s.csr := rfl
@[simp] theorem State.memWrite_halted : (s.memWrite a n v).2.halted = s.halted := rfl
@[simp] theorem State.memWrite_bus : (s.memWrite a n v).2.bus = (Bus.write a (leBytes n v) s.bus).2 := rfl
@[simp] theorem State.memWrite_cfg : (s.memWrite a n v).2.cfg = s.cfg := rfl

@[simp] theorem State.uartReceive_regs : (s.uartReceive b).regs = s.regs := rfl
@[simp] theorem State.uartReceive_pc : (s.uartReceive b).pc = s.pc := rfl
@[simp] theorem State.uartReceive_csr : (s.uartReceive b).csr = s.csr := rfl
@[simp] theorem State.uartReceive_halted : (s.uartReceive b).halted = s.halted := rfl
@[simp] theorem State.uartReceive_bus : (s.uartReceive b).bus = Bus.uartReceive b s.bus := rfl
@[simp] theorem State.uartReceive_cfg : (s.uartReceive b).cfg = s.cfg := rfl

@[simp] theorem State.resetFor_regs (cfg : Config) : (State.resetFor cfg).regs = Vector.replicate 32 0 := rfl
@[simp] theorem State.resetFor_pc (cfg : Config) : (State.resetFor cfg).pc = cfg.resetPc := rfl
@[simp] theorem State.resetFor_csr (cfg : Config) : (State.resetFor cfg).csr = [] := rfl
@[simp] theorem State.resetFor_halted (cfg : Config) : (State.resetFor cfg).halted = none := rfl
@[simp] theorem State.resetFor_bus (cfg : Config) : (State.resetFor cfg).bus = Bus.ofConfig cfg := rfl
@[simp] theorem State.resetFor_cfg (cfg : Config) : (State.resetFor cfg).cfg = cfg := rfl

end Fields

/-! ## The register port -/

theorem State.getX_zero (s : State) : s.getX 0 = 0 := by simp [State.getX]

/-- The same with the literals as `simp` writes them. -/
@[simp] theorem State.getX_zero_lit (s : State) : s.getX 0#5 = 0#64 := State.getX_zero s

/-- The port reads the register cells only. -/
theorem State.getX_congr {s t : State} (h : t.regs = s.regs) (r : Reg) : t.getX r = s.getX r := by
  simp [State.getX, h]

theorem State.getX_setX (s : State) (rd r : Reg) (v : Word) :
    (s.setX rd v).getX r = if r = rd ∧ r ≠ 0 then v else s.getX r := by
  unfold State.setX State.getX
  by_cases h0 : r = 0
  · rw [if_pos h0, if_neg (fun h => h.2 h0), if_pos h0]
  · rw [if_neg h0, if_neg h0]
    by_cases hd : rd = 0
    · rw [if_pos hd, if_neg (fun h => h0 (h.1.trans hd))]
    · rw [if_neg hd]
      simp only [Vector.getElem_set]
      by_cases hr : r = rd
      · rw [if_pos (by rw [hr]), if_pos ⟨hr, h0⟩]
      · rw [if_neg (fun h => hr (BitVec.eq_of_toNat_eq h.symm)), if_neg (fun h => hr h.1)]

theorem State.getX_setX_self (s : State) (rd : Reg) (v : Word) (h : rd ≠ 0) : (s.setX rd v).getX rd = v := by
  rw [State.getX_setX, if_pos ⟨rfl, h⟩]

theorem State.getX_setX_other (s : State) (rd r : Reg) (v : Word) (h : r ≠ rd) :
    (s.setX rd v).getX r = s.getX r := by
  rw [State.getX_setX, if_neg (fun h' => h h'.1)]

@[simp] theorem State.getX_zeroX0 (s : State) (r : Reg) : s.zeroX0.getX r = s.getX r := by
  unfold State.zeroX0 State.getX
  by_cases h0 : r = 0
  · simp [h0]
  · have hne : (0 : Nat) ≠ r.toNat := fun h => h0 (BitVec.eq_of_toNat_eq h.symm)
    simp [hne]

@[simp] theorem State.getX_tail (s : State) (len : Word) (r : Reg) : (s.tail len).getX r = s.getX r := by
  rw [State.getX_congr (State.tail_regs s len), State.getX_zeroX0]

@[simp] theorem State.getX_redirect (s : State) (t : Word) (r : Reg) : (s.redirect t).getX r = s.getX r := by
  rw [State.getX_congr (State.redirect_regs s t), State.getX_zeroX0]

@[simp] theorem State.getX_raise (s : State) (f : Fatal) (r : Reg) : (s.raise f).getX r = s.getX r :=
  State.getX_congr rfl r

@[simp] theorem State.getX_csrSet (s : State) (k : Nat) (v : Word) (r : Reg) : (s.csrSet k v).getX r = s.getX r :=
  State.getX_congr rfl r

@[simp] theorem State.getX_memRead (s : State) (a : Word) (n : Nat) (r : Reg) :
    (s.memRead a n).2.getX r = s.getX r := State.getX_congr rfl r

@[simp] theorem State.getX_memWrite (s : State) (a v : Word) (n : Nat) (r : Reg) :
    (s.memWrite a n v).2.getX r = s.getX r := State.getX_congr rfl r

/-- The cell of `x0` holds 0 after the end of a step (R22, R144). -/
@[simp] theorem State.zeroX0_cell (s : State) : s.zeroX0.regs[0] = 0 := by simp [State.zeroX0]

@[simp] theorem State.tail_cell (s : State) (len : Word) : (s.tail len).regs[0] = 0 := State.zeroX0_cell s

@[simp] theorem State.redirect_cell (s : State) (t : Word) : (s.redirect t).regs[0] = 0 := State.zeroX0_cell s

/-- A write never changes the cell of `x0`. -/
@[simp] theorem State.setX_cell (s : State) (rd : Reg) (v : Word) : (s.setX rd v).regs[0] = s.regs[0] := by
  unfold State.setX
  split
  · rfl
  · next h =>
    have hne : rd.toNat ≠ 0 := fun h0 => h (BitVec.eq_of_toNat_eq h0)
    simp [hne]

/-! ## The CSR port -/

@[simp] theorem State.csrGet_setX (s : State) (rd : Reg) (v : Word) (k : Nat) : (s.setX rd v).csrGet k = s.csrGet k := by
  simp [State.csrGet]

@[simp] theorem State.csrGet_tail (s : State) (len : Word) (k : Nat) : (s.tail len).csrGet k = s.csrGet k := rfl

end Sys2Proof.Machine
end

