-- ==== Sys2Proof/Laws/Ops.lean ====
section
/-! SUPPORT. For each shared operation, once, everything it can do. -/

namespace Sys2Proof.Machine

/-! ## Registers, the end of a step, the fatal error -/

theorem State.wrote_tail (s : State) (rd : Reg) (v len : Word) : State.Wrote s ((s.setX rd v).tail len) rd v where
  result := by
    rw [State.getX_tail, State.getX_setX]
    by_cases h : rd = 0
    · subst h; rw [if_neg (fun h => h.2 rfl), if_pos rfl, State.getX_zero]
    · rw [if_pos ⟨rfl, h⟩, if_neg h]
  others r hr := by rw [State.getX_tail, State.getX_setX_other s rd r v hr]
  zeroCell := State.tail_cell _ _

theorem State.wrote_redirect (s : State) (rd : Reg) (v target : Word) :
    State.Wrote s ((s.setX rd v).redirect target) rd v where
  result := by
    rw [State.getX_redirect, State.getX_setX]
    by_cases h : rd = 0
    · subst h; rw [if_neg (fun h => h.2 rfl), if_pos rfl, State.getX_zero]
    · rw [if_pos ⟨rfl, h⟩, if_neg h]
  others r hr := by rw [State.getX_redirect, State.getX_setX_other s rd r v hr]
  zeroCell := State.redirect_cell _ _

/-- What a write is seen to do depends on the registers it started from only. -/
theorem State.Wrote.of_regs {s s1 t : State} {rd : Reg} {v : Word} (h : State.Wrote s1 t rd v) (hr : s1.regs = s.regs) :
    State.Wrote s t rd v where
  result := h.result
  others r hne := by rw [h.others r hne, State.getX_congr hr r]
  zeroCell := h.zeroCell

theorem State.keptRegs_tail (s : State) (len : Word) : State.KeptRegs s (s.tail len) :=
  ⟨State.getX_tail s len, State.tail_cell s len⟩

theorem State.keptRegs_redirect (s : State) (target : Word) : State.KeptRegs s (s.redirect target) :=
  ⟨State.getX_redirect s target, State.redirect_cell s target⟩

theorem State.KeptRegs.of_regs {s s1 t : State} (h : State.KeptRegs s1 t) (hr : s1.regs = s.regs) :
    State.KeptRegs s t := ⟨fun r => by rw [h.regs r, State.getX_congr hr r], h.zeroCell⟩

theorem State.raised_raise (s : State) (f : Fatal) : State.Raised s (s.raise f) f := ⟨rfl, rfl, rfl, rfl, rfl⟩

/-! ## Memory accesses -/

theorem State.memRead_memory (s : State) (a : Word) (n : Nat) : State.KeptMemory s (s.memRead a n).2 :=
  ⟨Bus.read_peek a n s.bus, Bus.read_shape a n s.bus, Bus.read_romContents a n s.bus⟩

/-- What routing an access changes (R53). -/
theorem State.touched_route {β : Type} (s : State) (a : Word) (access : Mapping → Except Fatal β × Region) :
    State.TouchedOnly s { s with bus := (Bus.route a access s.bus).2 } a where
  tuples pre m post hb hm hp := ⟨(access m).2, by simp only [hb, Bus.route_append post access hm hp]⟩
  missed h := by simp only [Bus.route_none access h]
  uarts b u o h := fun ⟨m, hl, hr, ho⟩ => ⟨m, (Bus.lookup_route_of_ne access h).trans hl, hr, ho⟩

theorem State.memRead_touched (s : State) (a : Word) (n : Nat) : State.TouchedOnly s (s.memRead a n).2 a :=
  State.touched_route s a _

theorem State.memWrite_touched (s : State) (a v : Word) (n : Nat) : State.TouchedOnly s (s.memWrite a n v).2 a :=
  State.touched_route s a _

/-- `TouchedOnly` speaks of the buses alone. -/
theorem State.TouchedOnly.of_bus {s s1 t : State} {a : Word} (h : State.TouchedOnly s s1 a) (hb : t.bus = s1.bus) :
    State.TouchedOnly s t a where
  tuples pre m post h1 h2 h3 := by rw [hb]; exact h.tuples pre m post h1 h2 h3
  missed hl := hb.trans (h.missed hl)
  uarts b u o hl hu := by simpa only [State.atUart, hb] using h.uarts b u o hl hu

/-- After an access at `a`, an address has the tuple of `a` only if it had it before. -/
theorem State.TouchedOnly.lookup_ne {s t : State} {a b : Word} (h : State.TouchedOnly s t a)
    (hn : Bus.lookup b s.bus ≠ Bus.lookup a s.bus) : Bus.lookup b t.bus ≠ Bus.lookup a t.bus := by
  rcases hl : Bus.lookup a s.bus with _ | m
  · rwa [h.missed hl]
  · obtain ⟨pre, post, hb, hp⟩ := Bus.split_of_lookup hl
    have hm := Bus.holds_of_lookup hl
    obtain ⟨r, ht⟩ := h.tuples pre m post hb hm hp
    intro he
    have ha : Bus.lookup a t.bus = some { m with region := r } := by rw [ht]; exact Bus.lookup_append post hm hp
    rw [ha] at he
    have hmb : m.holds b = true := Bus.holds_of_lookup (m := { m with region := r }) he
    have hpb : ∀ m' ∈ pre, m'.holds b = false := by
      obtain ⟨pre', post', ht', hp'⟩ := Bus.split_of_lookup he
      intro m' hm'
      by_contra hc
      rw [ht] at ht'
      rcases List.append_eq_append_iff.mp ht' with ⟨as, rfl, -⟩ | ⟨bs, rfl, h2⟩
      · exact hc (hp' m' (List.mem_append_left _ hm'))
      · rcases bs with _ | ⟨m1, bs⟩
        · exact hc (hp' m' (by simpa using hm'))
        · simp only [List.cons_append, List.cons.injEq] at h2
          have : Mapping.holds m1 a = false := hp m1 (by simp)
          rw [← h2.1] at this
          exact absurd (hm.symm.trans this) (by simp)
    exact hn (by rw [hb, Bus.lookup_append post hmb hpb, Bus.lookup_append post hm hp])

/-- Two accesses at one address, as AMOSWAP makes them. -/
theorem State.TouchedOnly.trans {s s1 t : State} {a : Word} (h : State.TouchedOnly s s1 a)
    (h' : State.TouchedOnly s1 t a) : State.TouchedOnly s t a where
  tuples pre m post hb hm hp := by
    obtain ⟨r, h1⟩ := h.tuples pre m post hb hm hp
    exact h'.tuples pre { m with region := r } post h1 hm hp
  missed hl := (h'.missed (by rw [h.missed hl]; exact hl)).trans (h.missed hl)
  uarts b u o hl hu := h'.uarts b u o (h.lookup_ne hl) (h.uarts b u o hl hu)

theorem State.memWrite_memory (s : State) (a v : Word) (n : Nat) : State.KeptOutside s (s.memWrite a n v).2 a n :=
  ⟨fun b hb => Bus.write_peek a (leBytes n v) s.bus b (by rw [leBytes_length]; exact hb),
    Bus.write_shape a _ s.bus, Bus.write_romContents a _ s.bus, State.memWrite_touched s a v n⟩

/-- A write inside RAM leaves every UART as it was: its fields, its queues and the bytes given to its sink. -/
theorem State.KeptOutside.uart_of_inRam {s t : State} {a b : Word} {n k : Nat} {u : Uart} {o : Nat}
    (h : State.KeptOutside s t a n) (hr : s.inRam a k) (hu : s.atUart b u o) : t.atUart b u o := by
  obtain ⟨m, size, buf, hl, hm, -⟩ := hr
  refine h.touched.uarts b u o (fun he => ?_) hu
  obtain ⟨m', hl', hm', -⟩ := hu
  rw [hl', hl] at he
  cases he
  rw [hm] at hm'
  cases hm'

/-- A read of bytes that one buffer holds answers them and changes nothing (R56, R60). -/
theorem State.memRead_holds (s : State) (a : Word) (bs : List Byte) (h : s.holdsBytes a bs) (h0 : bs ≠ []) :
    s.memRead a bs.length = (.ok (leValue bs), s) := by
  have hpos : 0 < bs.length := List.length_pos_iff.mpr h0
  have h0' := h 0 hpos
  unfold State.accessByte at h0'
  rcases hl : Bus.lookup a s.bus with _ | m
  · rw [hl] at h0'; cases h0'
  · have hall : ∀ i (hi : i < bs.length), a.toNat + i < 2 ^ 64 ∧ m.region.peek (m.offset a + i) = some bs[i] := by
      intro i hi
      have hi' := h i hi
      simp only [State.accessByte, hl] at hi'
      split at hi'
      · next ht => exact ⟨ht, hi'⟩
      · cases hi'
    have hbus : (Bus.read a bs.length s.bus).2 = s.bus := by
      refine Bus.read_buffer a bs.length s.bus fun m' hl' => ?_
      rw [hl] at hl'
      cases hl'
      have := (hall 0 hpos).2
      rcases hreg : m.region with ⟨size, buf⟩ | ⟨size, buf⟩ | dev <;> rw [hreg] at this
      · exact fun h => by cases h
      · exact fun h => by cases h
      · cases this
    simp only [State.memRead, Bus.read_ok bs hl hall, hbus, Except.map]

/-- A write inside one RAM buffer succeeds; the buffer then holds the bytes of the value (R57, R60, R64). -/
theorem State.memWrite_inRam (s : State) (a v : Word) (n : Nat) (h : s.inRam a n) :
    (s.memWrite a n v).1 = .ok () ∧
      (Bus.wf s.bus = true → (s.memWrite a n v).2.holdsBytes a (leBytes n v)) ∧ (s.memWrite a n v).2.inRam a n := by
  obtain ⟨m, size, buf, hl, hreg, hsize, htop⟩ := h
  have ha := Bus.holds_of_lookup hl
  simp only [Mapping.holds, Bool.and_eq_true, decide_eq_true_eq] at ha
  have hlen : (leBytes n v).length = n := leBytes_length n v
  have htop' : m.offset a + (leBytes n v).length ≤ m.top := by
    rw [hlen]; simp only [Mapping.offset, Mapping.top]; omega
  obtain ⟨buf', hw, hin, hout⟩ := Region.writeBytes_ram a m.top (m.offset a) size (leBytes n v) buf (by omega) htop'
  have hacc : m.region.writeBytes a m.top (m.offset a) (leBytes n v) = (.ok (), .ram size buf') := by rw [hreg]; exact hw
  have hafter : Bus.lookup a (Bus.write a (leBytes n v) s.bus).2 = some { m with region := .ram size buf' } := by
    have := Bus.lookup_route_self (fun m => m.region.writeBytes a m.top (m.offset a) (leBytes n v)) hl
    rw [hacc] at this
    exact this
  refine ⟨?_, fun hwf i hi => ?_, ?_⟩
  · have := Bus.route_fst (fun m => m.region.writeBytes a m.top (m.offset a) (leBytes n v)) hl
    rw [hacc] at this
    exact this
  · have hbuf : Cells.wf buf = true := by
      have hm : m.region.wf = true := by
        clear hafter hacc hw hreg
        generalize s.bus = bus at hl hwf
        induction bus with
        | nil => cases hl
        | cons m' rest ih =>
          simp only [Bus.wf, List.all_cons, Bool.and_eq_true] at hwf
          simp only [Bus.lookup] at hl
          split at hl
          · cases hl; exact hwf.1
          · exact ih hl hwf.2
      rw [hreg] at hm
      simp only [Region.wf, Memory.wf, Bool.and_eq_true] at hm
      exact hm.1
    have hi' : i < n := by rwa [hlen] at hi
    simp only [State.accessByte, State.memWrite_bus, hafter]
    rw [if_pos (by omega)]
    have hoff : Mapping.offset { m with region := .ram size buf' } a = m.offset a := rfl
    simp only [hoff, Region.peek]
    rw [if_pos (by omega), hin hbuf i hi]
  · exact ⟨_, size, buf', hafter, rfl, hsize, htop⟩

/-- An access at an address of no range is fatal and changes nothing (R54, R396). -/
theorem State.memRead_unmapped (s : State) (a : Word) (n : Nat) (h : Bus.lookup a s.bus = none) :
    s.memRead a n = (.error (.address a), s) := by
  simp only [State.memRead, Bus.read, Bus.route_none _ h]
  rfl

theorem State.memWrite_unmapped (s : State) (a v : Word) (n : Nat) (h : Bus.lookup a s.bus = none) :
    s.memWrite a n v = (.error (.address a), s) := by
  simp only [State.memWrite, Bus.write, Bus.route_none _ h]

/-- A write routed to a ROM is fatal at its first byte and changes nothing (R66, R397). -/
theorem State.memWrite_inRom (s : State) (a v : Word) (n : Nat) (h : s.inRom a) :
    s.memWrite a (n + 1) v = (.error (.romWrite a), s) := by
  obtain ⟨m, size, buf, hl, hreg⟩ := h
  have ha := Bus.holds_of_lookup hl
  simp only [Mapping.holds, Bool.and_eq_true, decide_eq_true_eq] at ha
  have hlt : m.offset a < m.top := by simp only [Mapping.offset, Mapping.top]; omega
  have hacc : m.region.writeBytes a m.top (m.offset a) (leBytes (n + 1) v) = (.error (.romWrite a), .rom size buf) := by
    rw [hreg]; exact Region.writeBytes_rom a m.top (m.offset a) size _ _ buf hlt
  have h1 : (Bus.write a (leBytes (n + 1) v) s.bus).1 = .error (.romWrite a) := by
    have := Bus.route_fst (fun m => m.region.writeBytes a m.top (m.offset a) (leBytes (n + 1) v)) hl
    rw [hacc] at this
    exact this
  have h2 : (Bus.write a (leBytes (n + 1) v) s.bus).2 = s.bus := by
    refine Bus.route_id _ s.bus fun m' hl' => ?_
    rw [hl] at hl'
    cases hl'
    rw [hacc, hreg]
  simp only [State.memWrite, h1, h2]

/-- Every access keeps the canonical form. -/
theorem State.memRead_wf (s : State) (a : Word) (n : Nat) (h : Bus.wf s.bus = true) :
    Bus.wf (s.memRead a n).2.bus = true := Bus.read_wf a n s.bus h

theorem State.memWrite_wf (s : State) (a v : Word) (n : Nat) (h : Bus.wf s.bus = true) :
    Bus.wf (s.memWrite a n v).2.bus = true := Bus.write_wf a _ s.bus h

/-- The value of up to eight bytes is their sum at their weights (R56). -/
theorem leValue_toNat (bs : List Byte) (h : bs.length ≤ 8) : (leValue bs).toNat = bytesNat bs := by
  have key : ∀ bs : List Byte, bytesNat bs < 2 ^ (8 * bs.length) := by
    intro bs
    induction bs with
    | nil => simp [bytesNat]
    | cons b bs ih =>
      simp only [bytesNat, List.length_cons]
      have := b.isLt
      rw [show 8 * (bs.length + 1) = 8 * bs.length + 8 by ring, Nat.pow_add]; omega
  induction bs with
  | nil => rfl
  | cons b bs ih =>
    have hl : bs.length ≤ 7 := by simp at h; omega
    have ih := ih (by omega)
    have hk := key bs
    have : 2 ^ (8 * bs.length) ≤ 2 ^ 56 := Nat.pow_le_pow_right (by omega) (by omega)
    have hb := b.isLt
    simp only [leValue, bytesNat, BitVec.toNat_or, BitVec.toNat_shiftLeft, BitVec.toNat_setWidth, ih]
    rw [Nat.mod_eq_of_lt (show b.toNat < 2 ^ 64 by omega), Nat.shiftLeft_eq, Nat.mod_eq_of_lt (by omega), Nat.or_comm,
      Nat.mul_comm (bytesNat bs), ← Nat.two_pow_add_eq_or_of_lt hb]
    omega

/-- A read that starts in a buffer and goes past it, or past the top of the address space, is fatal, reports the address
of its first byte, and changes nothing (R58, R59). -/
theorem State.memRead_past (s : State) (a : Word) (m : Mapping) (bs : List Byte) (n : Nat)
    (hl : Bus.lookup a s.bus = some m) (hr : m.region.shape ≠ .uart) (h : s.holdsBytes a bs) (hn : bs.length < n)
    (he : s.accessByte a bs.length = none) : s.memRead a n = (.error (.address a), s) := by
  have ha := Bus.holds_of_lookup hl
  simp only [Mapping.holds, Bool.and_eq_true, decide_eq_true_eq] at ha
  have key : m.region.readBytes a m.top n (m.offset a) = (.error (.address a), m.region) := by
    refine Region.readBytes_past a m.top (m.offset a) n m.region bs hr (fun i hi => ?_) hn ?_
    · have hi' := h i hi
      simp only [State.accessByte, hl] at hi'
      split at hi'
      · next ht => exact ⟨by simp only [Mapping.offset, Mapping.top]; omega, hi'⟩
      · cases hi'
    · simp only [State.accessByte, hl] at he
      split at he
      · exact .inr he
      · left; simp only [Mapping.offset, Mapping.top]; omega
  have h1 : (Bus.read a n s.bus).1 = .error (.address a) := by unfold Bus.read; rw [Bus.route_fst _ hl, key]
  have h2 : (Bus.read a n s.bus).2 = s.bus :=
    Bus.read_buffer a n s.bus fun m' hl' => by rw [hl] at hl'; cases hl'; exact hr
  simp only [State.memRead, h1, h2]; rfl

/-- A write that goes past its RAM buffer, or past the top of the address space, after `k` bytes is fatal, reports the
address of its first byte, and leaves what the write of the first `k` bytes leaves (R57, R58, R59). -/
theorem State.memWrite_past (s : State) (a v : Word) (n k : Nat) (h : s.inRam a k) (hk : k < n)
    (hn : ¬ s.inRam a (k + 1)) : s.memWrite a n v = (.error (.address a), (s.memWrite a k v).2) := by
  obtain ⟨m, size, buf, hl, hreg, hs, ht⟩ := h
  have ha := Bus.holds_of_lookup hl
  simp only [Mapping.holds, Bool.and_eq_true, decide_eq_true_eq] at ha
  obtain ⟨j, rfl⟩ : ∃ j, n = k + (j + 1) := ⟨n - k - 1, by omega⟩
  obtain ⟨buf', hw, -, -⟩ := Region.writeBytes_ram a m.top (m.offset a) size (leBytes k v) buf (by simpa using hs)
    (by simp only [leBytes_length, Mapping.offset, Mapping.top]; omega)
  have hend : size ≤ m.offset a + k ∨ m.top ≤ m.offset a + k := by
    by_contra hc
    apply hn
    refine ⟨m, size, buf, hl, hreg, by omega, ?_⟩
    simp only [Mapping.offset, Mapping.top] at hc; omega
  have key : m.region.writeBytes a m.top (m.offset a) (leBytes (k + (j + 1)) v) =
      (.error (.address a), .ram size buf') := by
    rw [leBytes_append, Region.writeBytes_append, hreg, hw]
    simp only [leBytes_length, leBytes, Region.writeBytes, Region.writeByte]
    split
    · rfl
    · next h => rw [if_neg (by omega)]
  have key2 : m.region.writeBytes a m.top (m.offset a) (leBytes k v) = (.ok (), .ram size buf') := by
    rw [hreg]; exact hw
  have h2 : ∀ bus : Bus, Bus.lookup a bus = some m →
      Bus.write a (leBytes (k + (j + 1)) v) bus = (.error (.address a), (Bus.write a (leBytes k v) bus).2) := by
    intro bus hl
    induction bus with
    | nil => cases hl
    | cons m' rest ih =>
      simp only [Bus.lookup] at hl
      simp only [Bus.write, Bus.route] at ih ⊢
      split at hl
      · next hm => cases hl; simp only [hm, if_true, key, key2]
      · next hm => rw [if_neg hm, if_neg hm, ih hl]
  simp only [State.memWrite, h2 _ hl]

/-- What a read answers, and the region it leaves, in terms of the tuple it is routed to (R53, R56). -/
theorem State.memRead_routed {s : State} {a : Word} {m : Mapping} (n : Nat) (hl : Bus.lookup a s.bus = some m) :
    (s.memRead a n).1 = (m.region.readBytes a m.top n (m.offset a)).1.map leValue ∧
      Bus.lookup a (s.memRead a n).2.bus =
        some { m with region := (m.region.readBytes a m.top n (m.offset a)).2 } :=
  ⟨by simp only [State.memRead, Bus.read, Bus.route_fst _ hl], Bus.lookup_route_self _ hl⟩

/-- What a write answers, and the region it leaves, in terms of the tuple it is routed to (R53, R57). -/
theorem State.memWrite_routed {s : State} {a : Word} {m : Mapping} (n : Nat) (v : Word)
    (hl : Bus.lookup a s.bus = some m) :
    (s.memWrite a n v).1 = (m.region.writeBytes a m.top (m.offset a) (leBytes n v)).1 ∧
      Bus.lookup a (s.memWrite a n v).2.bus =
        some { m with region := (m.region.writeBytes a m.top (m.offset a) (leBytes n v)).2 } :=
  ⟨by simp only [State.memWrite, Bus.write, Bus.route_fst _ hl], Bus.lookup_route_self _ hl⟩

/-! ## The shapes of instructions -/

theorem writeResult_eq (len : Word) (rd : Reg) (v : Word) (s : State) :
    writeResult len rd v s = .next ((s.setX rd v).tail len) := rfl

theorem noEffect_eq (len : Word) (s : State) : noEffect len s = .next (s.tail len) := rfl

theorem jump_eq (rd : Reg) (link target : Word) (s : State) :
    jump rd link target s = .next ((s.setX rd link).redirect target) := rfl

theorem branch_eq (len : Word) (taken : Bool) (imm : BitVec 13) (s : State) :
    branch len taken imm s = .next (if taken then s.redirect (s.pc + bOperand imm) else s.tail len) := by
  cases taken <;> rfl

theorem load_ok {len : Word} {n : Nat} {view : Word → Word} {rd : Reg} {a : Word} {s s1 : State} {v : Word}
    (h : s.memRead a n = (.ok v, s1)) : load len n view rd a s = .next ((s1.setX rd (view v)).tail len) := by
  simp only [load, h]; rfl

theorem load_error {len : Word} {n : Nat} {view : Word → Word} {rd : Reg} {a : Word} {s s1 : State} {f : Fatal}
    (h : s.memRead a n = (.error f, s1)) : load len n view rd a s = .next (s1.raise f) := by
  simp only [load, h]

theorem store_ok {len : Word} {n : Nat} {a v : Word} {s s1 : State} {u : Unit}
    (h : s.memWrite a n v = (.ok u, s1)) : store len n a v s = .next (s1.tail len) := by
  simp only [store, h]; rfl

theorem store_error {len : Word} {n : Nat} {a v : Word} {s s1 : State} {f : Fatal}
    (h : s.memWrite a n v = (.error f, s1)) : store len n a v s = .next (s1.raise f) := by
  simp only [store, h]

theorem storeConditional_ok {n : Nat} {rd : Reg} {a v : Word} {s s1 : State} {u : Unit}
    (h : s.memWrite a n v = (.ok u, s1)) :
    storeConditional n rd a v s = .next ((s1.setX rd s.cfg.scRdResult).tail 4) := by
  simp only [storeConditional, h]; rfl

theorem storeConditional_error {n : Nat} {rd : Reg} {a v : Word} {s s1 : State} {f : Fatal}
    (h : s.memWrite a n v = (.error f, s1)) : storeConditional n rd a v s = .next (s1.raise f) := by
  simp only [storeConditional, h]

theorem swap_ok {n : Nat} {view : Word → Word} {rd : Reg} {a v t : Word} {s s1 s2 : State} {u : Unit}
    (h : s.memRead a n = (.ok t, s1)) (h' : s1.memWrite a n v = (.ok u, s2)) :
    swap n view rd a v s = .next ((s2.setX rd (view t)).tail 4) := by
  simp only [swap, h, h']; rfl

theorem swap_readError {n : Nat} {view : Word → Word} {rd : Reg} {a v : Word} {s s1 : State} {f : Fatal}
    (h : s.memRead a n = (.error f, s1)) : swap n view rd a v s = .next (s1.raise f) := by
  simp only [swap, h]

theorem swap_writeError {n : Nat} {view : Word → Word} {rd : Reg} {a v t : Word} {s s1 s2 : State} {f : Fatal}
    (h : s.memRead a n = (.ok t, s1)) (h' : s1.memWrite a n v = (.error f, s2)) :
    swap n view rd a v s = .next (s2.raise f) := by
  simp only [swap, h, h']

theorem csrUpdate_ok {new : Word → Word → Word} {rd rs1 : Reg} {v : Word} {s : State}
    (h : (s.getX rs1).toNat < csrCount) :
    csrUpdate new rd rs1 v s = .next (((s.csrSet (s.getX rs1).toNat (new (s.csrGet (s.getX rs1).toNat) v)).setX rd
      (s.csrGet (s.getX rs1).toNat)).tail 4) := by
  unfold csrUpdate
  rw [if_neg (by omega)]
  rfl

theorem csrUpdate_error {new : Word → Word → Word} {rd rs1 : Reg} {v : Word} {s : State}
    (h : csrCount ≤ (s.getX rs1).toNat) : csrUpdate new rd rs1 v s = .next (s.raise (.csrIndex (s.getX rs1))) := by
  unfold csrUpdate
  rw [if_pos h]

end Sys2Proof.Machine
end

