-- ==== Sys2Proof/Laws/Exec.lean ====
section
/-! SUPPORT. Said once for all instructions: everything that one execution and one step can do. Later proofs cite
`exec_effect` and `step_cases` in place of a case analysis over the instructions. -/

namespace Sys2Proof.Machine

/-- Everything that `exec i s` can do, when it answers `t`. -/
structure Effect (i : Instr) (s t : State) : Prop where
  /-- the region table stays (R31) -/
  shape : Bus.shape t.bus = Bus.shape s.bus
  /-- ROM contents stay (R66) -/
  rom : Bus.romContents t.bus = Bus.romContents s.bus
  wf : Bus.wf s.bus = true → Bus.wf t.bus = true
  cfg : t.cfg = s.cfg
  /-- only the CSR instructions write the CSR file, one cell of it (R27) -/
  csr : i.usesCsr = false → t.csr = s.csr
  csrCell : t.csr = s.csr ∨ ∃ k v, k < csrCount ∧ t.csr = Cells.set s.csr k v
  /-- memory changes in the bytes of the instruction's store only (R69) -/
  keeps : i.storeSpan s = none → ∀ a, t.peek a = s.peek a
  keepsOutside : ∀ a n, i.storeSpan s = some (a, n) → ∀ b : Word,
      b.toNat < a.toNat ∨ a.toNat + n ≤ b.toNat → t.peek b = s.peek b
  /-- it ends in a fatal error, or it completes (R143 to R149) -/
  ends : (∃ f, State.Raised s t f) ∨ (t.halted = s.halted ∧ t.regs[0] = 0 ∧
      (∀ r, i.dest ≠ some r → t.getX r = s.getX r) ∧ (i.mayRedirect = false → t.pc = s.pc + BitVec.ofNat 64 i.size))
  /-- only the CSR instructions depend on the CSR file -/
  independent : i.usesCsr = false → ∀ c, exec i { s with csr := c } = .next { t with csr := c }

theorem effect_writeResult {i : Instr} {s : State} {len : Word} {rd v} (h0 : exec i s = writeResult len rd v s)
    (h : ∀ c, exec i { s with csr := c } = writeResult len rd v { s with csr := c }) (hd : i.dest = some rd)
    (hl : BitVec.ofNat 64 i.size = len) : ∃ t, exec i s = .next t ∧ Effect i s t := by
  have hw := State.wrote_tail s rd v len
  refine ⟨_, h s.csr, by simp, by simp, by simp, by simp, by simp, by simp, fun _ a => ?_, fun a n _ b _ => ?_,
      .inr ⟨by simp, by simp, fun r hr => hw.others r ?_, fun _ => by simp [hl]⟩, fun _ c => ?_⟩
  · simp [State.peek]
  · simp [State.peek]
  · intro e; subst e; exact hr hd
  · rw [h c, writeResult]
    simp only [State.setX]; split <;> rfl

theorem effect_noEffect {i : Instr} {s : State} {len : Word}
    (h : ∀ c, exec i { s with csr := c } = noEffect len { s with csr := c }) (hl : BitVec.ofNat 64 i.size = len) :
    ∃ t, exec i s = .next t ∧ Effect i s t := by
  refine ⟨_, h s.csr, by simp, by simp, by simp, by simp, by simp, by simp, fun _ a => ?_, fun a n _ b _ => ?_,
      .inr ⟨by simp, by simp, fun r hr => ?_, fun _ => by simp [hl]⟩, fun _ c => ?_⟩
  · simp [State.peek]
  · simp [State.peek]
  · exact State.getX_tail s len r
  · rw [h c, noEffect]; rfl

theorem effect_jump {i : Instr} {s : State} {rd l t} (h0 : exec i s = jump rd l t s)
    (h : ∀ c, exec i { s with csr := c } = jump rd l t { s with csr := c }) (hd : i.dest = some rd)
    (hm : i.mayRedirect = true) : ∃ t, exec i s = .next t ∧ Effect i s t := by
  have hw := State.wrote_redirect s rd l t
  refine ⟨_, h s.csr, by simp, by simp, by simp, by simp, by simp, by simp, fun _ a => ?_, fun a n _ b _ => ?_,
      .inr ⟨by simp, by simp, fun r hr => hw.others r ?_, fun h => by simp [hm] at h⟩, fun _ c => ?_⟩
  · simp [State.peek]
  · simp [State.peek]
  · intro e; subst e; exact hr hd
  · rw [h c, jump]
    simp only [State.setX]; split <;> rfl

theorem effect_branch {i : Instr} {s : State} {len b imm} (h0 : exec i s = branch len b imm s)
    (h : ∀ c, exec i { s with csr := c } = branch len b imm { s with csr := c }) (hm : i.mayRedirect = true) :
    ∃ t, exec i s = .next t ∧ Effect i s t := by
  cases b
  · refine ⟨_, h s.csr, by simp, by simp, by simp, by simp, by simp, by simp, fun _ a => ?_, fun a n _ b _ => ?_,
      .inr ⟨by simp, by simp, fun r hr => State.getX_tail s len r, fun h => by simp [hm] at h⟩, fun _ c => ?_⟩
    · simp [State.peek]
    · simp [State.peek]
    · rw [h c, branch]; rfl
  · refine ⟨_, h s.csr, by simp, by simp, by simp, by simp, by simp, by simp, fun _ a => ?_, fun a n _ b _ => ?_,
      .inr ⟨by simp, by simp, fun r hr => State.getX_redirect s _ r, fun h => by simp [hm] at h⟩, fun _ c => ?_⟩
    · simp [State.peek]
    · simp [State.peek]
    · rw [h c, branch]; rfl

theorem State.memRead_withCsr (s : State) (a n c) : ({ s with csr := c } : State).memRead a n = ((s.memRead a n).1,
    { (s.memRead a n).2 with csr := c }) := rfl

theorem State.memWrite_withCsr (s : State)
    (a n v c) : ({ s with csr := c } : State).memWrite a n v = ((s.memWrite a n v).1,
    { (s.memWrite a n v).2 with csr := c }) := rfl

theorem effect_load {i : Instr} {s : State} {len : Word} {n view rd a} (h0 : exec i s = load len n view rd a s)
    (h : ∀ c, exec i { s with csr := c } = load len n view rd a { s with csr := c }) (hd : i.dest = some rd)
    (hl : BitVec.ofNat 64 i.size = len) : ∃ t, exec i s = .next t ∧ Effect i s t := by
  have hmem := State.memRead_memory s a n
  have hwf := State.memRead_wf s a n
  have hr1 : (s.memRead a n).2.regs = s.regs := rfl
  have hp : (s.memRead a n).2.pc = s.pc := rfl
  rcases hm : s.memRead a n with ⟨f | v, s1⟩
  · rw [hm] at hmem hwf
    have e1 : s1 = (s.memRead a n).2 := by rw [hm]
    refine ⟨_, (h s.csr).trans (load_error hm), hmem.shape, hmem.rom, hwf, by rw [e1]; rfl,
        fun _ => by rw [e1]; rfl, .inl (by rw [e1]; rfl), fun _ => hmem.bytes, fun _ _ _ b _ => hmem.bytes b,
        .inl ⟨f, by rw [e1]; exact ⟨rfl, rfl, rfl, rfl, rfl⟩⟩, fun _ c => ?_⟩
    rw [h c, load_error (s1 := { s1 with csr := c }) (f := f)]; rfl
    rw [State.memRead_withCsr, hm]
  · rw [hm] at hmem hwf
    have e1 : s1 = (s.memRead a n).2 := by rw [hm]
    have hw := (State.wrote_tail s1 rd (view v) len).of_regs (s := s) (by rw [e1]; rfl)
    refine ⟨_, (h s.csr).trans (load_ok hm), by simpa using hmem.shape, by simpa using hmem.rom, by simpa using hwf,
        by simp; rw [e1]; rfl, fun _ => by simp; rw [e1]; rfl, .inl (by simp; rw [e1]; rfl),
        fun _ a => by simpa [State.peek] using hmem.bytes a,
        fun _ _ _ b _ => by simpa [State.peek] using hmem.bytes b, .inr ⟨by simp; rw [e1]; rfl, by simp,
        fun r hr => hw.others r ?_, fun _ => by simp [hl]; rw [e1]; rfl⟩, fun _ c => ?_⟩
    · intro e; subst e; exact hr hd
    · rw [h c, load_ok (s1 := { s1 with csr := c }) (v := v)]
      · simp only [State.setX]; split <;> rfl
      · rw [State.memRead_withCsr, hm]

theorem effect_store {i : Instr} {s : State} {len : Word} {n a v} (_h0 : exec i s = store len n a v s)
    (h : ∀ c, exec i { s with csr := c } = store len n a v { s with csr := c }) (hsp : i.storeSpan s = some (a, n))
    (hl : BitVec.ofNat 64 i.size = len) : ∃ t, exec i s = .next t ∧ Effect i s t := by
  have hmem := State.memWrite_memory s a v n
  have hwf := State.memWrite_wf s a v n
  rcases hm : s.memWrite a n v with ⟨f | u, s1⟩
  · rw [hm] at hmem hwf
    have e1 : s1 = (s.memWrite a n v).2 := by rw [hm]
    refine ⟨_, (h s.csr).trans (store_error hm), hmem.shape, hmem.rom, hwf, by rw [e1]; rfl,
        fun _ => by rw [e1]; rfl, .inl (by rw [e1]; rfl), fun hn => by simp [hsp] at hn, fun a' n' hs b hb => ?_,
        .inl ⟨f, by rw [e1]; exact ⟨rfl, rfl, rfl, rfl, rfl⟩⟩, fun _ c => ?_⟩
    · rw [hsp] at hs; cases hs; exact hmem.bytes b hb
    · rw [h c, store_error (s1 := { s1 with csr := c }) (f := f)]; rfl
      rw [State.memWrite_withCsr, hm]
  · rw [hm] at hmem hwf
    have e1 : s1 = (s.memWrite a n v).2 := by rw [hm]
    refine ⟨_, (h s.csr).trans (store_ok hm), by simpa using hmem.shape, by simpa using hmem.rom,
        by simpa using hwf, by simp; rw [e1]; rfl, fun _ => by simp; rw [e1]; rfl, .inl (by simp; rw [e1]; rfl),
        fun hn => by simp [hsp] at hn, fun a' n' hs b hb => ?_, .inr ⟨by simp; rw [e1]; rfl, by simp,
        fun r hr => ?_, fun _ => by simp [hl]; rw [e1]; rfl⟩, fun _ c => ?_⟩
    · rw [hsp] at hs; cases hs; exact hmem.bytes b hb
    · rw [State.getX_tail, e1]; simp
    · rw [h c, store_ok (s1 := { s1 with csr := c }) (u := ())]
      · rfl
      · rw [State.memWrite_withCsr, hm]

theorem effect_storeConditional {i : Instr} {s : State}  {n rd a v} (h0 : exec i s = storeConditional n rd a v s)
    (h : ∀ c, exec i { s with csr := c } = storeConditional n rd a v { s with csr := c }) (hd : i.dest = some rd)
    (hsp : i.storeSpan s = some (a, n)) (hl : i.size = 4) : ∃ t, exec i s = .next t ∧ Effect i s t := by
  have hmem := State.memWrite_memory s a v n
  have hwf := State.memWrite_wf s a v n
  rcases hm : s.memWrite a n v with ⟨f | u, s1⟩
  · rw [hm] at hmem hwf
    have e1 : s1 = (s.memWrite a n v).2 := by rw [hm]
    refine ⟨_, (h s.csr).trans (storeConditional_error hm), hmem.shape, hmem.rom, hwf, by rw [e1]; rfl,
        fun _ => by rw [e1]; rfl, .inl (by rw [e1]; rfl), fun hn => by simp [hsp] at hn, fun a' n' hs b hb => ?_,
        .inl ⟨f, by rw [e1]; exact ⟨rfl, rfl, rfl, rfl, rfl⟩⟩, fun _ c => ?_⟩
    · rw [hsp] at hs; cases hs; exact hmem.bytes b hb
    · rw [h c, storeConditional_error (s1 := { s1 with csr := c }) (f := f)]; rfl
      rw [State.memWrite_withCsr, hm]
  · rw [hm] at hmem hwf
    have e1 : s1 = (s.memWrite a n v).2 := by rw [hm]
    have hw := (State.wrote_tail s1 rd s.cfg.scRdResult 4).of_regs (s := s) (by rw [e1]; rfl)
    refine ⟨_, (h s.csr).trans (storeConditional_ok hm), by simpa using hmem.shape, by simpa using hmem.rom,
        by simpa using hwf, by simp; rw [e1]; rfl, fun _ => by simp; rw [e1]; rfl, .inl (by simp; rw [e1]; rfl),
        fun hn => by simp [hsp] at hn, fun a' n' hs b hb => ?_, .inr ⟨by simp; rw [e1]; rfl, by simp,
        fun r hr => hw.others r ?_, fun _ => by simp [hl]; rw [e1]; rfl⟩, fun _ c => ?_⟩
    · rw [hsp] at hs; cases hs; simpa [State.peek] using hmem.bytes b hb
    · intro e; subst e; exact hr hd
    · rw [h c, storeConditional_ok (s1 := { s1 with csr := c }) (u := ())]
      · simp only [State.setX]; split <;> rfl
      · rw [State.memWrite_withCsr, hm]

theorem effect_swap {i : Instr} {s : State} {n view rd a v} (h0 : exec i s = swap n view rd a v s)
    (h : ∀ c, exec i { s with csr := c } = swap n view rd a v { s with csr := c }) (hd : i.dest = some rd)
    (hsp : i.storeSpan s = some (a, n)) (hl : i.size = 4) : ∃ t, exec i s = .next t ∧ Effect i s t := by
  have rmem := State.memRead_memory s a n
  have rwf := State.memRead_wf s a n
  rcases hm : s.memRead a n with ⟨f | t0, s1⟩
  · rw [hm] at rmem rwf
    have e1 : s1 = (s.memRead a n).2 := by rw [hm]
    refine ⟨_, (h s.csr).trans (swap_readError hm), rmem.shape, rmem.rom, rwf, by rw [e1]; rfl,
        fun _ => by rw [e1]; rfl, .inl (by rw [e1]; rfl), fun hn => by simp [hsp] at hn,
        fun _ _ _ b _ => rmem.bytes b, .inl ⟨f, by rw [e1]; exact ⟨rfl, rfl, rfl, rfl, rfl⟩⟩, fun _ c => ?_⟩
    rw [h c, swap_readError (s1 := { s1 with csr := c }) (f := f)]; rfl
    rw [State.memRead_withCsr, hm]
  · rw [hm] at rmem rwf
    have e1 : s1 = (s.memRead a n).2 := by rw [hm]
    have hmem := State.memWrite_memory s1 a v n
    have hwf := State.memWrite_wf s1 a v n
    rcases hm2 : s1.memWrite a n v with ⟨f | u, s2⟩
    · rw [hm2] at hmem hwf
      have e2 : s2 = (s1.memWrite a n v).2 := by rw [hm2]
      refine ⟨_, (h s.csr).trans (swap_writeError hm hm2), hmem.shape.trans rmem.shape, hmem.rom.trans rmem.rom,
          fun h => hwf (rwf h), by rw [e2, e1]; rfl, fun _ => by rw [e2, e1]; rfl, .inl (by rw [e2, e1]; rfl),
          fun hn => by simp [hsp] at hn, fun a' n' hs b hb => ?_, .inl ⟨f,
          by rw [e2, e1]; exact ⟨rfl, rfl, rfl, rfl, rfl⟩⟩, fun _ c => ?_⟩
      · rw [hsp] at hs; cases hs; exact (hmem.bytes b hb).trans (rmem.bytes b)
      · rw [h c, swap_writeError (s1 := { s1 with csr := c }) (s2 := {s2 with csr := c }) (f := f) (t := t0)]; rfl
        rw [State.memRead_withCsr, hm]
        rw [State.memWrite_withCsr, hm2]
    · rw [hm2] at hmem hwf
      have e2 : s2 = (s1.memWrite a n v).2 := by rw [hm2]
      have hw := (State.wrote_tail s2 rd (view t0) 4).of_regs (s := s) (by rw [e2, e1]; rfl)
      refine ⟨_, (h s.csr).trans (swap_ok hm hm2), by simpa using hmem.shape.trans rmem.shape,
          by simpa using hmem.rom.trans rmem.rom, by simpa using fun h => hwf (rwf h), by simp; rw [e2, e1]; rfl,
          fun _ => by simp; rw [e2, e1]; rfl, .inl (by simp; rw [e2, e1]; rfl), fun hn => by simp [hsp] at hn,
          fun a' n' hs b hb => ?_, .inr ⟨by simp; rw [e2, e1]; rfl, by simp, fun r hr => hw.others r ?_,
          fun _ => by simp [hl]; rw [e2, e1]; rfl⟩, fun _ c => ?_⟩
      · rw [hsp] at hs; cases hs; simpa [State.peek] using (hmem.bytes b hb).trans (rmem.bytes b)
      · intro e; subst e; exact hr hd
      · rw [h c, swap_ok (s1 := { s1 with csr := c }) (s2 := {s2 with csr := c }) (u := ()) (t := t0)]
        · simp only [State.setX]; split <;> rfl
        · rw [State.memRead_withCsr, hm]
        · rw [State.memWrite_withCsr, hm2]

theorem effect_csrUpdate {i : Instr} {s : State} {new rd rs1 v} (h : exec i s = csrUpdate new rd rs1 v s)
    (hd : i.dest = some rd) (hc : i.usesCsr = true) (hl : i.size = 4) : ∃ t, exec i s = .next t ∧ Effect i s t := by
  by_cases hk : (s.getX rs1).toNat < csrCount
  · have hw := (State.wrote_tail (s.csrSet (s.getX rs1).toNat (new (s.csrGet (s.getX rs1).toNat) v)) rd (s.csrGet (s.getX rs1).toNat) 4).of_regs (s := s) rfl
    refine ⟨_, h.trans (csrUpdate_ok hk), by simp, by simp, by simp, by simp, by simp [hc], .inr ⟨_, _, hk,
        by simp; rfl⟩, fun _ a => ?_, fun a n _ b _ => ?_, .inr ⟨by simp, by simp, fun r hr => hw.others r ?_,
        fun _ => by simp [hl]⟩, by simp [hc]⟩
    · simp [State.peek]
    · simp [State.peek]
    · intro e; subst e; exact hr hd
  · exact ⟨_, h.trans (csrUpdate_error (by omega)), rfl, rfl, id, rfl, fun _ => rfl, .inl rfl, fun _ _ => rfl,
      fun _ _ _ _ _ => rfl, .inl ⟨_, ⟨rfl, rfl, rfl, rfl, rfl⟩⟩, by simp [hc]⟩

theorem exec_effect (i : Instr) (s : State) : ∃ t, exec i s = .next t ∧ Effect i s t := by
  cases i
  case cSlli64 rd => exact ⟨_, rfl, rfl, rfl, id, rfl, fun _ => rfl, .inl rfl, fun _ _ => rfl, fun _ _ _ _ _ => rfl,
      .inl ⟨_, ⟨rfl, rfl, rfl, rfl, rfl⟩⟩, fun _ _ => rfl⟩
  case csrrw => exact effect_csrUpdate rfl rfl rfl rfl
  case csrrs => exact effect_csrUpdate rfl rfl rfl rfl
  case csrrc => exact effect_csrUpdate rfl rfl rfl rfl
  case csrrwi => exact effect_csrUpdate rfl rfl rfl rfl
  case csrrsi => exact effect_csrUpdate rfl rfl rfl rfl
  case csrrci => exact effect_csrUpdate rfl rfl rfl rfl
  case lui => exact effect_writeResult rfl (fun _ => rfl) rfl rfl
  case auipc => exact effect_writeResult rfl (fun _ => rfl) rfl rfl
  case jal => exact effect_jump rfl (fun _ => rfl) rfl rfl
  case jalr => exact effect_jump rfl (fun _ => rfl) rfl rfl
  case beq => exact effect_branch rfl (fun _ => rfl) rfl
  case bne => exact effect_branch rfl (fun _ => rfl) rfl
  case blt => exact effect_branch rfl (fun _ => rfl) rfl
  case bge => exact effect_branch rfl (fun _ => rfl) rfl
  case bltu => exact effect_branch rfl (fun _ => rfl) rfl
  case bgeu => exact effect_branch rfl (fun _ => rfl) rfl
  case lb => exact effect_load rfl (fun _ => rfl) rfl rfl
  case lh => exact effect_load rfl (fun _ => rfl) rfl rfl
  case lw => exact effect_load rfl (fun _ => rfl) rfl rfl
  case ld => exact effect_load rfl (fun _ => rfl) rfl rfl
  case lbu => exact effect_load rfl (fun _ => rfl) rfl rfl
  case lhu => exact effect_load rfl (fun _ => rfl) rfl rfl
  case lwu => exact effect_load rfl (fun _ => rfl) rfl rfl
  case sb => exact effect_store rfl (fun _ => rfl) rfl rfl
  case sh => exact effect_store rfl (fun _ => rfl) rfl rfl
  case sw => exact effect_store rfl (fun _ => rfl) rfl rfl
  case sd => exact effect_store rfl (fun _ => rfl) rfl rfl
  case addi => exact effect_writeResult rfl (fun _ => rfl) rfl rfl
  case slti => exact effect_writeResult rfl (fun _ => rfl) rfl rfl
  case sltiu => exact effect_writeResult rfl (fun _ => rfl) rfl rfl
  case xori => exact effect_writeResult rfl (fun _ => rfl) rfl rfl
  case ori => exact effect_writeResult rfl (fun _ => rfl) rfl rfl
  case andi => exact effect_writeResult rfl (fun _ => rfl) rfl rfl
  case slli => exact effect_writeResult rfl (fun _ => rfl) rfl rfl
  case srli => exact effect_writeResult rfl (fun _ => rfl) rfl rfl
  case srai => exact effect_writeResult rfl (fun _ => rfl) rfl rfl
  case addiw => exact effect_writeResult rfl (fun _ => rfl) rfl rfl
  case slliw => exact effect_writeResult rfl (fun _ => rfl) rfl rfl
  case srliw => exact effect_writeResult rfl (fun _ => rfl) rfl rfl
  case sraiw => exact effect_writeResult rfl (fun _ => rfl) rfl rfl
  case add => exact effect_writeResult rfl (fun _ => rfl) rfl rfl
  case sub => exact effect_writeResult rfl (fun _ => rfl) rfl rfl
  case sll => exact effect_writeResult rfl (fun _ => rfl) rfl rfl
  case slt => exact effect_writeResult rfl (fun _ => rfl) rfl rfl
  case sltu => exact effect_writeResult rfl (fun _ => rfl) rfl rfl
  case xor => exact effect_writeResult rfl (fun _ => rfl) rfl rfl
  case srl => exact effect_writeResult rfl (fun _ => rfl) rfl rfl
  case sra => exact effect_writeResult rfl (fun _ => rfl) rfl rfl
  case or => exact effect_writeResult rfl (fun _ => rfl) rfl rfl
  case and => exact effect_writeResult rfl (fun _ => rfl) rfl rfl
  case mul => exact effect_writeResult rfl (fun _ => rfl) rfl rfl
  case mulh => exact effect_writeResult rfl (fun _ => rfl) rfl rfl
  case mulhsu => exact effect_writeResult rfl (fun _ => rfl) rfl rfl
  case mulhu => exact effect_writeResult rfl (fun _ => rfl) rfl rfl
  case div => exact effect_writeResult rfl (fun _ => rfl) rfl rfl
  case divu => exact effect_writeResult rfl (fun _ => rfl) rfl rfl
  case rem => exact effect_writeResult rfl (fun _ => rfl) rfl rfl
  case remu => exact effect_writeResult rfl (fun _ => rfl) rfl rfl
  case lrW => exact effect_load rfl (fun _ => rfl) rfl rfl
  case lrD => exact effect_load rfl (fun _ => rfl) rfl rfl
  case scW => exact effect_storeConditional rfl (fun _ => rfl) rfl rfl rfl
  case scD => exact effect_storeConditional rfl (fun _ => rfl) rfl rfl rfl
  case amoswapW => exact effect_swap rfl (fun _ => rfl) rfl rfl rfl
  case amoswapD => exact effect_swap rfl (fun _ => rfl) rfl rfl rfl
  case fence => exact effect_noEffect (fun _ => rfl) rfl
  case ecall => exact effect_noEffect (fun _ => rfl) rfl
  case ebreak => exact effect_noEffect (fun _ => rfl) rfl
  case cAddi4spn => exact effect_writeResult rfl (fun _ => rfl) rfl rfl
  case cLw => exact effect_load rfl (fun _ => rfl) rfl rfl
  case cSw => exact effect_store rfl (fun _ => rfl) rfl rfl
  case cAddi => exact effect_writeResult rfl (fun _ => rfl) rfl rfl
  case cJal => exact effect_jump rfl (fun _ => rfl) rfl rfl
  case cLi => exact effect_writeResult rfl (fun _ => rfl) rfl rfl
  case cAddi16sp => exact effect_writeResult rfl (fun _ => rfl) rfl rfl
  case cLui => exact effect_writeResult rfl (fun _ => rfl) rfl rfl
  case cSrli => exact effect_writeResult rfl (fun _ => rfl) rfl rfl
  case cSrai => exact effect_writeResult rfl (fun _ => rfl) rfl rfl
  case cAndi => exact effect_writeResult rfl (fun _ => rfl) rfl rfl
  case cSub => exact effect_writeResult rfl (fun _ => rfl) rfl rfl
  case cXor => exact effect_writeResult rfl (fun _ => rfl) rfl rfl
  case cOr => exact effect_writeResult rfl (fun _ => rfl) rfl rfl
  case cAnd => exact effect_writeResult rfl (fun _ => rfl) rfl rfl
  case cJ => exact effect_jump rfl (fun _ => rfl) rfl rfl
  case cBeqz => exact effect_branch rfl (fun _ => rfl) rfl
  case cBnez => exact effect_branch rfl (fun _ => rfl) rfl
  case cSlli => exact effect_writeResult rfl (fun _ => rfl) rfl rfl
  case cJr => exact effect_jump rfl (fun _ => rfl) rfl rfl
  case cMv => exact effect_writeResult rfl (fun _ => rfl) rfl rfl
  case cEbreak => exact effect_noEffect (fun _ => rfl) rfl
  case cJalr => exact effect_jump rfl (fun _ => rfl) rfl rfl
  case cAdd => exact effect_writeResult rfl (fun _ => rfl) rfl rfl

theorem Effect.of_exec {i : Instr} {s t : State} (h : exec i s = .next t) : Effect i s t := by
  obtain ⟨u, hu, he⟩ := exec_effect i s
  rw [hu] at h; cases h; exact he

/-! ## Which tuple of the region table an instruction reaches -/

/-- The bus after a store is that of its write, fatal or not. -/
theorem store_bus {len : Word} {n : Nat} {a v : Word} {s t : State} (h : store len n a v s = .next t) :
    t.bus = (s.memWrite a n v).2.bus := by
  rcases hm : s.memWrite a n v with ⟨f | u, s1⟩
  · rw [store_error hm] at h; cases h; rfl
  · rw [store_ok hm] at h; cases h; simp

theorem storeConditional_bus {n : Nat} {rd : Reg} {a v : Word} {s t : State}
    (h : storeConditional n rd a v s = .next t) : t.bus = (s.memWrite a n v).2.bus := by
  rcases hm : s.memWrite a n v with ⟨f | u, s1⟩
  · rw [storeConditional_error hm] at h; cases h; rfl
  · rw [storeConditional_ok hm] at h; cases h; simp

/-- The bus after an AMOSWAP is that of its read, and of its write after it if the read answers. -/
theorem swap_bus {n : Nat} {view : Word → Word} {rd : Reg} {a v : Word} {s t : State}
    (h : swap n view rd a v s = .next t) :
    t.bus = (s.memRead a n).2.bus ∨ t.bus = ((s.memRead a n).2.memWrite a n v).2.bus := by
  rcases hm : s.memRead a n with ⟨f | x, s1⟩
  · rw [swap_readError hm] at h; cases h; exact .inl rfl
  · rcases hw : s1.memWrite a n v with ⟨f | u, s2⟩
    · rw [swap_writeError hm hw] at h; cases h; exact .inr rfl
    · rw [swap_ok hm hw] at h; cases h; exact .inr (by simp)

theorem swap_touched {n : Nat} {view : Word → Word} {rd : Reg} {a v : Word} {s t : State}
    (h : swap n view rd a v s = .next t) : State.TouchedOnly s t a := by
  rcases swap_bus h with hb | hb
  · exact (State.memRead_touched s a n).of_bus hb
  · exact ((State.memRead_touched s a n).trans (State.memWrite_touched _ a v n)).of_bus hb

/-- A storing instruction touches the tuple its address is routed to and no other buffer and no other UART. -/
theorem exec_touched {i : Instr} {s t : State} {a : Word} {n : Nat} (h : exec i s = .next t)
    (hs : i.storeSpan s = some (a, n)) : State.TouchedOnly s t a := by
  have st {len : Word} {v : Word} (h : store len n a v s = .next t) : State.TouchedOnly s t a :=
    (State.memWrite_touched s a v n).of_bus (store_bus h)
  have sc {rd : Reg} {v : Word} (h : storeConditional n rd a v s = .next t) : State.TouchedOnly s t a :=
    (State.memWrite_touched s a v n).of_bus (storeConditional_bus h)
  cases i <;> cases hs
  case sb => exact st h
  case sh => exact st h
  case sw => exact st h
  case sd => exact st h
  case cSw => exact st h
  case scW => exact sc h
  case scD => exact sc h
  case amoswapW => exact swap_touched h
  case amoswapD => exact swap_touched h

/-- A step stands still on a halted machine; else it ends in a fatal error of the fetch or of the decoder, or executes
the decoded instruction in the state the fetch leaves (R140 to R143). -/
theorem step_cases (s : State) :
    (s.halted ≠ none ∧ step s = .next s) ∨
    (s.halted = none ∧ ((∃ f, step s = .next (s.fetch.2.raise f)) ∨
      ∃ w i, s.fetch.1 = .ok w ∧ decode w = .ok i ∧ step s = exec i s.fetch.2)) := by
  unfold step
  rcases hh : s.halted with _ | r
  · right
    refine ⟨rfl, ?_⟩
    rcases hf : s.fetch with ⟨f | w, s1⟩
    · left; exact ⟨f, by simp⟩
    · rcases hd : decode w with e | i
      · left; exact ⟨Fatal.ofDecodeError e, by simp [hd]⟩
      · right; exact ⟨w, i, rfl, hd, by simp [hd]⟩
  · left; simp

end Sys2Proof.Machine
end

