-- ==== Sys2Proof/Laws/PerInstr.lean ====
section
/-! SUPPORT. Statements made of every instruction, one lemma for each constructor. -/

namespace Sys2Proof.Laws

/-- The two low bits of the word of an instruction tell its length (R90). -/
def EncodedLength.Statement (i : Instr) : Prop := (encode i).extractLsb' 0 2 = 0b11#2 ↔ i.size = 4

/-- A word whose opcode field ends in `0b11`. -/
theorem EncodedLength.of_opcode {i : Instr} {op : BitVec 7} (h : opcodeOf (encode i) = op)
    (hop : op.extractLsb' 0 2 = 0b11#2) (hs : i.size = 4) : EncodedLength.Statement i := by
  unfold EncodedLength.Statement
  rw [lowBits_opcodeOf, h, hs]
  exact ⟨fun _ => rfl, fun _ => hop⟩

/-- A halfword of another quadrant. -/
theorem EncodedLength.of_quadrant {i : Instr} {c : BitVec 16} {q : BitVec 2} (h : quadrantOf c = q)
    (he : encode i = 0#16 ++ c) (hq : q ≠ 0b11#2) (hs : i.size = 2) : EncodedLength.Statement i := by
  unfold EncodedLength.Statement
  rw [he, lowBits_compressed, h, hs]
  exact ⟨fun h' => absurd h' hq, fun h' => absurd h' (by decide)⟩

theorem EncodedLength.lui (rd : Reg) (imm : BitVec 20) : EncodedLength.Statement (.lui rd imm) :=
  EncodedLength.of_opcode (op := opLui) (opcodeOf_packU _ _ _) rfl rfl
theorem EncodedLength.auipc (rd : Reg) (imm : BitVec 20) : EncodedLength.Statement (.auipc rd imm) :=
  EncodedLength.of_opcode (op := opAuipc) (opcodeOf_packU _ _ _) rfl rfl
theorem EncodedLength.jal (rd : Reg) (imm : BitVec 21) : EncodedLength.Statement (.jal rd imm) :=
  EncodedLength.of_opcode (op := opJal) (opcodeOf_packJ _ _ _) rfl rfl
theorem EncodedLength.jalr (rd rs1 : Reg) (imm : BitVec 12) : EncodedLength.Statement (.jalr rd rs1 imm) :=
  EncodedLength.of_opcode (op := opJalr) (opcodeOf_packI _ _ _ _ _) rfl rfl
theorem EncodedLength.beq (rs1 rs2 : Reg) (imm : BitVec 13) : EncodedLength.Statement (.beq rs1 rs2 imm) :=
  EncodedLength.of_opcode (op := opBranch) (opcodeOf_packB _ _ _ _ _) rfl rfl
theorem EncodedLength.bne (rs1 rs2 : Reg) (imm : BitVec 13) : EncodedLength.Statement (.bne rs1 rs2 imm) :=
  EncodedLength.of_opcode (op := opBranch) (opcodeOf_packB _ _ _ _ _) rfl rfl
theorem EncodedLength.blt (rs1 rs2 : Reg) (imm : BitVec 13) : EncodedLength.Statement (.blt rs1 rs2 imm) :=
  EncodedLength.of_opcode (op := opBranch) (opcodeOf_packB _ _ _ _ _) rfl rfl
theorem EncodedLength.bge (rs1 rs2 : Reg) (imm : BitVec 13) : EncodedLength.Statement (.bge rs1 rs2 imm) :=
  EncodedLength.of_opcode (op := opBranch) (opcodeOf_packB _ _ _ _ _) rfl rfl
theorem EncodedLength.bltu (rs1 rs2 : Reg) (imm : BitVec 13) : EncodedLength.Statement (.bltu rs1 rs2 imm) :=
  EncodedLength.of_opcode (op := opBranch) (opcodeOf_packB _ _ _ _ _) rfl rfl
theorem EncodedLength.bgeu (rs1 rs2 : Reg) (imm : BitVec 13) : EncodedLength.Statement (.bgeu rs1 rs2 imm) :=
  EncodedLength.of_opcode (op := opBranch) (opcodeOf_packB _ _ _ _ _) rfl rfl
theorem EncodedLength.lb (rd rs1 : Reg) (imm : BitVec 12) : EncodedLength.Statement (.lb rd rs1 imm) :=
  EncodedLength.of_opcode (op := opLoad) (opcodeOf_packI _ _ _ _ _) rfl rfl
theorem EncodedLength.lh (rd rs1 : Reg) (imm : BitVec 12) : EncodedLength.Statement (.lh rd rs1 imm) :=
  EncodedLength.of_opcode (op := opLoad) (opcodeOf_packI _ _ _ _ _) rfl rfl
theorem EncodedLength.lw (rd rs1 : Reg) (imm : BitVec 12) : EncodedLength.Statement (.lw rd rs1 imm) :=
  EncodedLength.of_opcode (op := opLoad) (opcodeOf_packI _ _ _ _ _) rfl rfl
theorem EncodedLength.ld (rd rs1 : Reg) (imm : BitVec 12) : EncodedLength.Statement (.ld rd rs1 imm) :=
  EncodedLength.of_opcode (op := opLoad) (opcodeOf_packI _ _ _ _ _) rfl rfl
theorem EncodedLength.lbu (rd rs1 : Reg) (imm : BitVec 12) : EncodedLength.Statement (.lbu rd rs1 imm) :=
  EncodedLength.of_opcode (op := opLoad) (opcodeOf_packI _ _ _ _ _) rfl rfl
theorem EncodedLength.lhu (rd rs1 : Reg) (imm : BitVec 12) : EncodedLength.Statement (.lhu rd rs1 imm) :=
  EncodedLength.of_opcode (op := opLoad) (opcodeOf_packI _ _ _ _ _) rfl rfl
theorem EncodedLength.lwu (rd rs1 : Reg) (imm : BitVec 12) : EncodedLength.Statement (.lwu rd rs1 imm) :=
  EncodedLength.of_opcode (op := opLoad) (opcodeOf_packI _ _ _ _ _) rfl rfl
theorem EncodedLength.sb (rs1 rs2 : Reg) (imm : BitVec 12) : EncodedLength.Statement (.sb rs1 rs2 imm) :=
  EncodedLength.of_opcode (op := opStore) (opcodeOf_packS _ _ _ _ _) rfl rfl
theorem EncodedLength.sh (rs1 rs2 : Reg) (imm : BitVec 12) : EncodedLength.Statement (.sh rs1 rs2 imm) :=
  EncodedLength.of_opcode (op := opStore) (opcodeOf_packS _ _ _ _ _) rfl rfl
theorem EncodedLength.sw (rs1 rs2 : Reg) (imm : BitVec 12) : EncodedLength.Statement (.sw rs1 rs2 imm) :=
  EncodedLength.of_opcode (op := opStore) (opcodeOf_packS _ _ _ _ _) rfl rfl
theorem EncodedLength.sd (rs1 rs2 : Reg) (imm : BitVec 12) : EncodedLength.Statement (.sd rs1 rs2 imm) :=
  EncodedLength.of_opcode (op := opStore) (opcodeOf_packS _ _ _ _ _) rfl rfl
theorem EncodedLength.addi (rd rs1 : Reg) (imm : BitVec 12) : EncodedLength.Statement (.addi rd rs1 imm) :=
  EncodedLength.of_opcode (op := opAluImm) (opcodeOf_packI _ _ _ _ _) rfl rfl
theorem EncodedLength.slti (rd rs1 : Reg) (imm : BitVec 12) : EncodedLength.Statement (.slti rd rs1 imm) :=
  EncodedLength.of_opcode (op := opAluImm) (opcodeOf_packI _ _ _ _ _) rfl rfl
theorem EncodedLength.sltiu (rd rs1 : Reg) (imm : BitVec 12) : EncodedLength.Statement (.sltiu rd rs1 imm) :=
  EncodedLength.of_opcode (op := opAluImm) (opcodeOf_packI _ _ _ _ _) rfl rfl
theorem EncodedLength.xori (rd rs1 : Reg) (imm : BitVec 12) : EncodedLength.Statement (.xori rd rs1 imm) :=
  EncodedLength.of_opcode (op := opAluImm) (opcodeOf_packI _ _ _ _ _) rfl rfl
theorem EncodedLength.ori (rd rs1 : Reg) (imm : BitVec 12) : EncodedLength.Statement (.ori rd rs1 imm) :=
  EncodedLength.of_opcode (op := opAluImm) (opcodeOf_packI _ _ _ _ _) rfl rfl
theorem EncodedLength.andi (rd rs1 : Reg) (imm : BitVec 12) : EncodedLength.Statement (.andi rd rs1 imm) :=
  EncodedLength.of_opcode (op := opAluImm) (opcodeOf_packI _ _ _ _ _) rfl rfl
theorem EncodedLength.slli (rd rs1 : Reg) (shamt : BitVec 5) : EncodedLength.Statement (.slli rd rs1 shamt) :=
  EncodedLength.of_opcode (op := opAluImm) (opcodeOf_packR _ _ _ _ _ _) rfl rfl
theorem EncodedLength.srli (rd rs1 : Reg) (shamt : BitVec 5) : EncodedLength.Statement (.srli rd rs1 shamt) :=
  EncodedLength.of_opcode (op := opAluImm) (opcodeOf_packR _ _ _ _ _ _) rfl rfl
theorem EncodedLength.srai (rd rs1 : Reg) (shamt : BitVec 5) : EncodedLength.Statement (.srai rd rs1 shamt) :=
  EncodedLength.of_opcode (op := opAluImm) (opcodeOf_packR _ _ _ _ _ _) rfl rfl
theorem EncodedLength.addiw (rd rs1 : Reg) (imm : BitVec 12) : EncodedLength.Statement (.addiw rd rs1 imm) :=
  EncodedLength.of_opcode (op := opAluImm64) (opcodeOf_packI _ _ _ _ _) rfl rfl
theorem EncodedLength.slliw (rd rs1 : Reg) (shamt : BitVec 5) : EncodedLength.Statement (.slliw rd rs1 shamt) :=
  EncodedLength.of_opcode (op := opAluImm64) (opcodeOf_packR _ _ _ _ _ _) rfl rfl
theorem EncodedLength.srliw (rd rs1 : Reg) (shamt : BitVec 5) : EncodedLength.Statement (.srliw rd rs1 shamt) :=
  EncodedLength.of_opcode (op := opAluImm64) (opcodeOf_packR _ _ _ _ _ _) rfl rfl
theorem EncodedLength.sraiw (rd rs1 : Reg) (shamt : BitVec 5) : EncodedLength.Statement (.sraiw rd rs1 shamt) :=
  EncodedLength.of_opcode (op := opAluImm64) (opcodeOf_packR _ _ _ _ _ _) rfl rfl
theorem EncodedLength.add (rd rs1 rs2 : Reg) : EncodedLength.Statement (.add rd rs1 rs2) :=
  EncodedLength.of_opcode (op := opAlu) (opcodeOf_packR _ _ _ _ _ _) rfl rfl
theorem EncodedLength.sub (rd rs1 rs2 : Reg) : EncodedLength.Statement (.sub rd rs1 rs2) :=
  EncodedLength.of_opcode (op := opAlu) (opcodeOf_packR _ _ _ _ _ _) rfl rfl
theorem EncodedLength.sll (rd rs1 rs2 : Reg) : EncodedLength.Statement (.sll rd rs1 rs2) :=
  EncodedLength.of_opcode (op := opAlu) (opcodeOf_packR _ _ _ _ _ _) rfl rfl
theorem EncodedLength.slt (rd rs1 rs2 : Reg) : EncodedLength.Statement (.slt rd rs1 rs2) :=
  EncodedLength.of_opcode (op := opAlu) (opcodeOf_packR _ _ _ _ _ _) rfl rfl
theorem EncodedLength.sltu (rd rs1 rs2 : Reg) : EncodedLength.Statement (.sltu rd rs1 rs2) :=
  EncodedLength.of_opcode (op := opAlu) (opcodeOf_packR _ _ _ _ _ _) rfl rfl
theorem EncodedLength.xor (rd rs1 rs2 : Reg) : EncodedLength.Statement (.xor rd rs1 rs2) :=
  EncodedLength.of_opcode (op := opAlu) (opcodeOf_packR _ _ _ _ _ _) rfl rfl
theorem EncodedLength.srl (rd rs1 rs2 : Reg) : EncodedLength.Statement (.srl rd rs1 rs2) :=
  EncodedLength.of_opcode (op := opAlu) (opcodeOf_packR _ _ _ _ _ _) rfl rfl
theorem EncodedLength.sra (rd rs1 rs2 : Reg) : EncodedLength.Statement (.sra rd rs1 rs2) :=
  EncodedLength.of_opcode (op := opAlu) (opcodeOf_packR _ _ _ _ _ _) rfl rfl
theorem EncodedLength.or (rd rs1 rs2 : Reg) : EncodedLength.Statement (.or rd rs1 rs2) :=
  EncodedLength.of_opcode (op := opAlu) (opcodeOf_packR _ _ _ _ _ _) rfl rfl
theorem EncodedLength.and (rd rs1 rs2 : Reg) : EncodedLength.Statement (.and rd rs1 rs2) :=
  EncodedLength.of_opcode (op := opAlu) (opcodeOf_packR _ _ _ _ _ _) rfl rfl
theorem EncodedLength.mul (rd rs1 rs2 : Reg) : EncodedLength.Statement (.mul rd rs1 rs2) :=
  EncodedLength.of_opcode (op := opAlu) (opcodeOf_packR _ _ _ _ _ _) rfl rfl
theorem EncodedLength.mulh (rd rs1 rs2 : Reg) : EncodedLength.Statement (.mulh rd rs1 rs2) :=
  EncodedLength.of_opcode (op := opAlu) (opcodeOf_packR _ _ _ _ _ _) rfl rfl
theorem EncodedLength.mulhsu (rd rs1 rs2 : Reg) : EncodedLength.Statement (.mulhsu rd rs1 rs2) :=
  EncodedLength.of_opcode (op := opAlu) (opcodeOf_packR _ _ _ _ _ _) rfl rfl
theorem EncodedLength.mulhu (rd rs1 rs2 : Reg) : EncodedLength.Statement (.mulhu rd rs1 rs2) :=
  EncodedLength.of_opcode (op := opAlu) (opcodeOf_packR _ _ _ _ _ _) rfl rfl
theorem EncodedLength.div (rd rs1 rs2 : Reg) : EncodedLength.Statement (.div rd rs1 rs2) :=
  EncodedLength.of_opcode (op := opAlu) (opcodeOf_packR _ _ _ _ _ _) rfl rfl
theorem EncodedLength.divu (rd rs1 rs2 : Reg) : EncodedLength.Statement (.divu rd rs1 rs2) :=
  EncodedLength.of_opcode (op := opAlu) (opcodeOf_packR _ _ _ _ _ _) rfl rfl
theorem EncodedLength.rem (rd rs1 rs2 : Reg) : EncodedLength.Statement (.rem rd rs1 rs2) :=
  EncodedLength.of_opcode (op := opAlu) (opcodeOf_packR _ _ _ _ _ _) rfl rfl
theorem EncodedLength.remu (rd rs1 rs2 : Reg) : EncodedLength.Statement (.remu rd rs1 rs2) :=
  EncodedLength.of_opcode (op := opAlu) (opcodeOf_packR _ _ _ _ _ _) rfl rfl
theorem EncodedLength.lrW (rd rs1 rs2 : Reg) (aq rl : BitVec 1) : EncodedLength.Statement (.lrW rd rs1 rs2 aq rl) :=
  EncodedLength.of_opcode (op := opAtomic) (opcodeOf_packAtomic _ _ _ _ _ _ _) rfl rfl
theorem EncodedLength.lrD (rd rs1 rs2 : Reg) (aq rl : BitVec 1) : EncodedLength.Statement (.lrD rd rs1 rs2 aq rl) :=
  EncodedLength.of_opcode (op := opAtomic) (opcodeOf_packAtomic _ _ _ _ _ _ _) rfl rfl
theorem EncodedLength.scW (rd rs1 rs2 : Reg) (aq rl : BitVec 1) : EncodedLength.Statement (.scW rd rs1 rs2 aq rl) :=
  EncodedLength.of_opcode (op := opAtomic) (opcodeOf_packAtomic _ _ _ _ _ _ _) rfl rfl
theorem EncodedLength.scD (rd rs1 rs2 : Reg) (aq rl : BitVec 1) : EncodedLength.Statement (.scD rd rs1 rs2 aq rl) :=
  EncodedLength.of_opcode (op := opAtomic) (opcodeOf_packAtomic _ _ _ _ _ _ _) rfl rfl
theorem EncodedLength.amoswapW (rd rs1 rs2 : Reg) (aq rl : BitVec 1) : EncodedLength.Statement (.amoswapW rd rs1 rs2 aq rl) :=
  EncodedLength.of_opcode (op := opAtomic) (opcodeOf_packAtomic _ _ _ _ _ _ _) rfl rfl
theorem EncodedLength.amoswapD (rd rs1 rs2 : Reg) (aq rl : BitVec 1) : EncodedLength.Statement (.amoswapD rd rs1 rs2 aq rl) :=
  EncodedLength.of_opcode (op := opAtomic) (opcodeOf_packAtomic _ _ _ _ _ _ _) rfl rfl
theorem EncodedLength.fence (bits : BitVec 25) : EncodedLength.Statement (.fence bits) :=
  EncodedLength.of_opcode (op := opFence) (opcodeOf_fence bits opFence) rfl rfl
theorem EncodedLength.ecall : EncodedLength.Statement (.ecall) :=
  EncodedLength.of_opcode (op := opSystem) rfl rfl rfl
theorem EncodedLength.ebreak : EncodedLength.Statement (.ebreak) :=
  EncodedLength.of_opcode (op := opSystem) rfl rfl rfl
theorem EncodedLength.csrrw (rd rs1 rs2 : Reg) (funct7 : BitVec 7) : EncodedLength.Statement (.csrrw rd rs1 rs2 funct7) :=
  EncodedLength.of_opcode (op := opSystem) (opcodeOf_packR _ _ _ _ _ _) rfl rfl
theorem EncodedLength.csrrs (rd rs1 rs2 : Reg) (funct7 : BitVec 7) : EncodedLength.Statement (.csrrs rd rs1 rs2 funct7) :=
  EncodedLength.of_opcode (op := opSystem) (opcodeOf_packR _ _ _ _ _ _) rfl rfl
theorem EncodedLength.csrrc (rd rs1 rs2 : Reg) (funct7 : BitVec 7) : EncodedLength.Statement (.csrrc rd rs1 rs2 funct7) :=
  EncodedLength.of_opcode (op := opSystem) (opcodeOf_packR _ _ _ _ _ _) rfl rfl
theorem EncodedLength.csrrwi (rd rs1 : Reg) (imm : BitVec 12) : EncodedLength.Statement (.csrrwi rd rs1 imm) :=
  EncodedLength.of_opcode (op := opSystem) (opcodeOf_packI _ _ _ _ _) rfl rfl
theorem EncodedLength.csrrsi (rd rs1 : Reg) (imm : BitVec 12) : EncodedLength.Statement (.csrrsi rd rs1 imm) :=
  EncodedLength.of_opcode (op := opSystem) (opcodeOf_packI _ _ _ _ _) rfl rfl
theorem EncodedLength.csrrci (rd rs1 : Reg) (imm : BitVec 12) : EncodedLength.Statement (.csrrci rd rs1 imm) :=
  EncodedLength.of_opcode (op := opSystem) (opcodeOf_packI _ _ _ _ _) rfl rfl
theorem EncodedLength.cAddi4spn (rd' : Reg3) (nzuimm : BitVec 10) : EncodedLength.Statement (.cAddi4spn rd' nzuimm) :=
  EncodedLength.of_quadrant (quadrantOf_pack4spn _ _) rfl (by decide) rfl
theorem EncodedLength.cLw (rd' rs1' : Reg3) (uimm : BitVec 7) : EncodedLength.Statement (.cLw rd' rs1' uimm) :=
  EncodedLength.of_quadrant (quadrantOf_packCLw _ _ _ _) rfl (by decide) rfl
theorem EncodedLength.cSw (rs1' rs2' : Reg3) (uimm : BitVec 7) : EncodedLength.Statement (.cSw rs1' rs2' uimm) :=
  EncodedLength.of_quadrant (quadrantOf_packCLw _ _ _ _) rfl (by decide) rfl
theorem EncodedLength.cAddi (rd : Reg) (imm : BitVec 6) : EncodedLength.Statement (.cAddi rd imm) :=
  EncodedLength.of_quadrant (quadrantOf_packCI _ _ _) rfl (by decide) rfl
theorem EncodedLength.cJal (imm : BitVec 12) : EncodedLength.Statement (.cJal imm) :=
  EncodedLength.of_quadrant (quadrantOf_packCJ _ _) rfl (by decide) rfl
theorem EncodedLength.cLi (rd : Reg) (imm : BitVec 6) : EncodedLength.Statement (.cLi rd imm) :=
  EncodedLength.of_quadrant (quadrantOf_packCI _ _ _) rfl (by decide) rfl
theorem EncodedLength.cAddi16sp (nzimm : BitVec 10) : EncodedLength.Statement (.cAddi16sp nzimm) :=
  EncodedLength.of_quadrant (quadrantOf_pack16sp _) rfl (by decide) rfl
theorem EncodedLength.cLui (rd : Reg) (nzimm : BitVec 6) : EncodedLength.Statement (.cLui rd nzimm) :=
  EncodedLength.of_quadrant (quadrantOf_packCI _ _ _) rfl (by decide) rfl
theorem EncodedLength.cSrli (rd' : Reg3) (shamt : BitVec 5) : EncodedLength.Statement (.cSrli rd' shamt) :=
  EncodedLength.of_quadrant (quadrantOf_packCA _ _ _ _) rfl (by decide) rfl
theorem EncodedLength.cSrai (rd' : Reg3) (shamt : BitVec 5) : EncodedLength.Statement (.cSrai rd' shamt) :=
  EncodedLength.of_quadrant (quadrantOf_packCA _ _ _ _) rfl (by decide) rfl
theorem EncodedLength.cAndi (rd' : Reg3) (imm : BitVec 6) : EncodedLength.Statement (.cAndi rd' imm) :=
  EncodedLength.of_quadrant (quadrantOf_packCA _ _ _ _) rfl (by decide) rfl
theorem EncodedLength.cSub (rd' rs2' : Reg3) : EncodedLength.Statement (.cSub rd' rs2') :=
  EncodedLength.of_quadrant (quadrantOf_packCA _ _ _ _) rfl (by decide) rfl
theorem EncodedLength.cXor (rd' rs2' : Reg3) : EncodedLength.Statement (.cXor rd' rs2') :=
  EncodedLength.of_quadrant (quadrantOf_packCA _ _ _ _) rfl (by decide) rfl
theorem EncodedLength.cOr (rd' rs2' : Reg3) : EncodedLength.Statement (.cOr rd' rs2') :=
  EncodedLength.of_quadrant (quadrantOf_packCA _ _ _ _) rfl (by decide) rfl
theorem EncodedLength.cAnd (rd' rs2' : Reg3) : EncodedLength.Statement (.cAnd rd' rs2') :=
  EncodedLength.of_quadrant (quadrantOf_packCA _ _ _ _) rfl (by decide) rfl
theorem EncodedLength.cJ (imm : BitVec 12) : EncodedLength.Statement (.cJ imm) :=
  EncodedLength.of_quadrant (quadrantOf_packCJ _ _) rfl (by decide) rfl
theorem EncodedLength.cBeqz (rs1' : Reg3) (imm : BitVec 9) : EncodedLength.Statement (.cBeqz rs1' imm) :=
  EncodedLength.of_quadrant (quadrantOf_packCB _ _ _) rfl (by decide) rfl
theorem EncodedLength.cBnez (rs1' : Reg3) (imm : BitVec 9) : EncodedLength.Statement (.cBnez rs1' imm) :=
  EncodedLength.of_quadrant (quadrantOf_packCB _ _ _) rfl (by decide) rfl
theorem EncodedLength.cSlli (rd : Reg) (shamt : BitVec 5) : EncodedLength.Statement (.cSlli rd shamt) :=
  EncodedLength.of_quadrant (quadrantOf_packC _ _ _ _ _) rfl (by decide) rfl
theorem EncodedLength.cSlli64 (rd : Reg) : EncodedLength.Statement (.cSlli64 rd) :=
  EncodedLength.of_quadrant (quadrantOf_packC _ _ _ _ _) rfl (by decide) rfl
theorem EncodedLength.cJr (rs1 : Reg) : EncodedLength.Statement (.cJr rs1) :=
  EncodedLength.of_quadrant (quadrantOf_packC _ _ _ _ _) rfl (by decide) rfl
theorem EncodedLength.cMv (rd rs2 : Reg) : EncodedLength.Statement (.cMv rd rs2) :=
  EncodedLength.of_quadrant (quadrantOf_packC _ _ _ _ _) rfl (by decide) rfl
theorem EncodedLength.cEbreak : EncodedLength.Statement (.cEbreak) :=
  EncodedLength.of_quadrant (quadrantOf_packC _ _ _ _ _) rfl (by decide) rfl
theorem EncodedLength.cJalr (rs1 : Reg) : EncodedLength.Statement (.cJalr rs1) :=
  EncodedLength.of_quadrant (quadrantOf_packC _ _ _ _ _) rfl (by decide) rfl
theorem EncodedLength.cAdd (rd rs2 : Reg) : EncodedLength.Statement (.cAdd rd rs2) :=
  EncodedLength.of_quadrant (quadrantOf_packC _ _ _ _ _) rfl (by decide) rfl

end Sys2Proof.Laws
end

