-- ==== Sys2Proof/Tests/Slice0.lean ====
section
/-! SUPPORT. Tests of the model. Words and expected values are those of the spec's worked vectors
(spec/95_test_vectors.md, spec/96_derived_vectors.md) and of the examples in its rules; the last part shows, for every
statement with hypotheses, a state and operands that meet them. -/

set_option Elab.async false

open Sys2Proof Sys2Proof.Machine

namespace Sys2Proof.Tests

/-! ## Well-formedness: one ill-formed term for each check, which the check refuses -/

theorem test_wf_odd_jump : (Instr.jal 1 3).wf = false := by decide
theorem test_wf_odd_branch : ∀ i ∈ [Instr.beq 5 6 1, .bne 5 6 1, .blt 5 6 1, .bge 5 6 1, .bltu 5 6 1, .bgeu 5 6 1],
    i.wf = false := by decide
theorem test_wf_addi4spn : (Instr.cAddi4spn 0 2).wf = false ∧ (Instr.cAddi4spn 0 0).wf = false := by decide
theorem test_wf_unscaled_offset : (Instr.cLw 0 1 2).wf = false ∧ (Instr.cSw 0 1 1).wf = false := by decide
theorem test_wf_odd_compressed_jump : (Instr.cJal 1).wf = false ∧ (Instr.cJ 5).wf = false := by decide
theorem test_wf_odd_compressed_branch : (Instr.cBeqz 0 1).wf = false ∧ (Instr.cBnez 0 7).wf = false := by decide
theorem test_wf_addi16sp : (Instr.cAddi16sp 8).wf = false ∧ (Instr.cAddi16sp 0).wf = false := by decide
theorem test_wf_lui : (Instr.cLui 2 1).wf = false ∧ (Instr.cLui 5 0).wf = false := by decide
theorem test_wf_zero_shift : (Instr.cSlli 5 0).wf = false := by decide
theorem test_wf_zero_jump_register : (Instr.cJr 0).wf = false ∧ (Instr.cJalr 0).wf = false := by decide
theorem test_wf_zero_source : (Instr.cMv 5 0).wf = false ∧ (Instr.cAdd 5 0).wf = false := by decide

/-! ## Decoding: a word of every instruction, from the spec's vectors and examples -/

theorem test_decode_upper_immediate :
    decode 0x123452B7#32 = .ok (.lui 5 0x12345) ∧ decode 0x7FFFF297#32 = .ok (.auipc 5 0x7FFFF) := by decide
/-- The fields of R94 one by one: `LUI x5, 0x12345`, `ADD x7, x5, x6`, `BEQ x5, x6, 16` and `c.addi x5, -1`. -/
theorem test_decode_bit_by_bit :
    decode (0b00010010001101000101#20 ++ 0b00101#5 ++ 0b0110111#7) = .ok (.lui 5 0x12345) ∧
    decode (0b0000000#7 ++ 0b00110#5 ++ 0b00101#5 ++ 0b000#3 ++ 0b00111#5 ++ 0b0110011#7) = .ok (.add 7 5 6) ∧
    decode (0b0#1 ++ 0b000000#6 ++ 0b00110#5 ++ 0b00101#5 ++ 0b000#3 ++ 0b1000#4 ++ 0b0#1 ++ 0b1100011#7)
      = .ok (.beq 5 6 16) ∧
    decode (0#16 ++ 0b000#3 ++ 0b1#1 ++ 0b00101#5 ++ 0b11111#5 ++ 0b01#2) = .ok (.cAddi 5 (-1)) := by decide
theorem test_decode_jumps :
    decode 0xFFDFF0EF#32 = .ok (.jal 1 (-4)) ∧ decode 0x7FF000EF#32 = .ok (.jal 1 0xFFE) ∧
    decode 0x004280E7#32 = .ok (.jalr 1 5 4) := by decide
theorem test_decode_branches :
    decode 0x00628863#32 = .ok (.beq 5 6 16) ∧ decode 0xFE629CE3#32 = .ok (.bne 5 6 (-8)) ∧
    decode 0x0062C863#32 = .ok (.blt 5 6 16) ∧ decode 0x0062D863#32 = .ok (.bge 5 6 16) ∧
    decode 0x0062E863#32 = .ok (.bltu 5 6 16) ∧ decode 0x0062F863#32 = .ok (.bgeu 5 6 16) ∧
    decode 0x80000063#32 = .ok (.beq 0 0 (-4096)) := by decide
theorem test_decode_loads :
    decode 0xFFF00283#32 = .ok (.lb 5 0 (-1)) ∧ decode 0x00031283#32 = .ok (.lh 5 6 0) ∧
    decode 0xFFC32283#32 = .ok (.lw 5 6 (-4)) ∧ decode 0x00033303#32 = .ok (.ld 6 6 0) ∧
    decode 0x00034283#32 = .ok (.lbu 5 6 0) ∧ decode 0x00035283#32 = .ok (.lhu 5 6 0) ∧
    decode 0x00036283#32 = .ok (.lwu 5 6 0) := by decide
theorem test_decode_stores :
    decode 0x00730023#32 = .ok (.sb 6 7 0) ∧ decode 0x00731023#32 = .ok (.sh 6 7 0) ∧
    decode 0xFE732E23#32 = .ok (.sw 6 7 (-4)) ∧ decode 0x007331A3#32 = .ok (.sd 6 7 3) := by decide
theorem test_decode_alu_immediate :
    decode 0x7FF30293#32 = .ok (.addi 5 6 2047) ∧ decode 0xFFF32293#32 = .ok (.slti 5 6 (-1)) ∧
    decode 0x00133293#32 = .ok (.sltiu 5 6 1) ∧ decode 0xFFF34293#32 = .ok (.xori 5 6 (-1)) ∧
    decode 0xF0036293#32 = .ok (.ori 5 6 (-256)) ∧ decode 0xFF037293#32 = .ok (.andi 5 6 (-16)) ∧
    decode 0x01F31293#32 = .ok (.slli 5 6 31) ∧ decode 0x01F35293#32 = .ok (.srli 5 6 31) ∧
    decode 0x41F35293#32 = .ok (.srai 5 6 31) := by decide
theorem test_decode_word_forms :
    decode 0x0013029B#32 = .ok (.addiw 5 6 1) ∧ decode 0x0043129B#32 = .ok (.slliw 5 6 4) ∧
    decode 0x0043529B#32 = .ok (.srliw 5 6 4) ∧ decode 0x41F3529B#32 = .ok (.sraiw 5 6 31) := by decide
theorem test_decode_alu_register :
    decode 0x006283B3#32 = .ok (.add 7 5 6) ∧ decode 0x406283B3#32 = .ok (.sub 7 5 6) ∧
    decode 0x006293B3#32 = .ok (.sll 7 5 6) ∧ decode 0x0062A3B3#32 = .ok (.slt 7 5 6) ∧
    decode 0x0062B3B3#32 = .ok (.sltu 7 5 6) ∧ decode 0x0062C3B3#32 = .ok (.xor 7 5 6) ∧
    decode 0x0062D3B3#32 = .ok (.srl 7 5 6) ∧ decode 0x4062D3B3#32 = .ok (.sra 7 5 6) ∧
    decode 0x0062E3B3#32 = .ok (.or 7 5 6) ∧ decode 0x0062F3B3#32 = .ok (.and 7 5 6) := by decide
theorem test_decode_muldiv :
    decode 0x026283B3#32 = .ok (.mul 7 5 6) ∧ decode 0x026293B3#32 = .ok (.mulh 7 5 6) ∧
    decode 0x0262A3B3#32 = .ok (.mulhsu 7 5 6) ∧ decode 0x0262B3B3#32 = .ok (.mulhu 7 5 6) ∧
    decode 0x0262C3B3#32 = .ok (.div 7 5 6) ∧ decode 0x0262D3B3#32 = .ok (.divu 7 5 6) ∧
    decode 0x0262E3B3#32 = .ok (.rem 7 5 6) ∧ decode 0x0262F3B3#32 = .ok (.remu 7 5 6) := by decide
theorem test_decode_atomics :
    decode 0x100322AF#32 = .ok (.lrW 5 6 0 0 0) ∧ decode 0x100332AF#32 = .ok (.lrD 5 6 0 0 0) ∧
    decode 0x187322AF#32 = .ok (.scW 5 6 7 0 0) ∧ decode 0x187332AF#32 = .ok (.scD 5 6 7 0 0) ∧
    decode 0x0E7322AF#32 = .ok (.amoswapW 5 6 7 1 1) ∧ decode 0x087333AF#32 = .ok (.amoswapD 7 6 7 0 0) := by decide
theorem test_decode_system :
    decode 0x0FF0000F#32 = .ok (.fence 0x1FE000) ∧ decode 0x00000073#32 = .ok .ecall ∧
    decode 0x00100073#32 = .ok .ebreak ∧ decode 0x007312F3#32 = .ok (.csrrw 5 6 7 0) ∧
    decode 0x007322F3#32 = .ok (.csrrs 5 6 7 0) ∧ decode 0x007332F3#32 = .ok (.csrrc 5 6 7 0) ∧
    decode 0xFFF352F3#32 = .ok (.csrrwi 5 6 0xFFF) ∧ decode 0x800362F3#32 = .ok (.csrrsi 5 6 0x800) ∧
    decode 0x010372F3#32 = .ok (.csrrci 5 6 0x010) := by decide
theorem test_decode_quadrant_0 :
    decode 0x1FFC#32 = .ok (.cAddi4spn 7 1020) ∧ decode 0x40C8#32 = .ok (.cLw 2 1 4) ∧
    decode 0x5C60#32 = .ok (.cLw 0 0 124) ∧ decode 0xC0C8#32 = .ok (.cSw 1 2 4) := by decide
theorem test_decode_quadrant_1 :
    decode 0x12FD#32 = .ok (.cAddi 5 (-1)) ∧ decode 0x3FFD#32 = .ok (.cJal (-2)) ∧
    decode 0x5281#32 = .ok (.cLi 5 (-32)) ∧ decode 0x617D#32 = .ok (.cAddi16sp 496) ∧
    decode 0x72FD#32 = .ok (.cLui 5 (-1)) ∧ decode 0x807D#32 = .ok (.cSrli 0 31) ∧
    decode 0x8411#32 = .ok (.cSrai 0 4) ∧ decode 0x9841#32 = .ok (.cAndi 0 (-16)) ∧
    decode 0x8C05#32 = .ok (.cSub 0 1) ∧ decode 0x8C25#32 = .ok (.cXor 0 1) ∧
    decode 0x8C45#32 = .ok (.cOr 0 1) ∧ decode 0x8C65#32 = .ok (.cAnd 0 1) ∧
    decode 0xAFFD#32 = .ok (.cJ 2046) ∧ decode 0xC401#32 = .ok (.cBeqz 0 8) ∧
    decode 0xFC6D#32 = .ok (.cBnez 0 (-6)) := by decide
theorem test_decode_quadrant_2 :
    decode 0x02FE#32 = .ok (.cSlli 5 31) ∧ decode 0x0282#32 = .ok (.cSlli64 5) ∧ decode 0x8082#32 = .ok (.cJr 1) ∧
    decode 0x852E#32 = .ok (.cMv 10 11) ∧ decode 0x9002#32 = .ok .cEbreak ∧ decode 0x9282#32 = .ok (.cJalr 5) ∧
    decode 0x952E#32 = .ok (.cAdd 10 11) := by decide
theorem test_decode_rejects :
    decode 0x006283BB#32 = .error (.unknownOpcode 0x3B 0x006283BB) ∧
    decode 0x30200073#32 = .error (.unhandled 0x73 0x30200073) ∧
    decode 0x00006000#32 = .error (.illegalCompressed 0x6000) ∧
    decode 0xFFFF8002#32 = .error (.illegalCompressed 0x8002) := by decide
theorem test_encode : encode (.sd 6 7 3) = 0x007331A3 ∧ encode (.cJ 2046) = 0xAFFD := by decide
theorem test_decodeTableWord : decodeTableWord 16 0x852E = some (.cMv 10 11) ∧ decodeTableWord 32 0x3BB = none := by decide

/-! ## One step each, from the vectors of spec/96_derived_vectors.md -/

/-- The common configuration of spec/95_test_vectors.md. -/
def board : Config :=
  { Config.default with
    regionTable :=
      [ { start := 0x0, stop := 0x1000
          kind := .rom 0x1000 (.bytes [0x10, 0x11, 0x12, 0x13, 0x14, 0x15, 0x16, 0x17, 0x18, 0x19, 0x1A, 0x1B, 0x1C, 0x1D, 0x1E, 0x1F]) },
        { start := 0x1000, stop := 0x3000, kind := .ram 0x2000 .notLoaded },
        { start := 0x10000000, stop := 0x10000008, kind := .uart } ] }

/-- What a vector lists of a state. -/
structure Spot where
  pc : Word
  x : List (Reg × Word) := []
  mem : List (Word × List Byte) := []
  csr : List (Nat × Word) := []
  halted : Option HaltRecord := none

/-- The state of a "before" column, with the word at `pc`. -/
def Spot.place (b : Spot) (w : BitVec 32) : State :=
  let s0 : State := { State.resetFor board with pc := b.pc }
  let s1 := b.x.foldl (fun s r => s.setX r.1 r.2) s0
  let s2 := b.csr.foldl (fun s c => s.csrSet c.1 c.2) s1
  let s3 : State := b.mem.foldl (fun s m => { s with bus := Bus.poke m.1 m.2 s.bus }) s2
  s3.withFetchWord 32 w.toNat

/-- The state agrees with an "after" column. -/
def Spot.shows (a : Spot) (s : State) : Bool :=
  s.pc == a.pc && s.halted == a.halted && a.x.all (fun r => s.getX r.1 == r.2) &&
    a.csr.all (fun c => s.csrGet c.1 == c.2) &&
    a.mem.all (fun m => (List.range m.2.length).map (fun i => s.peek (m.1 + BitVec.ofNat 64 i)) == m.2.map some)

/-- One step from `b`, with `w` at `pc`, gives a next state that shows `a`. -/
abbrev leadsTo (w : BitVec 32) (b a : Spot) : Prop :=
  (match step (b.place w) with | .next t => a.shows t | .fault _ => false | .refused _ => false) = true

/-- Steps of spec/96_derived_vectors.md. -/
theorem test_upper_immediate :
    -- V41-3 LUI x5, 0xFFFFF
    leadsTo 0xFFFFF2B7 { pc := 0x1000, x := [(5, 0xFFFFFFFFFFFFFFFF)] }
      { pc := 0x1004, x := [(5, 0xFFFFF000)] } ∧
    -- V41-8 AUIPC x5, 0x80000
    leadsTo 0x80000297 { pc := 0x1000 }
      { pc := 0x1004, x := [(5, 0xFFFFFFFF80001000)] } := by
  decide

/-- Steps of spec/96_derived_vectors.md. -/
theorem test_jumps :
    -- V42-3 JAL x1, -4
    leadsTo 0xFFDFF0EF { pc := 0x1010 }
      { pc := 0x100C, x := [(1, 0x1014)] } ∧
    -- V42-4 JAL x1, 0xFFE
    leadsTo 0x7FF000EF { pc := 0x1000 }
      { pc := 0x1FFE, x := [(1, 0x1004)] } ∧
    -- V42-6 JALR x5, 0(x5)
    leadsTo 0x000282E7 { pc := 0x1000, x := [(5, 0x1100)] }
      { pc := 0x1100, x := [(5, 0x1004)] } ∧
    -- V42-8 JALR x1, 1(x5)
    leadsTo 0x001280E7 { pc := 0x1000, x := [(5, 0x1100)] }
      { pc := 0x1101, x := [(1, 0x1004)] } := by
  decide

/-- Steps of spec/96_derived_vectors.md. -/
theorem test_branches :
    -- V42-10 BEQ x5, x6, 16
    leadsTo 0x00628863 { pc := 0x1000, x := [(5, 0x7), (6, 0x7)] }
      { pc := 0x1010 } ∧
    -- V42-12 BNE x5, x6, -8
    leadsTo 0xFE629CE3 { pc := 0x1010, x := [(5, 0x7), (6, 0x8)] }
      { pc := 0x1008 } ∧
    -- V42-14 BLT x5, x6, 16
    leadsTo 0x0062C863 { pc := 0x1000, x := [(5, 0xFFFFFFFFFFFFFFFF), (6, 0x1)] }
      { pc := 0x1010 } ∧
    -- V42-15 BLTU x5, x6, 16
    leadsTo 0x0062E863 { pc := 0x1000, x := [(5, 0xFFFFFFFFFFFFFFFF), (6, 0x1)] }
      { pc := 0x1004 } ∧
    -- V42-16 BGE x5, x6, 16
    leadsTo 0x0062D863 { pc := 0x1000, x := [(5, 0x1), (6, 0xFFFFFFFFFFFFFFFF)] }
      { pc := 0x1010 } ∧
    -- V42-18 BGEU x5, x6, 16
    leadsTo 0x0062F863 { pc := 0x1000, x := [(5, 0x1), (6, 0xFFFFFFFFFFFFFFFF)] }
      { pc := 0x1004 } ∧
    -- V42-11 BEQ x5, x6, 16
    leadsTo 0x00628863 { pc := 0x1000, x := [(5, 0x7), (6, 0x8)] }
      { pc := 0x1004 } ∧
    -- V42-13 BNE x5, x6, -8
    leadsTo 0xFE629CE3 { pc := 0x1010, x := [(5, 0x7), (6, 0x7)] }
      { pc := 0x1014 } := by
  decide

/-- Steps of spec/96_derived_vectors.md. -/
theorem test_loads :
    -- V43-1 LB x5, 0(x6)
    leadsTo 0x00030283 { pc := 0x1000, x := [(6, 0x2000)], mem := [(0x2000, [0x80, 0x81, 0x82, 0x83, 0x84, 0x85, 0x86, 0xF7])] }
      { pc := 0x1004, x := [(5, 0xFFFFFFFFFFFFFF80)] } ∧
    -- V43-2 LBU x5, 0(x6)
    leadsTo 0x00034283 { pc := 0x1000, x := [(6, 0x2000)], mem := [(0x2000, [0x80, 0x81, 0x82, 0x83, 0x84, 0x85, 0x86, 0xF7])] }
      { pc := 0x1004, x := [(5, 0x80)] } ∧
    -- V43-3 LH x5, 0(x6)
    leadsTo 0x00031283 { pc := 0x1000, x := [(6, 0x2000)], mem := [(0x2000, [0x80, 0x81, 0x82, 0x83, 0x84, 0x85, 0x86, 0xF7])] }
      { pc := 0x1004, x := [(5, 0xFFFFFFFFFFFF8180)] } ∧
    -- V43-4 LHU x5, 0(x6)
    leadsTo 0x00035283 { pc := 0x1000, x := [(6, 0x2000)], mem := [(0x2000, [0x80, 0x81, 0x82, 0x83, 0x84, 0x85, 0x86, 0xF7])] }
      { pc := 0x1004, x := [(5, 0x8180)] } ∧
    -- V43-9 LW x5, 1(x6)
    leadsTo 0x00132283 { pc := 0x1000, x := [(6, 0x2000)], mem := [(0x2000, [0x80, 0x81, 0x82, 0x83, 0x84, 0x85, 0x86, 0xF7])] }
      { pc := 0x1004, x := [(5, 0xFFFFFFFF84838281)] } ∧
    -- V43-6 LWU x5, 0(x6)
    leadsTo 0x00036283 { pc := 0x1000, x := [(6, 0x2000)], mem := [(0x2000, [0x80, 0x81, 0x82, 0x83, 0x84, 0x85, 0x86, 0xF7])] }
      { pc := 0x1004, x := [(5, 0x83828180)] } ∧
    -- V43-10 LD x6, 0(x6)
    leadsTo 0x00033303 { pc := 0x1000, x := [(6, 0x2000)], mem := [(0x2000, [0x80, 0x81, 0x82, 0x83, 0x84, 0x85, 0x86, 0xF7])] }
      { pc := 0x1004, x := [(6, 0xF786858483828180)] } := by
  decide

/-- Steps of spec/96_derived_vectors.md. -/
theorem test_loads_that_stop :
    -- V43-14 LW x5, 0(x6)
    leadsTo 0x00032283 { pc := 0x1000, x := [(5, 0x9), (6, 0x2FFE)] }
      { pc := 0x1000, halted := some { fatal := .address 0x2FFE, pc := 0x1000 } } ∧
    -- V43-19 LD x5, 0(x6)
    leadsTo 0x00033283 { pc := 0x1000, x := [(6, 0xFFFFFFFFFFFFFFFC)] }
      { pc := 0x1000, halted := some { fatal := .address 0xFFFFFFFFFFFFFFFC, pc := 0x1000 } } := by
  decide

/-- Steps of spec/96_derived_vectors.md. -/
theorem test_stores :
    -- V43-20 SB x7, 0(x6)
    leadsTo 0x00730023 { pc := 0x1000, x := [(6, 0x2000), (7, 0x1122334455667788)] }
      { pc := 0x1004, mem := [(0x2000, [0x88])] } ∧
    -- V43-21 SH x7, 0(x6)
    leadsTo 0x00731023 { pc := 0x1000, x := [(6, 0x2000), (7, 0x1122334455667788)] }
      { pc := 0x1004, mem := [(0x2000, [0x88, 0x77])] } ∧
    -- V43-24 SW x7, -4(x6)
    leadsTo 0xFE732E23 { pc := 0x1000, x := [(6, 0x2008), (7, 0x1122334455667788)] }
      { pc := 0x1004, mem := [(0x2004, [0x88, 0x77, 0x66, 0x55])] } ∧
    -- V43-25 SD x7, 3(x6)
    leadsTo 0x007331A3 { pc := 0x1000, x := [(6, 0x2000), (7, 0x1122334455667788)] }
      { pc := 0x1004, mem := [(0x2003, [0x88, 0x77, 0x66, 0x55, 0x44, 0x33, 0x22, 0x11])] } := by
  decide

/-- Steps of spec/96_derived_vectors.md. -/
theorem test_stores_that_stop :
    -- V43-26 SW x7, 0(x0)
    leadsTo 0x00702023 { pc := 0x1000, x := [(7, 0x1122334455667788)] }
      { pc := 0x1000, halted := some { fatal := .romWrite 0x0, pc := 0x1000 } } ∧
    -- V43-28 SW x7, 0(x6)
    leadsTo 0x00732023 { pc := 0x1000, x := [(6, 0x2FFE), (7, 0x1122334455667788)] }
      { pc := 0x1000, mem := [(0x2FFE, [0x88, 0x77])], halted := some { fatal := .address 0x2FFE, pc := 0x1000 } } := by
  decide

/-- Steps of spec/96_derived_vectors.md. -/
theorem test_alu_immediate :
    -- V44-3 ADDI x5, x6, 2047
    leadsTo 0x7FF30293 { pc := 0x1000, x := [(6, 0xFFFFFFFFFFFFFFFF)] }
      { pc := 0x1004, x := [(5, 0x7FE)] } ∧
    -- V44-7 SLTI x5, x6, 0
    leadsTo 0x00032293 { pc := 0x1000, x := [(6, 0x8000000000000000)] }
      { pc := 0x1004, x := [(5, 0x1)] } ∧
    -- V44-10 SLTIU x5, x6, -1
    leadsTo 0xFFF33293 { pc := 0x1000, x := [(6, 0x1388)] }
      { pc := 0x1004, x := [(5, 0x1)] } ∧
    -- V44-12 XORI x5, x6, -1
    leadsTo 0xFFF34293 { pc := 0x1000, x := [(6, 0xFFFF0000)] }
      { pc := 0x1004, x := [(5, 0xFFFFFFFF0000FFFF)] } ∧
    -- V44-13 ORI x5, x6, -256
    leadsTo 0xF0036293 { pc := 0x1000, x := [(6, 0x12)] }
      { pc := 0x1004, x := [(5, 0xFFFFFFFFFFFFFF12)] } ∧
    -- V44-14 ANDI x5, x6, -16
    leadsTo 0xFF037293 { pc := 0x1000, x := [(6, 0x123456789ABCDEFF)] }
      { pc := 0x1004, x := [(5, 0x123456789ABCDEF0)] } := by
  decide

/-- Steps of spec/96_derived_vectors.md. -/
theorem test_immediate_shifts :
    -- V44-15 SLLI x5, x6, 31
    leadsTo 0x01F31293 { pc := 0x1000, x := [(6, 0x3)] }
      { pc := 0x1004, x := [(5, 0x180000000)] } ∧
    -- V44-17 SRLI x5, x6, 31
    leadsTo 0x01F35293 { pc := 0x1000, x := [(6, 0xFFFFFFFFFFFFFFFF)] }
      { pc := 0x1004, x := [(5, 0x1FFFFFFFF)] } ∧
    -- V44-18 SRAI x5, x6, 31
    leadsTo 0x41F35293 { pc := 0x1000, x := [(6, 0x8000000000000000)] }
      { pc := 0x1004, x := [(5, 0xFFFFFFFF00000000)] } ∧
    -- V44-22 SRAI x5, x6, 32 (RV64 standard form)
    leadsTo 0x42035293 { pc := 0x1000, x := [(6, 0x1)] }
      { pc := 0x1000, halted := some { fatal := .dispatch 0x13 0x42035293, pc := 0x1000 } } := by
  decide

/-- Steps of spec/96_derived_vectors.md. -/
theorem test_word_forms :
    -- V44-24 ADDIW x5, x6, 1
    leadsTo 0x0013029B { pc := 0x1000, x := [(6, 0x7FFFFFFF)] }
      { pc := 0x1004, x := [(5, 0xFFFFFFFF80000000)] } ∧
    -- V44-28 SLLIW x5, x6, 4
    leadsTo 0x0043129B { pc := 0x1000, x := [(6, 0xAAAAAAAA12345678)] }
      { pc := 0x1004, x := [(5, 0x23456780)] } ∧
    -- V44-29 SRLIW x5, x6, 4
    leadsTo 0x0043529B { pc := 0x1000, x := [(6, 0x80000000)] }
      { pc := 0x1004, x := [(5, 0xFFFFFFFFF8000000)] } ∧
    -- V44-32 SRAIW x5, x6, 31
    leadsTo 0x41F3529B { pc := 0x1000, x := [(6, 0x80000000)] }
      { pc := 0x1004, x := [(5, 0xFFFFFFFFFFFFFFFF)] } := by
  decide

/-- Steps of spec/96_derived_vectors.md. -/
theorem test_alu_register :
    -- V45-1 ADD x7, x5, x6
    leadsTo 0x006283B3 { pc := 0x1000, x := [(5, 0xFFFFFFFFFFFFFFFF), (6, 0x1), (7, 0x9)] }
      { pc := 0x1004, x := [(7, 0x0)] } ∧
    -- V45-4 SUB x7, x5, x6
    leadsTo 0x406283B3 { pc := 0x1000, x := [(5, 0x8000000000000000), (6, 0x1)] }
      { pc := 0x1004, x := [(7, 0x7FFFFFFFFFFFFFFF)] } ∧
    -- V45-7 SLL x7, x5, x6
    leadsTo 0x006293B3 { pc := 0x1000, x := [(5, 0x1), (6, 0xFFFFFFFFFFFFFFE1)] }
      { pc := 0x1004, x := [(7, 0x200000000)] } ∧
    -- V45-9 SRL x7, x5, x6
    leadsTo 0x0062D3B3 { pc := 0x1000, x := [(5, 0x8000000000000000), (6, 0x20)] }
      { pc := 0x1004, x := [(7, 0x80000000)] } ∧
    -- V45-10 SRA x7, x5, x6
    leadsTo 0x4062D3B3 { pc := 0x1000, x := [(5, 0x8000000000000000), (6, 0x3F)] }
      { pc := 0x1004, x := [(7, 0xFFFFFFFFFFFFFFFF)] } ∧
    -- V45-12 SLT x7, x5, x6
    leadsTo 0x0062A3B3 { pc := 0x1000, x := [(5, 0xFFFFFFFFFFFFFFFF), (6, 0x0)] }
      { pc := 0x1004, x := [(7, 0x1)] } ∧
    -- V45-14 SLTU x7, x0, x6
    leadsTo 0x006033B3 { pc := 0x1000, x := [(6, 0x9)] }
      { pc := 0x1004, x := [(7, 0x1)] } ∧
    -- V45-16 XOR x7, x5, x6
    leadsTo 0x0062C3B3 { pc := 0x1000, x := [(5, 0xFF00FF00FF00FF00), (6, 0xFF00FF00FF00FF0)] }
      { pc := 0x1004, x := [(7, 0xF0F0F0F0F0F0F0F0)] } := by
  decide

/-- Steps of spec/96_derived_vectors.md. -/
theorem test_alu_words_that_stop :
    -- V45-21 opcode 0110011 funct7=0000010 funct3=000
    leadsTo 0x046283B3 { pc := 0x1000, x := [(5, 0x1), (6, 0x2)] }
      { pc := 0x1000, halted := some { fatal := .dispatch 0x33 0x46283B3, pc := 0x1000 } } ∧
    -- V45-22 ADDW x7, x5, x6 (standard, opcode 0111011)
    leadsTo 0x006283BB { pc := 0x1000, x := [(5, 0x1), (6, 0x2)] }
      { pc := 0x1000, halted := some { fatal := .decodeOpcode 0x3B 0x6283BB, pc := 0x1000 } } := by
  decide

/-- Steps of spec/96_derived_vectors.md. -/
theorem test_multiply :
    -- V46-3 MUL x7, x5, x6
    leadsTo 0x026283B3 { pc := 0x1000, x := [(5, 0xFFFFFFFF), (6, 0xFFFFFFFF)] }
      { pc := 0x1004, x := [(7, 0xFFFFFFFE00000001)] } ∧
    -- V46-6 MULH x7, x5, x6
    leadsTo 0x026293B3 { pc := 0x1000, x := [(5, 0x8000000000000000), (6, 0x2)] }
      { pc := 0x1004, x := [(7, 0xFFFFFFFFFFFFFFFF)] } ∧
    -- V46-8 MULHSU x7, x5, x6
    leadsTo 0x0262A3B3 { pc := 0x1000, x := [(5, 0x2), (6, 0xFFFFFFFFFFFFFFFF)] }
      { pc := 0x1004, x := [(7, 0x1)] } ∧
    -- V46-9 MULHU x7, x5, x6
    leadsTo 0x0262B3B3 { pc := 0x1000, x := [(5, 0xFFFFFFFFFFFFFFFF), (6, 0xFFFFFFFFFFFFFFFF)] }
      { pc := 0x1004, x := [(7, 0xFFFFFFFFFFFFFFFE)] } := by
  decide

/-- Steps of spec/96_derived_vectors.md. -/
theorem test_divide :
    -- V46-12 DIV x7, x5, x6
    leadsTo 0x0262C3B3 { pc := 0x1000, x := [(5, 0x7), (6, 0xFFFFFFFFFFFFFFFE)] }
      { pc := 0x1004, x := [(7, 0xFFFFFFFFFFFFFFFD)] } ∧
    -- V46-14 DIV x7, x5, x6
    leadsTo 0x0262C3B3 { pc := 0x1000, x := [(5, 0x8000000000000000), (6, 0xFFFFFFFFFFFFFFFF)] }
      { pc := 0x1004, x := [(7, 0x8000000000000000)] } ∧
    -- V46-16 DIVU x7, x5, x6
    leadsTo 0x0262D3B3 { pc := 0x1000, x := [(5, 0xFFFFFFFFFFFFFFF9), (6, 0x0), (7, 0x9)] }
      { pc := 0x1004, x := [(7, 0x0)] } ∧
    -- V46-17 REM x7, x5, x6
    leadsTo 0x0262E3B3 { pc := 0x1000, x := [(5, 0xFFFFFFFFFFFFFFF9), (6, 0x2)] }
      { pc := 0x1004, x := [(7, 0xFFFFFFFFFFFFFFFF)] } ∧
    -- V46-22 REMU x7, x5, x6
    leadsTo 0x0262F3B3 { pc := 0x1000, x := [(5, 0xFFFFFFFFFFFFFFF9), (6, 0x0), (7, 0x9)] }
      { pc := 0x1004, x := [(7, 0x0)] } := by
  decide

/-- Steps of spec/96_derived_vectors.md. -/
theorem test_atomics :
    -- V47-1 LR.W x5, (x6)
    leadsTo 0x100322AF { pc := 0x1000, x := [(6, 0x2000)], mem := [(0x2000, [0x80, 0x81, 0x82, 0x83, 0x84, 0x85, 0x86, 0xF7])] }
      { pc := 0x1004, x := [(5, 0xFFFFFFFF83828180)] } ∧
    -- V47-2 LR.D x5, (x6)
    leadsTo 0x100332AF { pc := 0x1000, x := [(6, 0x2000)], mem := [(0x2000, [0x80, 0x81, 0x82, 0x83, 0x84, 0x85, 0x86, 0xF7])] }
      { pc := 0x1004, x := [(5, 0xF786858483828180)] } ∧
    -- V47-14 SC.W x6, x7, (x6)
    leadsTo 0x1873232F { pc := 0x1000, x := [(6, 0x2000), (7, 0x1122334455667788)] }
      { pc := 0x1004, x := [(6, 0x0)], mem := [(0x2000, [0x88, 0x77, 0x66, 0x55])] } ∧
    -- V47-4 SC.D x5, x7, (x6)
    leadsTo 0x187332AF { pc := 0x1000, x := [(5, 0x99), (6, 0x2000), (7, 0x1122334455667788)] }
      { pc := 0x1004, x := [(5, 0x0)], mem := [(0x2000, [0x88, 0x77, 0x66, 0x55, 0x44, 0x33, 0x22, 0x11])] } ∧
    -- V47-7 AMOSWAP.W.aqrl x5, x7, (x6)
    leadsTo 0x0E7322AF { pc := 0x1000, x := [(6, 0x2000), (7, 0x1122334455667788)], mem := [(0x2000, [0x80, 0x81, 0x82, 0x83, 0x84, 0x85, 0x86, 0xF7])] }
      { pc := 0x1004, x := [(5, 0xFFFFFFFF83828180)], mem := [(0x2000, [0x88, 0x77, 0x66, 0x55])] } ∧
    -- V47-8 AMOSWAP.D x7, x7, (x6)
    leadsTo 0x087333AF { pc := 0x1000, x := [(6, 0x2000), (7, 0x1122334455667788)], mem := [(0x2000, [0x80, 0x81, 0x82, 0x83, 0x84, 0x85, 0x86, 0xF7])] }
      { pc := 0x1004, x := [(7, 0xF786858483828180)], mem := [(0x2000, [0x88, 0x77, 0x66, 0x55, 0x44, 0x33, 0x22, 0x11])] } := by
  decide

/-- Steps of spec/96_derived_vectors.md. -/
theorem test_atomics_that_stop :
    -- V47-9 AMOADD.W x5, x7, (x6) (standard)
    leadsTo 0x007322AF { pc := 0x1000, x := [(6, 0x2000), (7, 0x1)], mem := [(0x2000, [0x80, 0x81, 0x82, 0x83, 0x84, 0x85, 0x86, 0xF7])] }
      { pc := 0x1000, halted := some { fatal := .dispatch 0x2F 0x7322AF, pc := 0x1000 } } ∧
    -- V47-13 AMOSWAP.W x5, x7, (x6)
    leadsTo 0x087322AF { pc := 0x1000, x := [(5, 0x99), (6, 0x0), (7, 0x1122334455667788)] }
      { pc := 0x1000, halted := some { fatal := .romWrite 0x0, pc := 0x1000 } } := by
  decide

/-- Steps of spec/96_derived_vectors.md. -/
theorem test_no_ops :
    -- V48-1 FENCE iorw, iorw
    leadsTo 0x0FF0000F { pc := 0x1000 }
      { pc := 0x1004 } ∧
    -- V48-3 ECALL
    leadsTo 0x00000073 { pc := 0x1000 }
      { pc := 0x1004 } ∧
    -- V48-4 EBREAK
    leadsTo 0x00100073 { pc := 0x1000 }
      { pc := 0x1004 } := by
  decide

/-- Steps of spec/96_derived_vectors.md. -/
theorem test_csr :
    -- V48-16 CSRRW x6, [x6], x6
    leadsTo 0x00631373 { pc := 0x1000, x := [(6, 0x300)], csr := [(0x300, 0x11)] }
      { pc := 0x1004, x := [(6, 0x11)], csr := [(0x300, 0x300)] } ∧
    -- V48-8 CSRRS x5, [x6], x7
    leadsTo 0x007322F3 { pc := 0x1000, x := [(6, 0x300), (7, 0xA0)], csr := [(0x300, 0x11)] }
      { pc := 0x1004, x := [(5, 0x11)], csr := [(0x300, 0xB1)] } ∧
    -- V48-9 CSRRC x5, [x6], x7
    leadsTo 0x007332F3 { pc := 0x1000, x := [(6, 0x300), (7, 0x1)], csr := [(0x300, 0x11)] }
      { pc := 0x1004, x := [(5, 0x11)], csr := [(0x300, 0x10)] } ∧
    -- V48-10 CSRRWI x5, [x6], 0xFFF
    leadsTo 0xFFF352F3 { pc := 0x1000, x := [(6, 0x300)], csr := [(0x300, 0x11)] }
      { pc := 0x1004, x := [(5, 0x11)], csr := [(0x300, 0xFFF)] } ∧
    -- V48-11 CSRRSI x5, [x6], 0x800
    leadsTo 0x800362F3 { pc := 0x1000, x := [(6, 0x300)], csr := [(0x300, 0x11)] }
      { pc := 0x1004, x := [(5, 0x11)], csr := [(0x300, 0x811)] } ∧
    -- V48-12 CSRRCI x5, [x6], 0x010
    leadsTo 0x010372F3 { pc := 0x1000, x := [(6, 0x300)], csr := [(0x300, 0x11)] }
      { pc := 0x1004, x := [(5, 0x11)], csr := [(0x300, 0x1)] } := by
  decide

/-- Steps of spec/96_derived_vectors.md. -/
theorem test_csr_index_and_field :
    -- V48-13 CSRRS x5, [x6], x0
    leadsTo 0x000322F3 { pc := 0x1000, x := [(6, 0xFFF)], csr := [(0xFFF, 0x77)] }
      { pc := 0x1004, x := [(5, 0x77)] } ∧
    -- V48-14 CSRRW x5, [x6], x7
    leadsTo 0x007312F3 { pc := 0x1000, x := [(6, 0x1000), (7, 0x1)] }
      { pc := 0x1000, halted := some { fatal := .csrIndex 0x1000, pc := 0x1000 } } ∧
    -- V48-17 opcode 1110011 with funct3=100
    leadsTo 0x000342F3 { pc := 0x1000, x := [(6, 0x300)] }
      { pc := 0x1000, halted := some { fatal := .dispatch 0x73 0x342F3, pc := 0x1000 } } := by
  decide

/-- Steps of spec/96_derived_vectors.md. -/
theorem test_compressed_quadrant_0 :
    -- V49-2 c.addi4spn x15, 1020
    leadsTo 0x1FFC { pc := 0x1000, x := [(2, 0x2000)] }
      { pc := 0x1002, x := [(15, 0x23FC)] } ∧
    -- V49-4 c.lw x10, 4(x9)
    leadsTo 0x40C8 { pc := 0x1000, x := [(9, 0x2000)], mem := [(0x2000, [0x80, 0x81, 0x82, 0x83, 0x84, 0x85, 0x86, 0xF7])] }
      { pc := 0x1002, x := [(10, 0xFFFFFFFFF7868584)] } ∧
    -- V49-6 c.sw x10, 4(x9)
    leadsTo 0xC0C8 { pc := 0x1000, x := [(9, 0x2000), (10, 0x1122334455667788)] }
      { pc := 0x1002, mem := [(0x2004, [0x88, 0x77, 0x66, 0x55])] } := by
  decide

/-- Steps of spec/96_derived_vectors.md. -/
theorem test_compressed_quadrant_1 :
    -- V49-11 c.addi x5, -1
    leadsTo 0x12FD { pc := 0x1000, x := [(5, 0x0)] }
      { pc := 0x1002, x := [(5, 0xFFFFFFFFFFFFFFFF)] } ∧
    -- V49-15 c.jal -2
    leadsTo 0x3FFD { pc := 0x1010 }
      { pc := 0x100E, x := [(1, 0x1012)] } ∧
    -- V49-16 c.li x5, -32
    leadsTo 0x5281 { pc := 0x1000 }
      { pc := 0x1002, x := [(5, 0xFFFFFFFFFFFFFFE0)] } ∧
    -- V49-19 c.addi16sp -64
    leadsTo 0x7139 { pc := 0x1000, x := [(2, 0x3000)] }
      { pc := 0x1002, x := [(2, 0x2FC0)] } ∧
    -- V49-23 c.lui x5, 0x3f
    leadsTo 0x72FD { pc := 0x1000 }
      { pc := 0x1002, x := [(5, 0xFFFFF000)] } := by
  decide

/-- Steps of spec/96_derived_vectors.md. -/
theorem test_compressed_alu :
    -- V49-27 c.srli x8, 31
    leadsTo 0x807D { pc := 0x1000, x := [(8, 0xFFFFFFFFFFFFFFFF)] }
      { pc := 0x1002, x := [(8, 0x1FFFFFFFF)] } ∧
    -- V49-26 c.srai x8, 4
    leadsTo 0x8411 { pc := 0x1000, x := [(8, 0x8000000000000010)] }
      { pc := 0x1002, x := [(8, 0xF800000000000001)] } ∧
    -- V49-31 c.andi x8, -16
    leadsTo 0x9841 { pc := 0x1000, x := [(8, 0x12FF)] }
      { pc := 0x1002, x := [(8, 0x12F0)] } ∧
    -- V49-33 c.sub x8, x9
    leadsTo 0x8C05 { pc := 0x1000, x := [(8, 0x5), (9, 0x7)] }
      { pc := 0x1002, x := [(8, 0xFFFFFFFFFFFFFFFE)] } ∧
    -- V49-34 c.xor x8, x9
    leadsTo 0x8C25 { pc := 0x1000, x := [(8, 0xF0), (9, 0xFF)] }
      { pc := 0x1002, x := [(8, 0xF)] } ∧
    -- V49-35 c.or x8, x9
    leadsTo 0x8C45 { pc := 0x1000, x := [(8, 0xF0), (9, 0xF)] }
      { pc := 0x1002, x := [(8, 0xFF)] } ∧
    -- V49-36 c.and x8, x9
    leadsTo 0x8C65 { pc := 0x1000, x := [(8, 0xF0), (9, 0x3C)] }
      { pc := 0x1002, x := [(8, 0x30)] } := by
  decide

/-- Steps of spec/96_derived_vectors.md. -/
theorem test_compressed_jumps :
    -- V49-41 c.j 2046
    leadsTo 0xAFFD { pc := 0x1000 }
      { pc := 0x17FE } ∧
    -- V49-42 c.beqz x8, 8
    leadsTo 0xC401 { pc := 0x1000, x := [(8, 0x0)] }
      { pc := 0x1008, x := [(8, 0x0)] } ∧
    -- V49-43 c.beqz x8, 8
    leadsTo 0xC401 { pc := 0x1000, x := [(8, 0x1)] }
      { pc := 0x1002 } ∧
    -- V49-44 c.bnez x8, -6
    leadsTo 0xFC6D { pc := 0x1010, x := [(8, 0x1)] }
      { pc := 0x100A } := by
  decide

/-- Steps of spec/96_derived_vectors.md. -/
theorem test_compressed_quadrant_2 :
    -- V49-46 c.slli x5, 4
    leadsTo 0x0292 { pc := 0x1000, x := [(5, 0xF000000000000001)] }
      { pc := 0x1002, x := [(5, 0x10)] } ∧
    -- V49-48 c.slli64 x5 (shamt=0)
    leadsTo 0x0282 { pc := 0x1000, x := [(5, 0x3)] }
      { pc := 0x1000, halted := some { fatal := .decodeCompressed 0x282, pc := 0x1000 } } ∧
    -- V49-52 c.jr x1
    leadsTo 0x8082 { pc := 0x1000, x := [(1, 0x1234)] }
      { pc := 0x1234 } ∧
    -- V49-54 c.mv x10, x11
    leadsTo 0x852E { pc := 0x1000, x := [(10, 0x1), (11, 0x1122334455667788)] }
      { pc := 0x1002, x := [(10, 0x1122334455667788)] } ∧
    -- V49-56 c.ebreak
    leadsTo 0x9002 { pc := 0x1000 }
      { pc := 0x1002 } ∧
    -- V49-57 c.jalr x5
    leadsTo 0x9282 { pc := 0x1000, x := [(5, 0x1100)] }
      { pc := 0x1100, x := [(1, 0x1004)] } ∧
    -- V49-59 c.add x10, x11
    leadsTo 0x952E { pc := 0x1000, x := [(10, 0xFFFFFFFFFFFFFFFF), (11, 0x2)] }
      { pc := 0x1002, x := [(10, 0x1)] } := by
  decide

/-- Steps of spec/96_derived_vectors.md. -/
theorem test_compressed_illegal :
    -- V49-3 halfword 0x0000 (c.addi4spn, nzuimm=0)
    leadsTo 0x0000 { pc := 0x1000 }
      { pc := 0x1000, halted := some { fatal := .decodeCompressed 0x0, pc := 0x1000 } } ∧
    -- V49-28 c.srli with c[12]=1 (standard shamt 36)
    leadsTo 0x9011 { pc := 0x1000, x := [(8, 0xFFFFFFFFFFFFFFFF)] }
      { pc := 0x1000, halted := some { fatal := .decodeCompressed 0x9011, pc := 0x1000 } } ∧
    -- V49-61 quadrant 10 funct3=010 (standard c.lwsp)
    leadsTo 0x4502 { pc := 0x1000, x := [(2, 0x2000)] }
      { pc := 0x1000, halted := some { fatal := .decodeCompressed 0x4502, pc := 0x1000 } } ∧
    -- V49-67 c.li x10, 10 in last 2 bytes of RAM
    leadsTo 0x4529 { pc := 0x2FFE }
      { pc := 0x2FFE, halted := some { fatal := .address 0x2FFE, pc := 0x2FFE } } := by
  decide

/-! ## Witnesses: what meets the hypotheses of the statements -/

/-- A board with buffers smaller than their ranges and a RAM that reaches past the top of the address space. -/
def small : Config where
  resetPc := 0x1000
  regionTable :=
    [ { start := 0x0, stop := 0x20, kind := .rom 0x10 (.bytes [0x10, 0x11, 0x12, 0x13, 0x14, 0x15, 0x16, 0x17]) },
      { start := 0x1000, stop := 0x1100, kind := .ram 0x40 .notLoaded },
      { start := 0x10000000, stop := 0x10000008, kind := .uart },
      { start := 0xFFFFFFFFFFFFFFF0, stop := 0xFFFFFFFFFFFFFFFF, kind := .ram 0x20 .notLoaded } ]
  ramMaxSize := 0x1000
  uartLsrReset := 0

/-- The small board with values in `x6` and `x7` and a word at `pc`. -/
def lab (w : Nat) (r6 r7 : Word) : State := (((State.resetFor small).setX 6 r6).setX 7 r7).withFetchWord 32 w

def stateOf : Result → Option State
  | .next t => some t
  | .fault _ => none
  | .refused _ => none

theorem is_next {r : Result} {t : State} (h : stateOf r = some t) : r = .next t := by
  cases r <;> simp_all [stateOf]

def faultOf : Result → Option Fault
  | .next _ => none
  | .fault f => some f
  | .refused _ => none

theorem is_fault {r : Result} {f : Fault} (h : faultOf r = some f) : r = .fault f := by
  cases r <;> simp_all [faultOf]

theorem lab_addi_inv : (lab 0x00130293 0 0).Inv :=
  ⟨by decide, by decide, by decide, by decide, by decide, fun r h => by cases h⟩

theorem test_hyp_DecodeOfEncode : (Instr.jal 31 (-2)).wf = true ∧ (Instr.cAddi16sp (-512)).wf = true := by decide
theorem test_hyp_EncodeOfDecode :
    decode 0xFFDFF0EF#32 = .ok (.jal 1 (-4)) ∧ decode 0xFFFF12FD#32 = .ok (.cAddi 5 (-1)) := by decide
theorem test_hyp_CompressedHighHalfIgnored :
    (0xFFFF12FD#32).extractLsb' 0 16 = (0x000012FD#32).extractLsb' 0 16 ∧
    (0xFFFF12FD#32).extractLsb' 0 2 ≠ 0b11#2 := by decide
theorem test_hyp_UnknownOpcodeIsFatal :
    (lab 0x006283BB 0 0).halted = none ∧ (lab 0x006283BB 0 0).fetch = (.ok 0x006283BB#32, lab 0x006283BB 0 0) ∧
    (0x006283BB#32).extractLsb' 0 2 = 0b11#2 ∧ (0x006283BB#32).extractLsb' 0 7 ∉ primaryOpcodes ∧
    decode 0x006283BB#32 = .error (.unknownOpcode 0x3B 0x006283BB) := by decide
theorem test_hyp_IllegalCompressedIsFatal :
    (lab 0x9C05 0 0).halted = none ∧ (lab 0x9C05 0 0).fetch = (.ok 0x9C05#32, lab 0x9C05 0 0) ∧
    (0x9C05#32).extractLsb' 0 2 ≠ 0b11#2 ∧ illegalHalf ((0x9C05#32).extractLsb' 0 16) ∧
    (lab 0x0282 0 0).fetch = (.ok 0x0282#32, lab 0x0282 0 0) ∧ slli64Pattern ((0x0282#32).extractLsb' 0 16) := by
  unfold illegalHalf slli64Pattern; decide
theorem test_hyp_UnlistedFieldsAreFatal :
    (lab 0x000290E7 0 0).halted = none ∧ (lab 0x000290E7 0 0).fetch = (.ok 0x000290E7#32, lab 0x000290E7 0 0) ∧
    (0x000290E7#32).extractLsb' 0 7 ∈ primaryOpcodes ∧ ¬ listedFields 0x000290E7#32 ∧
    (0x004280E7#32).extractLsb' 0 7 ∈ primaryOpcodes ∧ listedFields 0x004280E7#32 :=
  ⟨by decide, by decide, by decide, by simp [listedFields], by decide, by simp [listedFields]⟩
theorem test_hyp_StepRunsDecodedInstruction :
    (lab 0x00130293 0 0).halted = none ∧ (lab 0x00130293 0 0).fetch = (.ok 0x00130293#32, lab 0x00130293 0 0) ∧
    decode 0x00130293#32 = .ok (.addi 5 6 1) ∧
    (lab 0x00130293 0 0).holdsBytes (lab 0x00130293 0 0).pc [0x93, 0x02, 0x13, 0x00] ∧
    decode (0x00#8 ++ 0x13#8 ++ 0x02#8 ++ 0x93#8) = .ok (.addi 5 6 1) := by
  unfold State.holdsBytes; decide
theorem test_hyp_FetchErrorEndsStep :
    let s : State := { lab 0 0 0 with pc := 0x1100 }
    s.halted = none ∧ s.memRead s.pc 4 = (.error (.address 0x1100), s) ∧ Bus.lookup s.pc s.bus = none := by decide
theorem test_hyp_HaltedMachineStands : ((lab 0 0 0).raise (.address 0)).halted ≠ none := by decide
theorem test_hyp_FatalErrorIsPrecise :
    (lab 0 0 0).halted = none ∧ step (lab 0 0 0) = .next ((lab 0 0 0).raise (.decodeCompressed 0)) ∧
    ((lab 0 0 0).raise (.decodeCompressed 0)).halted = some { fatal := .decodeCompressed 0, pc := 0x1000 } :=
  ⟨rfl, is_next (by decide), rfl⟩
theorem test_hyp_CompletedStepAdvances :
    let s := lab 0x00130293 5 0
    s.halted = none ∧ step s = .next ((s.setX 5 6).tail 4) ∧ ((s.setX 5 6).tail 4).halted = none ∧
    (Instr.addi 5 6 1).mayRedirect = false := ⟨rfl, is_next (by decide), rfl, rfl⟩
theorem test_hyp_OnlyDestinationChanges :
    let s := lab 0 5 0
    exec (.addi 5 6 1) s = .next ((s.setX 5 6).tail 4) ∧ (Instr.addi 5 6 1).dest ≠ some 6 :=
  ⟨is_next (by decide), by decide⟩
theorem test_hyp_CsrsBelongToCsrInstructions :
    let s := lab 0 5 0
    (Instr.addi 5 6 1).usesCsr = false ∧ exec (.addi 5 6 1) s = .next ((s.setX 5 6).tail 4) :=
  ⟨rfl, is_next (by decide)⟩
theorem test_hyp_OnlyStoresWriteMemory :
    let s := lab 0 0x103F 0xFF
    exec (.addi 5 0 1) s = .next ((s.setX 5 1).tail 4) ∧ (Instr.addi 5 0 1).storeSpan s = none ∧
    exec (.sb 6 7 0) s = .next ((s.memWrite 0x103F 1 0xFF).2.tail 4) ∧
    (Instr.sb 6 7 0).storeSpan s = some (0x103F, 1) :=
  ⟨is_next (by decide), rfl, is_next (by decide), by decide⟩
theorem test_hyp_RomAndTableNeverChange :
    State.after 1 (lab 0x00130293 5 0) = .next (((lab 0x00130293 5 0).setX 5 6).tail 4) :=
  is_next (by decide)
theorem test_hyp_StepKeepsInvariant :
    (lab 0x00130293 0 0).Inv ∧ step (lab 0x00130293 0 0) = .next (((lab 0x00130293 0 0).setX 5 1).tail 4) :=
  ⟨lab_addi_inv, is_next (by decide)⟩
theorem test_hyp_ResetHasInvariant : ∃ s : State, s.Inv := ⟨_, lab_addi_inv⟩

/-- JAL with `JAL_SEXT_BITS` at 21 and at 20; with 20, an offset in reach of both. -/
theorem test_hyp_JumpResults :
    (lab 0 0 0).cfg.jalSextBits = 21 ∧
    ({ lab 0 0 0 with cfg := { small with jalSextBits := 20 } } : State).cfg.jalSextBits = 20 ∧
    (0xC0000#20).extractLsb' 19 1 = (0xC0000#20).extractLsb' 18 1 ∧
    (0x3FFFF#20).extractLsb' 19 1 = (0x3FFFF#20).extractLsb' 18 1 := by decide
/-- Both outcomes of each condition, at equal operands and at the ends of the signed range. -/
theorem test_hyp_BranchResults :
    let eq := lab 0 7 7
    let ends := lab 0 0x8000000000000000 0x7FFFFFFFFFFFFFFF
    eq.getX 6 = eq.getX 7 ∧ ¬ ends.getX 6 = ends.getX 7 ∧ ¬ (eq.getX 6).toInt < (eq.getX 7).toInt ∧
    (ends.getX 6).toInt < (ends.getX 7).toInt ∧ (eq.getX 7).toInt ≤ (eq.getX 6).toInt ∧
    ¬ (ends.getX 7).toInt ≤ (ends.getX 6).toInt ∧ ¬ (ends.getX 6).toNat < (ends.getX 7).toNat ∧
    (ends.getX 7).toNat < (ends.getX 6).toNat ∧ (ends.getX 7).toNat ≤ (ends.getX 6).toNat ∧
    ¬ (ends.getX 6).toNat ≤ (ends.getX 7).toNat := by decide
/-- A read of each width of the last bytes of a buffer. -/
theorem test_hyp_SignedLoadResults : ∀ n ∈ [1, 2, 4, 8],
    let s := lab 0 (0x1040 - BitVec.ofNat 64 n) 0
    s.memRead (s.getX 6 + (0#12).signExtend 64) n = (.ok 0, s) ∧
    s.holdsBytes (s.getX 6 + (0#12).signExtend 64) (List.replicate n 0) := by
  unfold State.holdsBytes; decide
theorem test_hyp_UnsignedLoadResults : ∀ n ∈ [1, 2, 4],
    let s := lab 0 (0x8 - BitVec.ofNat 64 n) 0
    (s.memRead (s.getX 6 + (0#12).signExtend 64) n).2 = s ∧ s.getX 6 + (0#12).signExtend 64 = 0x8 - BitVec.ofNat 64 n ∧
    s.holdsBytes (0x8 - BitVec.ofNat 64 n) ([0x10, 0x11, 0x12, 0x13, 0x14, 0x15, 0x16, 0x17].drop (8 - n)) := by
  unfold State.holdsBytes; decide
/-- A write of each width of the last bytes of a RAM buffer. -/
theorem test_hyp_StoreResults (n : Nat) (h : n ∈ [1, 2, 4, 8]) :
    let s := lab 0 (0x1040 - BitVec.ofNat 64 n) 0xFF
    (s.memWrite (s.getX 6 + (0#12).signExtend 64) n (s.getX 7)).1 = .ok () ∧
    s.inRam (s.getX 6 + (0#12).signExtend 64) n ∧ Bus.wf s.bus = true := by
  simp only [List.mem_cons, List.not_mem_nil, or_false] at h
  rcases h with rfl | rfl | rfl | rfl <;>
    exact ⟨by decide, ⟨_, _, _, rfl, rfl, by decide, by decide⟩, by decide⟩
theorem test_hyp_LoadReservedResults : ∀ n ∈ [4, 8],
    let s := lab 0 (0x1040 - BitVec.ofNat 64 n) 0
    s.memRead (s.getX 6) n = (.ok 0, s) ∧ s.holdsBytes (s.getX 6) (List.replicate n 0) := by
  unfold State.holdsBytes; decide
theorem test_hyp_StoreConditionalResults :
    let s := lab 0 0x1038 0xFF
    (s.memWrite (s.getX 6) 4 (s.getX 7)).1 = .ok () ∧ (s.memWrite (s.getX 6) 8 (s.getX 7)).1 = .ok () ∧
    s.inRam (s.getX 6) 4 ∧ s.inRam (s.getX 6) 8 ∧ Bus.wf s.bus = true :=
  ⟨by decide, by decide, ⟨_, _, _, rfl, rfl, by decide, by decide⟩, ⟨_, _, _, rfl, rfl, by decide, by decide⟩, by decide⟩
/-- In RAM, at no range, and in ROM, where the read succeeds and the write fails. -/
theorem test_hyp_AmoswapResults :
    let s := lab 0 0x1038 0xFF
    let miss := lab 0 0x1100 0xFF
    let rom := lab 0 0x0 0xFF
    s.memRead (s.getX 6) 8 = (.ok 0, s) ∧ (s.memWrite (s.getX 6) 8 (s.getX 7)).1 = .ok () ∧
    s.inRam (s.getX 6) 8 ∧ s.holdsBytes (s.getX 6) [0, 0, 0, 0, 0, 0, 0, 0] ∧ Bus.wf s.bus = true ∧
    miss.memRead (miss.getX 6) 8 = (.error (.address 0x1100), miss) ∧
    rom.memRead (rom.getX 6) 4 = (.ok 0x13121110, rom) ∧
    rom.memWrite (rom.getX 6) 4 (rom.getX 7) = (.error (.romWrite 0), rom) ∧ rom.inRom (rom.getX 6) ∧
    rom.holdsBytes (rom.getX 6) [0x10, 0x11, 0x12, 0x13] :=
  ⟨by decide, by decide, ⟨_, _, _, rfl, rfl, by decide, by decide⟩, by unfold State.holdsBytes; decide, by decide,
    by decide, by decide, by decide, ⟨_, _, _, rfl, rfl⟩, by unfold State.holdsBytes; decide⟩
/-- Reads and writes at the exact end of a range; a read past the buffer from its last byte; a write to ROM. -/
theorem test_hyp_FailedAccessWritesNoRegister :
    let s := lab 0 0x1100 0xFF
    let e := lab 0 0x103F 0xFF
    let rom := lab 0 0x0 0xFF
    s.memRead (s.getX 6 + (0#12).signExtend 64) 1 = (.error (.address 0x1100), s) ∧
    (∀ n ∈ [2, 4, 8], e.memRead (e.getX 6 + (0#12).signExtend 64) n = (.error (.address 0x103F), e)) ∧
    (∀ n ∈ [1, 2, 4, 8], s.memWrite (s.getX 6 + (0#12).signExtend 64) n (s.getX 7) = (.error (.address 0x1100), s)) ∧
    (∀ n ∈ [4, 8], e.memRead (e.getX 6) n = (.error (.address 0x103F), e) ∧
      rom.memWrite (rom.getX 6) n (rom.getX 7) = (.error (.romWrite 0), rom)) := by decide
theorem test_hyp_AluImmediateResults :
    (lab 0 0 0).cfg.sltiuImmExt = .sext ∧
    ({ lab 0 0 0 with cfg := { small with sltiuImmExt := .zext } } : State).cfg.sltiuImmExt = .zext := by decide
theorem test_hyp_DivideResults :
    let s := lab 0 0x8000000000000000 0xFFFFFFFFFFFFFFFF
    s.getX 6 = 0x8000000000000000#64 ∧ s.getX 7 = 0xFFFFFFFFFFFFFFFF#64 := by decide
/-- A zero divisor and another one, signed and unsigned. -/
theorem test_hyp_DivisionIdentity :
    let z := lab 0 7 0
    let s := lab 0 7 2
    (5 : Reg) ≠ 0 ∧ exec (.div 5 6 7) z = .next ((z.setX 5 0).tail 4) ∧ exec (.rem 5 6 7) z = .next ((z.setX 5 0).tail 4) ∧
    exec (.div 5 6 7) s = .next ((s.setX 5 3).tail 4) ∧ exec (.rem 5 6 7) s = .next ((s.setX 5 1).tail 4) ∧
    exec (.divu 5 6 7) z = .next ((z.setX 5 0).tail 4) ∧ exec (.remu 5 6 7) z = .next ((z.setX 5 0).tail 4) ∧
    exec (.divu 5 6 7) s = .next ((s.setX 5 3).tail 4) ∧ exec (.remu 5 6 7) s = .next ((s.setX 5 1).tail 4) :=
  ⟨by decide, is_next (by decide), is_next (by decide), is_next (by decide), is_next (by decide), is_next (by decide),
    is_next (by decide), is_next (by decide), is_next (by decide)⟩
/-- The first and the last cell, and the first index past the file. -/
theorem test_hyp_CsrResults :
    Cells.wf (lab 0 0 1).csr = true ∧ ((lab 0 0 1).getX 6).toNat < 4096 ∧ ((lab 0 4095 1).getX 6).toNat < 4096 ∧
    4096 ≤ ((lab 0 4096 1).getX 6).toNat := by decide
/-- A completing and a failing expansion. -/
theorem test_hyp_ExpansionHasSameEffect :
    let s := lab 0 0 0
    (Instr.cAddi 5 1).expand = some (.addi 5 5 1) ∧ (Instr.addi 5 5 1).mayRedirect = false ∧ s.halted = none ∧
    exec (.cAddi 5 1) s = .next ((s.setX 5 1).tail 2) ∧ exec (.addi 5 5 1) s = .next ((s.setX 5 1).tail 4) ∧
    (Instr.cSw 0 1 0).expand = some (.sw 8 9 0) ∧ (Instr.sw 8 9 0).mayRedirect = false ∧
    exec (.cSw 0 1 0) s = .next (s.raise (.romWrite 0)) ∧ exec (.sw 8 9 0) s = .next (s.raise (.romWrite 0)) :=
  ⟨rfl, rfl, rfl, is_next (by decide), is_next (by decide), rfl, rfl, is_next (by decide), is_next (by decide)⟩
theorem test_hyp_CompressedImmediateResults :
    (0xFF#8) ≠ 0 ∧ (1#8) ≠ 0 ∧ (0b100000#6) ≠ 0 ∧ (0 : Reg) ≠ 2 ∧ (31 : Reg) ≠ 2 := by decide
theorem test_hyp_CompressedRegisterResults : (31#5) ≠ 0 ∧ (1 : Reg) ≠ 0 := by decide
/-- A read and a write that hold, and a read and a write that fail. -/
theorem test_hyp_CompressedMemoryResults :
    let s := (lab 0 0 0).setX 8 0x103C
    let rom := (lab 0 0 0).setX 8 0x1100
    s.memRead (s.getX (8 + (0 : Reg3).setWidth 5) + BitVec.ofNat 64 0) 4 = (.ok 0, s) ∧
    (s.memWrite (s.getX (8 + (0 : Reg3).setWidth 5) + BitVec.ofNat 64 0) 4 0xFF).1 = .ok () ∧
    s.inRam (s.getX (8 + (0 : Reg3).setWidth 5) + BitVec.ofNat 64 0) 4 ∧
    rom.memRead (rom.getX (8 + (0 : Reg3).setWidth 5) + BitVec.ofNat 64 0) 4 = (.error (.address 0x1100), rom) ∧
    rom.memWrite (rom.getX (8 + (0 : Reg3).setWidth 5) + BitVec.ofNat 64 0) 4 0 = (.error (.address 0x1100), rom) :=
  ⟨by decide, by decide, ⟨_, _, _, rfl, rfl, by decide, by decide⟩, by decide, by decide⟩
theorem test_hyp_CompressedJumpResults :
    (lab 0 0 0).cfg.jalSextBits = 21 ∧
    ({ lab 0 0 0 with cfg := { small with jalSextBits := 20 } } : State).cfg.jalSextBits = 20 ∧ (1 : Reg) ≠ 0 := by decide
theorem test_hyp_CompressedBranchResults :
    (lab 0 0 0).getX (8 + (0 : Reg3).setWidth 5) = 0 ∧
    ((lab 0 0 0).setX 8 1).getX (8 + (0 : Reg3).setWidth 5) ≠ 0 := by decide
theorem not_held_of_lookup_none {a : Word} {bus : Bus} (h : Bus.lookup a bus = none) :
    ∀ m ∈ bus, ¬ (m.start.toNat ≤ a.toNat ∧ a.toNat < m.stop.toNat) := by
  induction bus with
  | nil => simp
  | cons m rest ih =>
    simp only [Bus.lookup] at h
    split at h
    · cases h
    · rintro m' (_ | ⟨_, hm⟩)
      · simp_all [Mapping.holds]
      · exact ih h m' hm
/-- The exact end of a range, an address between ranges, the last address of the space, and a routed address. -/
theorem test_hyp_UnmappedAddressIsFatal :
    (∀ a ∈ [0x20#64, 0x1100#64, 0xFFFFFFFFFFFFFFFF#64], ∀ m ∈ (lab 0 0 0).bus,
      ¬ (m.start.toNat ≤ a.toNat ∧ a.toNat < m.stop.toNat)) ∧
    (Bus.lookup 0x10FF (lab 0 0 0).bus).isSome = true :=
  ⟨List.forall_mem_cons.2 ⟨not_held_of_lookup_none rfl, List.forall_mem_cons.2 ⟨not_held_of_lookup_none rfl,
    List.forall_mem_cons.2 ⟨not_held_of_lookup_none rfl, List.forall_mem_nil _⟩⟩⟩, by decide⟩
/-- The last bytes of a buffer; past a buffer, past the top of the address space, and from past a buffer. -/
theorem test_hyp_BufferReads :
    let s := lab 0 0 0
    s.holdsBytes 0x8 [0, 0, 0, 0, 0, 0, 0, 0] ∧
    s.holdsBytes 0xE [0, 0] ∧ s.accessByte 0xE 2 = none ∧
    s.holdsBytes 0xFFFFFFFFFFFFFFFC [0, 0, 0, 0] ∧ s.accessByte 0xFFFFFFFFFFFFFFFC 4 = none ∧
    (Bus.lookup 0x10 s.bus).isSome = true ∧ s.accessByte 0x10 0 = none := by
  unfold State.holdsBytes; decide
theorem test_hyp_RamWrites :
    let s := lab 0 0 0
    Bus.wf s.bus = true ∧ s.inRam 0x1038 8 ∧ s.inRam 0x103E 2 ∧ ¬ s.inRam 0x103E 3 ∧
    s.inRam 0xFFFFFFFFFFFFFFFC 4 ∧ ¬ s.inRam 0xFFFFFFFFFFFFFFFC 5 ∧
    (∃ m buf, Bus.lookup 0x1040 s.bus = some m ∧ m.region = .ram 0x40 buf ∧ 0x40 ≤ m.offset 0x1040) := by
  refine ⟨by decide, ⟨_, _, _, rfl, rfl, by decide, by decide⟩, ⟨_, _, _, rfl, rfl, by decide, by decide⟩, ?_,
    ⟨_, _, _, rfl, rfl, by decide, by decide⟩, ?_, ⟨_, _, rfl, rfl, by decide⟩⟩
  · rintro ⟨m, size, buf, hl, hr, hs, -⟩
    cases hl; cases hr; revert hs; decide
  · rintro ⟨m, size, buf, -, -, -, ht⟩
    revert ht; decide
theorem test_hyp_RomWriteIsFatal :
    let s := lab 0 0x1F 0
    s.inRom (s.getX 6 + (0#12).signExtend 64) ∧ s.inRom (s.getX 6) ∧
    (lab 0 0 0).inRom ((lab 0 0 0).getX (8 + (0 : Reg3).setWidth 5) + (0#7).setWidth 64) ∧
    (lab 0 0xC 0).inRom ((lab 0 0xC 0).getX 6) ∧ (lab 0 0xC 0).holdsBytes ((lab 0 0xC 0).getX 6) [0, 0, 0, 0] ∧
    (lab 0 8 0).inRom ((lab 0 8 0).getX 6) ∧
    (lab 0 8 0).holdsBytes ((lab 0 8 0).getX 6) [0, 0, 0, 0, 0, 0, 0, 0] :=
  ⟨⟨_, _, _, rfl, rfl⟩, ⟨_, _, _, rfl, rfl⟩, ⟨_, _, _, rfl, rfl⟩, ⟨_, _, _, rfl, rfl⟩,
    by unfold State.holdsBytes; decide, ⟨_, _, _, rfl, rfl⟩, by unfold State.holdsBytes; decide⟩
/-- The last bytes of the RAM, written with SB and SD, and the load's address equal to the store's. -/
theorem test_hyp_StoreLoadRoundTrip :
    (lab 0x00130293 0 0).Inv ∧ (5 : Reg) ≠ 0 ∧ (lab 0 0x103F 0xFF).inRam 0x103F 1 ∧ (lab 0 0x1038 0xFF).inRam 0x1038 8 ∧
    exec (.sb 6 7 0) (lab 0 0x103F 0xFF) = .next (((lab 0 0x103F 0xFF).memWrite 0x103F 1 0xFF).2.tail 4) ∧
    (((lab 0 0x103F 0xFF).memWrite 0x103F 1 0xFF).2.tail 4).getX 6 + (0#12).signExtend 64 = 0x103F :=
  ⟨lab_addi_inv, by decide, ⟨_, _, _, rfl, rfl, by decide, by decide⟩, ⟨_, _, _, rfl, rfl, by decide, by decide⟩,
    is_next (by decide), by decide⟩
/-- The last byte of a write of eight at the end of the RAM. -/
theorem test_hyp_NarrowReadOfWideWrite :
    let s := lab 0 0 0
    Bus.wf s.bus = true ∧ s.inRam 0x1038 8 ∧ Bus.lookup (0x1038 + BitVec.ofNat 64 7) s.bus = Bus.lookup 0x1038 s.bus ∧
    (s.memWrite 0x1038 8 0x1122334455667788).1 = .ok () :=
  ⟨by decide, ⟨_, _, _, rfl, rfl, by decide, by decide⟩, by decide, by decide⟩
theorem test_hyp_StoreIsSeenByNextFetch :
    let s := lab 0x00130293 0 0
    let r := lab 0x00732023 0x1004 0x00130293
    s.Inv ∧ r.halted = none ∧ r.getX 6 + (0#12).signExtend 64 = r.pc + 4 ∧ r.inRam (r.pc + 4) 4 ∧
    decode ((r.getX 7).setWidth 32) = .ok (.addi 5 6 1) :=
  ⟨lab_addi_inv, by decide, by decide, ⟨_, _, _, rfl, rfl, by decide, by decide⟩, by decide⟩

/-- The small board with its UART in state `u`. -/
def withUart (u : Uart) : State :=
  { lab 0 0 0 with bus := [{ start := 0x10000000, stop := 0x10000008, region := .uart u }] }

def fifo (n : Nat) : List Byte := List.replicate n 0x41

/-- Every offset from 0 to 7, with an empty and a filled receive queue. -/
theorem test_hyp_UartByteReads :
    (withUart (Uart.reset 0)).atUart 0x10000000 (Uart.reset 0) 0 ∧ (Uart.reset 0).rxq = [] ∧
    (withUart { Uart.reset 0 with rxq := fifo 16 }).atUart 0x10000000 { Uart.reset 0 with rxq := fifo 16 } 0 ∧
    fifo 16 = 0x41 :: fifo 15 ∧
    (∀ o ∈ [1, 2, 3, 4, 5, 6, 7], (withUart (Uart.reset 0)).atUart (0x10000000 + BitVec.ofNat 64 o) (Uart.reset 0) o) :=
  ⟨⟨_, rfl, rfl, rfl⟩, rfl, ⟨_, rfl, rfl, rfl⟩, rfl, by
    intro o h
    simp only [List.mem_cons, List.not_mem_nil, or_false] at h
    rcases h with rfl | rfl | rfl | rfl | rfl | rfl | rfl <;> exact ⟨_, rfl, rfl, rfl⟩⟩
/-- A transmit queue with one place left and a full one. -/
theorem test_hyp_UartByteWrites :
    (withUart { Uart.reset 0 with txq := fifo 15 }).atUart 0x10000000 { Uart.reset 0 with txq := fifo 15 } 0 ∧
    (fifo 15).length < 16 ∧
    (withUart { Uart.reset 0 with txq := fifo 16 }).atUart 0x10000000 { Uart.reset 0 with txq := fifo 16 } 0 ∧
    16 ≤ (fifo 16).length ∧
    (∀ o ∈ [1, 2, 3, 4, 5, 6, 7], (withUart (Uart.reset 0)).atUart (0x10000000 + BitVec.ofNat 64 o) (Uart.reset 0) o) :=
  ⟨⟨_, rfl, rfl, rfl⟩, by decide, ⟨_, rfl, rfl, rfl⟩, by decide, test_hyp_UartByteReads.2.2.2.2⟩
/-- Two bytes from offset 5, and one from offset 6. -/
theorem test_hyp_UartOffsetsPastFiveAreFatal :
    (withUart (Uart.reset 0)).atUart 0x10000005 (Uart.reset 0) 5 ∧ 6 < 5 + 2 ∧ (0x10000005#64).toNat + 2 ≤ 2 ^ 64 ∧
    (withUart (Uart.reset 0)).atUart 0x10000006 (Uart.reset 0) 6 ∧ 6 < 6 + 1 ∧ (0x10000006#64).toNat + 1 ≤ 2 ^ 64 :=
  ⟨⟨_, rfl, rfl, rfl⟩, by decide, by decide, ⟨_, rfl, rfl, rfl⟩, by decide, by decide⟩
/-- The law at two bytes from offset 5, of which the first answers and the second fails, and at a first byte that fails; a
device in the last two bytes of the address
space, from offset 4 and from offset 7 on; then the instances. -/
theorem test_hyp_UartMultiByteAccesses :
    (let s := withUart (Uart.reset 0)
     s.atUart 0x10000005 (Uart.reset 0) 5 ∧ (0x10000005#64).toNat + (1 + 1) ≤ 2 ^ 64 ∧
     (s.memRead 0x10000005 1 = (.ok 0, s) ∧ s.memWrite 0x10000005 1 0 = (.ok (), s)) ∧
     s.atUart 0x10000006 (Uart.reset 0) (5 + 1) ∧ (0x10000006#64).toNat + 1 ≤ 2 ^ 64 ∧
     s.memRead 0x10000006 1 = (.error (.uartReg 6), s) ∧ s.memWrite 0x10000006 1 0 = (.error (.uartReg 6), s)) ∧
    (let s := { withUart (Uart.reset 0) with
       bus := [{ start := 0xFFFFFFFFFFFFFFFA, stop := 0xFFFFFFFFFFFFFFFF, region := .uart (Uart.reset 0) }] }
     s.atUart 0xFFFFFFFFFFFFFFFE (Uart.reset 0) 4 ∧ (0xFFFFFFFFFFFFFFFE#64).toNat + 2 = 2 ^ 64 ∧
     s.memRead 0xFFFFFFFFFFFFFFFE 2 = (.ok 0, s) ∧ s.memWrite 0xFFFFFFFFFFFFFFFE 2 0 = (.ok (), s)) ∧
    (let s := { withUart (Uart.reset 0) with
       bus := [{ start := 0xFFFFFFFFFFFFFFF7, stop := 0xFFFFFFFFFFFFFFFF, region := .uart (Uart.reset 0) }] }
     s.atUart 0xFFFFFFFFFFFFFFFE (Uart.reset 0) 7 ∧
     s.memRead 0xFFFFFFFFFFFFFFFE 2 = (.error (.uartReg 7), s) ∧
     s.memWrite 0xFFFFFFFFFFFFFFFE 2 0 = (.error (.uartReg 7), s)) ∧
    (0x10000004#64).toNat + 4 ≤ 2 ^ 64 ∧
    (withUart { Uart.reset 0 with rxq := fifo 1 }).atUart 0x10000000 { Uart.reset 0 with rxq := fifo 1 } 0 ∧
    fifo 1 = 0x41 :: [] ∧
    (withUart { Uart.reset 0 with txq := fifo 15 }).atUart 0x10000000 { Uart.reset 0 with txq := fifo 15 } 0 ∧
    (fifo 15).length < 16 ∧ (withUart (Uart.reset 0)).atUart 0x10000004 (Uart.reset 0) 4 ∧
    ({ withUart (Uart.reset 0) with pc := 0x10000000 } : State).pc = 0x10000000 :=
  ⟨⟨⟨_, rfl, rfl, rfl⟩, by decide, by decide, ⟨_, rfl, rfl, rfl⟩, by decide, by decide, by decide⟩,
   ⟨⟨_, rfl, rfl, rfl⟩, by decide, by decide, by decide⟩, ⟨⟨_, rfl, rfl, rfl⟩, by decide, by decide⟩,
   by decide, ⟨_, rfl, rfl, rfl⟩, rfl, ⟨_, rfl, rfl, rfl⟩, by decide, ⟨_, rfl, rfl, rfl⟩, rfl⟩
/-- A table with regions before its UART. -/
theorem test_hyp_UartReceive :
    (lab 0 0 0).bus = (lab 0 0 0).bus.take 2 ++
      { start := 0x10000000, stop := 0x10000008, region := .uart (Uart.reset 0) } :: (lab 0 0 0).bus.drop 3 ∧
    (∀ m' ∈ (lab 0 0 0).bus.take 2, m'.region.shape ≠ .uart) := by decide
/-- A tuple of each kind. -/
theorem test_hyp_ResetState :
    (small.regionTable[0]?.map (·.kind)) =
      some (.rom 0x10 (.bytes [0x10, 0x11, 0x12, 0x13, 0x14, 0x15, 0x16, 0x17])) ∧
    (small.regionTable[1]?.map (·.kind)) = some (.ram 0x40 .notLoaded) ∧
    (small.regionTable[2]?.map (·.kind)) = some .uart ∧ (lab 0 0 0).cfg = small := by decide
/-- A RAM one byte over the cap, a missing image, an image one byte too large, and a table that sets up. -/
theorem test_hyp_SetupErrors :
    let one := fun k : RegionKind => ({ small with regionTable := [{ start := 0, stop := 0x2000, kind := k }] } : Config)
    State.setup (one (.ram 0x1001 .notLoaded)) = .fault (.ramSize 0) ∧
    State.setup (one (.rom 1 .missing)) = .fault (.boot 0) ∧
    State.setup (one (.ram 1 (.bytes [1, 2]))) = .fault (.boot 0) ∧
    State.setup (one (.ram 0x1000 .notLoaded)) = .next (State.resetFor (one (.ram 0x1000 .notLoaded))) :=
  ⟨is_fault (by decide), is_fault (by decide), is_fault (by decide), is_next (by decide)⟩

end Sys2Proof.Tests
end

section
/-! PROOFS. What the decoder answers for a word that is no instruction, and the step on such a word. -/

namespace Sys2Proof

/-! ## The length of an instruction (R90, R91) -/

theorem decode_standard {w : BitVec 32} (h : w.extractLsb' 0 2 = 0b11#2) : decode w = decodeStandard w := if_pos h

theorem decode_compressed {w : BitVec 32} (h : w.extractLsb' 0 2 ≠ 0b11#2) :
    decode w = decodeCompressed (w.extractLsb' 0 16) := if_neg h

/-- Settles O3: the two words have the same length bits, so both decode as their common low half. -/
theorem compressedHighHalfIgnored : Obligations.CompressedHighHalfIgnored := by
  unfold Obligations.CompressedHighHalfIgnored
  intro w w' hlow hq
  have hq' : w'.extractLsb' 0 2 ≠ 0b11#2 := by
    rwa [lowBits_quadrantOf, ← hlow, ← lowBits_quadrantOf]
  rw [decode_compressed hq, decode_compressed hq', hlow]

/-! ## The one error each decoder can answer (R114, R118) -/

/-- The only error `d` can be is `e`. -/
def OnlyError (e : DecodeError) (d : Decoded) : Prop := ∀ e', d = .error e' → e' = e

@[simp] theorem onlyError_ok (e : DecodeError) (i : Instr) : OnlyError e (.ok i) := fun _ h => by cases h

@[simp] theorem onlyError_error (e e' : DecodeError) : OnlyError e (.error e') ↔ e' = e :=
  ⟨fun h => h e' rfl, fun h _ h' => by cases h'; exact h⟩

/-- A decoder that chooses between two answers is checked at each. -/
@[simp] theorem onlyError_ite (e : DecodeError) (p : Prop) [Decidable p] (a b : Decoded) :
    OnlyError e (if p then a else b) ↔ (p → OnlyError e a) ∧ (¬ p → OnlyError e b) := by
  by_cases hp : p <;> simp [hp]

@[simp] theorem onlyError_unhandled (w : BitVec 32) : OnlyError (.unhandled (opcodeOf w) w) (unhandled w) :=
  (onlyError_error _ _).mpr rfl

@[simp] theorem onlyError_illegal (c : BitVec 16) : OnlyError (.illegalCompressed c) (illegal c) :=
  (onlyError_error _ _).mpr rfl

section SecondLevel

variable (w : BitVec 32)

@[simp] theorem decodeBranch_onlyError : OnlyError (.unhandled (opcodeOf w) w) (decodeBranch w) := by
  simp [decodeBranch]

@[simp] theorem decodeLoad_onlyError : OnlyError (.unhandled (opcodeOf w) w) (decodeLoad w) := by
  simp [decodeLoad]

@[simp] theorem decodeStore_onlyError : OnlyError (.unhandled (opcodeOf w) w) (decodeStore w) := by
  simp [decodeStore]

@[simp] theorem decodeAluImm_onlyError : OnlyError (.unhandled (opcodeOf w) w) (decodeAluImm w) := by
  simp [decodeAluImm]

@[simp] theorem decodeAluImm64_onlyError : OnlyError (.unhandled (opcodeOf w) w) (decodeAluImm64 w) := by
  simp [decodeAluImm64]

@[simp] theorem decodeAlu_onlyError : OnlyError (.unhandled (opcodeOf w) w) (decodeAlu w) := by
  simp [decodeAlu, decodeAluBase, decodeMulGroup]

@[simp] theorem decodeAtomic_onlyError : OnlyError (.unhandled (opcodeOf w) w) (decodeAtomic w) := by
  simp [decodeAtomic]

@[simp] theorem decodeSystem_onlyError : OnlyError (.unhandled (opcodeOf w) w) (decodeSystem w) := by
  simp [decodeSystem]

end SecondLevel

theorem decodeCompressed_onlyError (c : BitVec 16) : OnlyError (.illegalCompressed c) (decodeCompressed c) := by
  simp [decodeCompressed, decodeQuadrant0, decodeQuadrant1, decodeQuadrant1Alu, decodeQuadrant2]

/-! ## The primary opcode (R96, R97) -/

/-- The list of R96 by the decoder's names. -/
theorem mem_primaryOpcodes_iff (op : BitVec 7) : op ∈ Machine.primaryOpcodes ↔
    op = opLoad ∨ op = opFence ∨ op = opAluImm ∨ op = opAuipc ∨ op = opAluImm64 ∨ op = opStore ∨ op = opAtomic ∨
    op = opAlu ∨ op = opLui ∨ op = opBranch ∨ op = opJalr ∨ op = opJal ∨ op = opSystem := by
  simp [Machine.primaryOpcodes, opLoad, opFence, opAluImm, opAuipc, opAluImm64, opStore, opAtomic, opAlu, opLui,
    opBranch, opJalr, opJal, opSystem]

theorem decodeStandard_unlistedOpcode {w : BitVec 32} (h : opcodeOf w ∉ Machine.primaryOpcodes) :
    decodeStandard w = .error (.unknownOpcode (opcodeOf w) w) := by
  rw [mem_primaryOpcodes_iff] at h
  push Not at h
  simp only [decodeStandard, h, if_false]

theorem decodeStandard_listedOpcode {w : BitVec 32} (h : opcodeOf w ∈ Machine.primaryOpcodes) :
    OnlyError (.unhandled (opcodeOf w) w) (decodeStandard w) := by
  rw [mem_primaryOpcodes_iff] at h
  simpa [decodeStandard, or_iff_not_imp_left] using h

/-- The decoder answers "unknown opcode" for the standard words of an opcode that R96 does not list, for no other. -/
theorem decode_unknownOpcode_iff (w v : BitVec 32) (op : BitVec 7) :
    decode w = .error (.unknownOpcode op v) ↔
      w.extractLsb' 0 2 = 0b11#2 ∧ opcodeOf w ∉ Machine.primaryOpcodes ∧ op = opcodeOf w ∧ v = w := by
  by_cases hq : w.extractLsb' 0 2 = 0b11#2
  · rw [decode_standard hq]
    by_cases hop : opcodeOf w ∈ Machine.primaryOpcodes
    · have hne : decodeStandard w ≠ .error (.unknownOpcode op v) := fun h => by
        cases decodeStandard_listedOpcode hop _ h
      simp [hne, hop]
    · simp [decodeStandard_unlistedOpcode hop, hq, hop, eq_comm]
  · have hne : decode w ≠ .error (.unknownOpcode op v) := fun h => by
      cases decodeCompressed_onlyError _ _ (decode_compressed hq ▸ h)
    simp [hne, hq]

namespace Machine

/-! ## The step on a word that is no instruction (R142, R150) -/

/-- A fatal error after the fetch: what the fetch changed is the bus alone. -/
theorem State.raised_fetch (s : State) (f : Fatal) : State.Raised s (s.fetch.2.raise f) f :=
  ⟨rfl, rfl, rfl, rfl, rfl⟩

/-- R142: an error of the decoder ends the step in its fatal error, with memory and devices as the fetch left them. -/
theorem step_decodeError {s s1 : State} {w : BitVec 32} {e : DecodeError} (hh : s.halted = none)
    (hf : s.fetch = (.ok w, s1)) (hd : decode w = .error e) :
    ∃ t, step s = .next t ∧ State.Raised s t (Fatal.ofDecodeError e) ∧ t.bus = s1.bus := by
  have hs1 : s1 = s.fetch.2 := by rw [hf]
  refine ⟨s1.raise (Fatal.ofDecodeError e), by simp [step, hh, hf, hd], ?_, rfl⟩
  rw [hs1]
  exact State.raised_fetch s _

/-- Settles O5: `decode_unknownOpcode_iff` gives the decoder's answer, `step_decodeError` the step's. -/
theorem unknownOpcodeIsFatal : Obligations.UnknownOpcodeIsFatal := by
  unfold Obligations.UnknownOpcodeIsFatal
  refine ⟨fun s s1 w hh hf hq hop => ?_, fun w v op h => (decode_unknownOpcode_iff w v op).mp h⟩
  exact step_decodeError hh hf ((decode_unknownOpcode_iff w w _).mpr ⟨hq, hop, rfl, rfl⟩)

end Machine

end Sys2Proof
end

section
/-! PROOFS. The step whose fetch fails. -/

namespace Sys2Proof.Machine

/-- The fetch is the four-byte read at `pc` (R141): where the read fails, the fetch fails with the same error. -/
theorem State.fetch_error {s s1 : State} {f : Fatal} (hr : s.memRead s.pc 4 = (.error f, s1)) :
    s.fetch = (.error f, s1) := by
  simp only [State.fetch, hr, Except.map]

/-- R141: an error of the fetch ends the step, with memory and devices as the read left them. -/
theorem step_fetchError {s s1 : State} {f : Fatal} (hh : s.halted = none) (hf : s.fetch = (.error f, s1)) :
    ∃ t, step s = .next t ∧ State.Raised s t f ∧ t.bus = s1.bus := by
  have hs1 : s1 = s.fetch.2 := by rw [hf]
  refine ⟨s1.raise f, by simp only [step, hh, hf], ?_, rfl⟩
  rw [hs1]
  exact State.raised_fetch s f

/-- Settles O9: `State.fetch_error` carries the error of the read to the fetch, `step_fetchError` ends the step with it;
at an address of no range the read is the one of `State.memRead_unmapped`. -/
theorem fetchErrorEndsStep : Obligations.FetchErrorEndsStep := by
  unfold Obligations.FetchErrorEndsStep
  refine ⟨fun s s1 f hh hr => ?_, fun s hh hmiss => ?_⟩
  · exact step_fetchError hh (State.fetch_error hr)
  · exact step_fetchError hh (State.fetch_error (State.memRead_unmapped s s.pc 4 hmiss))

end Sys2Proof.Machine
end

section
/-! PROOFS. LUI and AUIPC: what their words decode to and what they write. -/

namespace Sys2Proof

/-! ## The words of LUI and AUIPC (R90, R96, R100) -/

/-- A word whose opcode field ends in `0b11` is a standard one (R90). -/
theorem decode_standard_of_opcode {w : BitVec 32} {op : BitVec 7} (h : opcodeOf w = op)
    (hop : op.extractLsb' 0 2 = 0b11#2) : decode w = decodeStandard w :=
  decode_standard (by rw [lowBits_opcodeOf, h, hop])

theorem decodeStandard_lui {w : BitVec 32} (h : opcodeOf w = opLui) :
    decodeStandard w = .ok (.lui (rdOf w) (immUOf w)) := by
  simp [decodeStandard, h, opLui, opLoad, opFence, opAluImm, opAuipc, opAluImm64, opStore, opAtomic, opAlu]

theorem decodeStandard_auipc {w : BitVec 32} (h : opcodeOf w = opAuipc) :
    decodeStandard w = .ok (.auipc (rdOf w) (immUOf w)) := by
  simp [decodeStandard, h, opAuipc, opLoad, opFence, opAluImm]

theorem decode_packU_lui (rd : Reg) (imm : BitVec 20) : decode (packU imm rd opLui) = .ok (.lui rd imm) := by
  have hop : opcodeOf (packU imm rd opLui) = opLui := opcodeOf_packU imm rd opLui
  rw [decode_standard_of_opcode hop rfl, decodeStandard_lui hop, rdOf_packU, immUOf_packU]

theorem decode_packU_auipc (rd : Reg) (imm : BitVec 20) : decode (packU imm rd opAuipc) = .ok (.auipc rd imm) := by
  have hop : opcodeOf (packU imm rd opAuipc) = opAuipc := opcodeOf_packU imm rd opAuipc
  rw [decode_standard_of_opcode hop rfl, decodeStandard_auipc hop, rdOf_packU, immUOf_packU]

namespace Machine

/-! ## The operands of the U format (R100) -/

/-- The operand of LUI is its 32-bit pattern with zeros above: no bit is copied upward. -/
theorem luiOperand_eq_append (imm : BitVec 20) : luiOperand imm = 0#32 ++ imm ++ 0#12 := by
  apply BitVec.eq_of_getLsbD_eq
  intro i hi
  simp only [luiOperand, zext, BitVec.getLsbD_shiftLeft, BitVec.getLsbD_setWidth, BitVec.getLsbD_append,
    BitVec.getLsbD_zero]
  by_cases hlow : i < 12
  · simp [hlow]
  · by_cases hmid : i - 12 < 20
    · simp [hlow, hmid, hi, show i - 12 < 64 by omega]
    · simp [hlow, hmid]

theorem auipcOperand_eq (imm : BitVec 20) : auipcOperand imm = imm.signExtend 64 <<< 12 := by
  rw [auipcOperand, sext, BitVec.setWidth_eq]

/-! ## The effect (R160, R161) -/

/-- An instruction that ends in a register write has that write as its whole effect, also where `rd` is `x0`. -/
theorem writesResult_of_exec {i : Instr} {s : State} {len : Word} {rd : Reg} {v : Word}
    (h : exec i s = writeResult len rd v s) : WritesResult i s rd v (s.pc + len) :=
  ⟨(s.setX rd v).tail len, h, State.wrote_tail s rd v len, ⟨by simp, by simp, by simp, by simp⟩, by simp⟩

theorem exec_lui (rd : Reg) (imm : BitVec 20) (s : State) :
    exec (.lui rd imm) s = writeResult 4 rd (luiOperand imm) s := rfl

theorem exec_auipc (rd : Reg) (imm : BitVec 20) (s : State) :
    exec (.auipc rd imm) s = writeResult 4 rd (s.pc + auipcOperand imm) s := rfl

/-- Settles O20: each word decodes by its opcode, `writesResult_of_exec` gives the effect, and the operand lemmas put the
value in the form of the rule. -/
theorem upperImmediateResults : Obligations.UpperImmediateResults := by
  unfold Obligations.UpperImmediateResults
  refine fun rd imm => ⟨⟨decode_packU_lui rd imm, fun s => ?_⟩, decode_packU_auipc rd imm, fun s => ?_⟩
  · rw [← luiOperand_eq_append]
    exact writesResult_of_exec (exec_lui rd imm s)
  · rw [← auipcOperand_eq]
    exact writesResult_of_exec (exec_auipc rd imm s)

end Machine

end Sys2Proof
end

section
/-! PROOFS. The six conditional branches: what their words decode to, when they are taken, and what they change. -/

namespace Sys2Proof

/-! ## The words of the branches (R96, R103, R106) -/

/-- The word of R103 in the encoder's terms. The fields hold `k = imm[12:1]`, so bit `i + 1` of the immediate is bit `i`
of `k`. -/
theorem branchWord_eq_packB (rs1 rs2 : Reg) (k : BitVec 12) (f3 : BitVec 3) :
    k.extractLsb' 11 1 ++ k.extractLsb' 4 6 ++ rs2 ++ rs1 ++ f3 ++ k.extractLsb' 0 4 ++ k.extractLsb' 10 1 ++ opBranch =
      packB (k ++ 0#1) rs2 rs1 f3 opBranch := by
  apply BitVec.eq_of_getLsbD_eq
  intro i hi
  simp only [packB, packR, BitVec.getLsbD_append, BitVec.getLsbD_extractLsb']
  interval_cases i <;> simp

theorem lowZero_append_zero {w n : Nat} (v : BitVec w) : lowZero n (v ++ 0#n) = true := by
  rw [lowZero, BitVec.setWidth_append_eq_right, beq_self_eq_true]

theorem decodeStandard_branch {w : BitVec 32} (h : opcodeOf w = opBranch) : decodeStandard w = decodeBranch w := by
  simp [decodeStandard, h, opBranch, opLoad, opFence, opAluImm, opAuipc, opAluImm64, opStore, opAtomic, opAlu, opLui]

section Funct3

variable {w : BitVec 32}

theorem decodeBranch_beq (h : funct3Of w = 0b000#3) :
    decodeBranch w = .ok (.beq (rs1Of w) (rs2Of w) (immBOf w)) := by simp [decodeBranch, h]

theorem decodeBranch_bne (h : funct3Of w = 0b001#3) :
    decodeBranch w = .ok (.bne (rs1Of w) (rs2Of w) (immBOf w)) := by simp [decodeBranch, h]

theorem decodeBranch_blt (h : funct3Of w = 0b100#3) :
    decodeBranch w = .ok (.blt (rs1Of w) (rs2Of w) (immBOf w)) := by simp [decodeBranch, h]

theorem decodeBranch_bge (h : funct3Of w = 0b101#3) :
    decodeBranch w = .ok (.bge (rs1Of w) (rs2Of w) (immBOf w)) := by simp [decodeBranch, h]

theorem decodeBranch_bltu (h : funct3Of w = 0b110#3) :
    decodeBranch w = .ok (.bltu (rs1Of w) (rs2Of w) (immBOf w)) := by simp [decodeBranch, h]

theorem decodeBranch_bgeu (h : funct3Of w = 0b111#3) :
    decodeBranch w = .ok (.bgeu (rs1Of w) (rs2Of w) (immBOf w)) := by simp [decodeBranch, h]

end Funct3

/-- A branch word decodes to the branch `mk` that its funct3 selects (R106), with the operands it was written with. -/
theorem decode_branchWord {mk : Reg → Reg → BitVec 13 → Instr} {f3 : BitVec 3}
    (hmk : ∀ {w : BitVec 32}, funct3Of w = f3 → decodeBranch w = .ok (mk (rs1Of w) (rs2Of w) (immBOf w)))
    (rs1 rs2 : Reg) (k : BitVec 12) :
    decode (k.extractLsb' 11 1 ++ k.extractLsb' 4 6 ++ rs2 ++ rs1 ++ f3 ++ k.extractLsb' 0 4 ++ k.extractLsb' 10 1 ++
      0b1100011#7) = .ok (mk rs1 rs2 (k ++ 0#1)) := by
  have hop : opcodeOf (packB (k ++ 0#1) rs2 rs1 f3 opBranch) = opBranch := opcodeOf_packB _ _ _ _ _
  have himm : immBOf (packB (k ++ 0#1) rs2 rs1 f3 opBranch) = k ++ 0#1 :=
    immBOf_packB _ _ _ _ _ (lowZero_append_zero k)
  calc decode _ = decode (packB (k ++ 0#1) rs2 rs1 f3 opBranch) := congrArg decode (branchWord_eq_packB rs1 rs2 k f3)
    _ = decodeBranch (packB (k ++ 0#1) rs2 rs1 f3 opBranch) := by
      rw [decode_standard_of_opcode hop rfl, decodeStandard_branch hop]
    _ = .ok (mk rs1 rs2 (k ++ 0#1)) := by
      rw [hmk (funct3Of_packB _ _ _ _ _), rs1Of_packB, rs2Of_packB, himm]

namespace Machine

/-! ## The conditions (R176 to R181) -/

theorem condEq_iff {a b : Word} : condEq a b = true ↔ a = b := by simp [condEq]

theorem condNe_iff {a b : Word} : condNe a b = true ↔ a ≠ b := by simp [condNe]

theorem condLt_iff {a b : Word} : condLt a b = true ↔ a.toInt < b.toInt := by simp [condLt, ltSigned]

theorem condGe_iff {a b : Word} : condGe a b = true ↔ b.toInt ≤ a.toInt := by simp [condGe, ltSigned]

theorem condLtu_iff {a b : Word} : condLtu a b = true ↔ a.toNat < b.toNat := by
  simp only [condLtu, ltUnsigned, decide_eq_true_iff]

theorem condGeu_iff {a b : Word} : condGeu a b = true ↔ b.toNat ≤ a.toNat := by
  simp only [condGeu, ltUnsigned, Bool.not_eq_true', decide_eq_false_iff_not, Nat.not_lt]

/-! ## The effect (R175) -/

theorem bOperand_eq (imm : BitVec 13) : bOperand imm = imm.signExtend 64 := by
  rw [bOperand, sext, BitVec.setWidth_eq]

/-- A branch whose condition holds redirects to its target. -/
theorem onlyMoves_of_taken {i : Instr} {s : State} {len : Word} {imm : BitVec 13} (h : exec i s = branch len true imm s) :
    OnlyMoves i s (s.pc + imm.signExtend 64) :=
  ⟨s.redirect (s.pc + bOperand imm), h, State.keptRegs_redirect s _, ⟨by simp [bOperand_eq], rfl, rfl, rfl⟩, rfl⟩

/-- A branch whose condition fails ends in the tail. -/
theorem onlyMoves_of_notTaken {i : Instr} {s : State} {len : Word} {imm : BitVec 13}
    (h : exec i s = branch len false imm s) : OnlyMoves i s (s.pc + len) :=
  ⟨s.tail len, h, State.keptRegs_tail s len, ⟨rfl, rfl, rfl, rfl⟩, rfl⟩

/-- A branch on the Boolean test `c` of the proposition `P`: both outcomes. -/
theorem onlyMoves_of_branch {i : Instr} {s : State} {len : Word} {c : Bool} {imm : BitVec 13} {P : Prop}
    (h : exec i s = branch len c imm s) (hP : c = true ↔ P) :
    (P → OnlyMoves i s (s.pc + imm.signExtend 64)) ∧ (¬ P → OnlyMoves i s (s.pc + len)) := by
  cases c with
  | true => exact ⟨fun _ => onlyMoves_of_taken h, fun hn => absurd (hP.mp rfl) hn⟩
  | false => exact ⟨fun hp => absurd (hP.mpr hp) Bool.false_ne_true, fun _ => onlyMoves_of_notTaken h⟩

/-- Settles O22: for each branch, `decode_branchWord` at its funct3 gives the decoding, and `onlyMoves_of_branch` with the
meaning of its condition gives the effect. -/
theorem branchResults : Obligations.BranchResults := by
  unfold Obligations.BranchResults
  intro rs1 rs2 k
  exact
    ⟨⟨decode_branchWord decodeBranch_beq rs1 rs2 k, fun _ => onlyMoves_of_branch rfl condEq_iff⟩,
      ⟨decode_branchWord decodeBranch_bne rs1 rs2 k, fun _ => onlyMoves_of_branch rfl condNe_iff⟩,
      ⟨decode_branchWord decodeBranch_blt rs1 rs2 k, fun _ => onlyMoves_of_branch rfl condLt_iff⟩,
      ⟨decode_branchWord decodeBranch_bge rs1 rs2 k, fun _ => onlyMoves_of_branch rfl condGe_iff⟩,
      ⟨decode_branchWord decodeBranch_bltu rs1 rs2 k, fun _ => onlyMoves_of_branch rfl condLtu_iff⟩,
      decode_branchWord decodeBranch_bgeu rs1 rs2 k, fun _ => onlyMoves_of_branch rfl condGeu_iff⟩

end Machine

end Sys2Proof
end

section
/-! PROOFS. The signed loads and LD, and the stores: what their words decode to, what they write, and what they leave. -/

namespace Sys2Proof

/-! ## The words of loads and stores (R96, R102, R104, R107) -/

theorem decodeStandard_load {w : BitVec 32} (h : opcodeOf w = opLoad) : decodeStandard w = decodeLoad w := by
  simp [decodeStandard, h]

theorem decodeStandard_store {w : BitVec 32} (h : opcodeOf w = opStore) : decodeStandard w = decodeStore w := by
  simp [decodeStandard, h, opStore, opLoad, opFence, opAluImm, opAuipc, opAluImm64]

section LoadStoreFunct3

variable {w : BitVec 32}

theorem decodeLoad_lb (h : funct3Of w = 0b000#3) : decodeLoad w = .ok (.lb (rdOf w) (rs1Of w) (immIOf w)) := by
  simp [decodeLoad, h]

theorem decodeLoad_lh (h : funct3Of w = 0b001#3) : decodeLoad w = .ok (.lh (rdOf w) (rs1Of w) (immIOf w)) := by
  simp [decodeLoad, h]

theorem decodeLoad_lw (h : funct3Of w = 0b010#3) : decodeLoad w = .ok (.lw (rdOf w) (rs1Of w) (immIOf w)) := by
  simp [decodeLoad, h]

theorem decodeLoad_ld (h : funct3Of w = 0b011#3) : decodeLoad w = .ok (.ld (rdOf w) (rs1Of w) (immIOf w)) := by
  simp [decodeLoad, h]

theorem decodeStore_sb (h : funct3Of w = 0b000#3) : decodeStore w = .ok (.sb (rs1Of w) (rs2Of w) (immSOf w)) := by
  simp [decodeStore, h]

theorem decodeStore_sh (h : funct3Of w = 0b001#3) : decodeStore w = .ok (.sh (rs1Of w) (rs2Of w) (immSOf w)) := by
  simp [decodeStore, h]

theorem decodeStore_sw (h : funct3Of w = 0b010#3) : decodeStore w = .ok (.sw (rs1Of w) (rs2Of w) (immSOf w)) := by
  simp [decodeStore, h]

theorem decodeStore_sd (h : funct3Of w = 0b011#3) : decodeStore w = .ok (.sd (rs1Of w) (rs2Of w) (immSOf w)) := by
  simp [decodeStore, h]

end LoadStoreFunct3

/-- A load word decodes to the load `mk` that its funct3 selects (R107), with the operands it was written with. -/
theorem decode_loadWord {mk : Reg → Reg → BitVec 12 → Instr} {f3 : BitVec 3}
    (hmk : ∀ {w : BitVec 32}, funct3Of w = f3 → decodeLoad w = .ok (mk (rdOf w) (rs1Of w) (immIOf w)))
    (rd rs1 : Reg) (imm : BitVec 12) :
    decode (imm ++ rs1 ++ f3 ++ rd ++ 0b0000011#7) = .ok (mk rd rs1 imm) := by
  have hop : opcodeOf (packI imm rs1 f3 rd opLoad) = opLoad := opcodeOf_packI _ _ _ _ _
  calc decode (packI imm rs1 f3 rd opLoad) = decodeLoad (packI imm rs1 f3 rd opLoad) := by
        rw [decode_standard_of_opcode hop rfl, decodeStandard_load hop]
    _ = .ok (mk rd rs1 imm) := by rw [hmk (funct3Of_packI _ _ _ _ _), rdOf_packI, rs1Of_packI, immIOf_packI]

/-- A store word decodes to the store `mk` that its funct3 selects (R107), with the immediate put together from its two
fields (R104). -/
theorem decode_storeWord {mk : Reg → Reg → BitVec 12 → Instr} {f3 : BitVec 3}
    (hmk : ∀ {w : BitVec 32}, funct3Of w = f3 → decodeStore w = .ok (mk (rs1Of w) (rs2Of w) (immSOf w)))
    (rs1 rs2 : Reg) (imm : BitVec 12) :
    decode (imm.extractLsb' 5 7 ++ rs2 ++ rs1 ++ f3 ++ imm.extractLsb' 0 5 ++ 0b0100011#7) = .ok (mk rs1 rs2 imm) := by
  have hop : opcodeOf (packS imm rs2 rs1 f3 opStore) = opStore := opcodeOf_packS _ _ _ _ _
  calc decode (packS imm rs2 rs1 f3 opStore) = decodeStore (packS imm rs2 rs1 f3 opStore) := by
        rw [decode_standard_of_opcode hop rfl, decodeStandard_store hop]
    _ = .ok (mk rs1 rs2 imm) := by rw [hmk (funct3Of_packS _ _ _ _ _), rs1Of_packS, rs2Of_packS, immSOf_packS]

namespace Machine

/-! ## The address and the view (R190, R191) -/

theorem State.ea_eq (s : State) (rs1 : Reg) (imm : BitVec 12) : s.ea rs1 imm = s.getX rs1 + imm.signExtend 64 := by
  rw [State.ea, iOperand, sext, BitVec.setWidth_eq]

/-- A doubleword is taken as it is read (R195). -/
theorem zext_doubleword : zext (w := 64) 64 = fun v => v := by
  funext v
  rw [zext, BitVec.setWidth_eq, BitVec.setWidth_eq]

/-! ## Memory facts speak of the buses alone -/

theorem State.KeptMemory.of_bus {s s1 t : State} (h : State.KeptMemory s s1) (hb : t.bus = s1.bus) :
    State.KeptMemory s t where
  bytes a := by rw [State.peek, hb]; exact h.bytes a
  shape := by rw [hb]; exact h.shape
  rom := by rw [hb]; exact h.rom

theorem State.KeptOutside.of_bus {s s1 t : State} {a : Word} {n : Nat} (h : State.KeptOutside s s1 a n)
    (hb : t.bus = s1.bus) : State.KeptOutside s t a n where
  bytes b hout := by rw [State.peek, hb]; exact h.bytes b hout
  shape := by rw [hb]; exact h.shape
  rom := by rw [hb]; exact h.rom
  touched := h.touched.of_bus hb

theorem State.holdsBytes.of_bus {s t : State} {a : Word} {bs : List Byte} (h : s.holdsBytes a bs) (hb : t.bus = s.bus) :
    t.holdsBytes a bs := by
  simpa only [State.holdsBytes, State.accessByte, hb] using h

/-! ## The effect of a load (R192 to R195) -/

/-- A load whose read answers writes the viewed value, keeps memory, and touches the device it reads only. -/
theorem load_completes {s : State} {a : Word} {n : Nat} {v : Word} (hr : (s.memRead a n).1 = .ok v) (len : Word)
    (view : Word → Word) (rd : Reg) :
    ∃ t, load len n view rd a s = .next t ∧ State.Wrote s t rd (view v) ∧ State.Reached s t (s.pc + len) ∧
      t.bus = (s.memRead a n).2.bus ∧ State.KeptMemory s t ∧ State.TouchedOnly s t a := by
  have hbus : (((s.memRead a n).2.setX rd (view v)).tail len).bus = (s.memRead a n).2.bus := by
    rw [State.tail_bus, State.setX_bus]
  exact ⟨_, load_ok (Prod.ext hr rfl), (State.wrote_tail _ rd _ len).of_regs rfl,
    ⟨by simp, by simp, by simp, by simp⟩, hbus, (State.memRead_memory s a n).of_bus hbus,
    (State.memRead_touched s a n).of_bus hbus⟩

/-- An instruction that ends in a load has the effect of a load: for any region that answers, and for the bytes that a
buffer holds, whose read changes no device. -/
theorem loads_of_exec {i : Instr} {s : State} {len : Word} {n : Nat} {view : Word → Word} {rd : Reg} {a : Word}
    (hn : 0 < n) (h : exec i s = load len n view rd a s) : Loads i s n view rd a (s.pc + len) := by
  refine ⟨fun v s1 hr => ?_, fun bs hlen hb => ?_⟩
  · obtain rfl : s1 = (s.memRead a n).2 := by rw [hr]
    rw [h]
    exact load_completes (congrArg Prod.fst hr) len view rd
  · subst hlen
    have hr := State.memRead_holds s a bs hb (List.length_pos_iff.mp hn)
    exact writesResult_of_exec (h.trans ((load_ok hr).trans (writeResult_eq len rd _ s).symm))

/-- The loads of the I format: the address is `rs1` plus the signed displacement. -/
theorem loads_of_exec_ea {i : Instr} {s : State} {n : Nat} {view : Word → Word} {rd rs1 : Reg} {imm : BitVec 12}
    (hn : 0 < n) (h : exec i s = load 4 n view rd (s.ea rs1 imm) s) :
    Loads i s n view rd (s.getX rs1 + imm.signExtend 64) (s.pc + 4) := by
  rw [← State.ea_eq]
  exact loads_of_exec hn h

section ExecLoad

variable (rd rs1 : Reg) (imm : BitVec 12) (s : State)

theorem exec_lb : exec (.lb rd rs1 imm) s = load 4 1 (sext 8) rd (s.ea rs1 imm) s := rfl

theorem exec_lh : exec (.lh rd rs1 imm) s = load 4 2 (sext 16) rd (s.ea rs1 imm) s := rfl

theorem exec_lw : exec (.lw rd rs1 imm) s = load 4 4 (sext 32) rd (s.ea rs1 imm) s := rfl

theorem exec_ld : exec (.ld rd rs1 imm) s = load 4 8 (fun v => v) rd (s.ea rs1 imm) s := by
  rw [← zext_doubleword]
  rfl

end ExecLoad

/-- Settles O23: for each load, `decode_loadWord` at its funct3 gives the decoding, and `loads_of_exec_ea` the effect; the
view of LB, LH and LW is `sext` written out. -/
theorem signedLoadResults : Obligations.SignedLoadResults := by
  unfold Obligations.SignedLoadResults
  intro rd rs1 imm
  exact
    ⟨⟨decode_loadWord decodeLoad_lb rd rs1 imm, fun s => loads_of_exec_ea (by decide) (exec_lb rd rs1 imm s)⟩,
      ⟨decode_loadWord decodeLoad_lh rd rs1 imm, fun s => loads_of_exec_ea (by decide) (exec_lh rd rs1 imm s)⟩,
      ⟨decode_loadWord decodeLoad_lw rd rs1 imm, fun s => loads_of_exec_ea (by decide) (exec_lw rd rs1 imm s)⟩,
      decode_loadWord decodeLoad_ld rd rs1 imm, fun s => loads_of_exec_ea (by decide) (exec_ld rd rs1 imm s)⟩

/-! ## The effect of a store (R199 to R202) -/

/-- A store whose write is taken changes no register and no byte outside the written ones, and touches the device it
writes only. -/
theorem store_completes {s : State} {a v : Word} {n : Nat} (hw : (s.memWrite a n v).1 = .ok ()) (len : Word) :
    ∃ t, store len n a v s = .next t ∧ State.KeptRegs s t ∧ State.Reached s t (s.pc + len) ∧
      t.bus = (s.memWrite a n v).2.bus ∧ State.KeptOutside s t a n :=
  ⟨(s.memWrite a n v).2.tail len, store_ok (Prod.ext hw rfl), (State.keptRegs_tail _ len).of_regs rfl,
    ⟨rfl, rfl, rfl, rfl⟩, rfl, (State.memWrite_memory s a v n).of_bus rfl⟩

/-- An instruction that ends in a store has the effect of a store: for any region that takes the write, and inside RAM,
which always takes it and then holds the bytes. -/
theorem stores_of_exec {i : Instr} {s : State} {len : Word} {n : Nat} {a v : Word} (h : exec i s = store len n a v s) :
    Stores i s n a v none (s.pc + len) := by
  refine ⟨fun s1 hw => ?_, fun hram => ?_⟩
  · obtain rfl : s1 = (s.memWrite a n v).2 := by rw [hw]
    rw [h]
    exact store_completes (congrArg Prod.fst hw) len
  · obtain ⟨hok, hholds, -⟩ := State.memWrite_inRam s a v n hram
    obtain ⟨t, ht, hregs, hreached, hbus, hout⟩ := store_completes hok len
    exact ⟨t, h.trans ht, hregs, hreached, hout, fun hwf => (hholds hwf).of_bus hbus⟩

/-- The stores of the S format: the address is `rs1` plus the signed displacement, the value is that of `rs2`. -/
theorem stores_of_exec_ea {i : Instr} {s : State} {n : Nat} {rs1 rs2 : Reg} {imm : BitVec 12}
    (h : exec i s = store 4 n (s.ea rs1 imm) (s.getX rs2) s) :
    Stores i s n (s.getX rs1 + imm.signExtend 64) (s.getX rs2) none (s.pc + 4) := by
  rw [← State.ea_eq]
  exact stores_of_exec h

section ExecStore

variable (rs1 rs2 : Reg) (imm : BitVec 12) (s : State)

theorem exec_sb : exec (.sb rs1 rs2 imm) s = store 4 1 (s.ea rs1 imm) (s.getX rs2) s := rfl

theorem exec_sh : exec (.sh rs1 rs2 imm) s = store 4 2 (s.ea rs1 imm) (s.getX rs2) s := rfl

theorem exec_sw : exec (.sw rs1 rs2 imm) s = store 4 4 (s.ea rs1 imm) (s.getX rs2) s := rfl

theorem exec_sd : exec (.sd rs1 rs2 imm) s = store 4 8 (s.ea rs1 imm) (s.getX rs2) s := rfl

end ExecStore

/-- Settles O25: for each store, `decode_storeWord` at its funct3 gives the decoding, and `stores_of_exec_ea` the effect
and the frame. -/
theorem storeResults : Obligations.StoreResults := by
  unfold Obligations.StoreResults
  intro rs1 rs2 imm
  exact
    ⟨⟨decode_storeWord decodeStore_sb rs1 rs2 imm, fun s => stores_of_exec_ea (exec_sb rs1 rs2 imm s)⟩,
      ⟨decode_storeWord decodeStore_sh rs1 rs2 imm, fun s => stores_of_exec_ea (exec_sh rs1 rs2 imm s)⟩,
      ⟨decode_storeWord decodeStore_sw rs1 rs2 imm, fun s => stores_of_exec_ea (exec_sw rs1 rs2 imm s)⟩,
      decode_storeWord decodeStore_sd rs1 rs2 imm, fun s => stores_of_exec_ea (exec_sd rs1 rs2 imm s)⟩

end Machine

end Sys2Proof
end

section
/-! PROOFS. SLLI, SRLI and SRAI: what their words decode to and what they write. -/

namespace Sys2Proof

/-! ## The words of the immediate shifts (R96, R108, R232) -/

theorem decodeStandard_aluImm {w : BitVec 32} (h : opcodeOf w = opAluImm) : decodeStandard w = decodeAluImm w := by
  simp [decodeStandard, h, opAluImm, opLoad, opFence]

section ShiftImmFields

variable {w : BitVec 32}

theorem decodeAluImm_slli (h3 : funct3Of w = 0b001#3) (h7 : funct7Of w = 0b0000000#7) :
    decodeAluImm w = .ok (.slli (rdOf w) (rs1Of w) (shamtOf w)) := by simp [decodeAluImm, h3, h7]

theorem decodeAluImm_srli (h3 : funct3Of w = 0b101#3) (h7 : funct7Of w = 0b0000000#7) :
    decodeAluImm w = .ok (.srli (rdOf w) (rs1Of w) (shamtOf w)) := by simp [decodeAluImm, h3, h7]

theorem decodeAluImm_srai (h3 : funct3Of w = 0b101#3) (h7 : funct7Of w = 0b0100000#7) :
    decodeAluImm w = .ok (.srai (rdOf w) (rs1Of w) (shamtOf w)) := by simp [decodeAluImm, h3, h7]

end ShiftImmFields

/-- A shift word decodes to the shift `mk` that its funct3 and funct7 select (R108, R232), with the operands it was
written with. -/
theorem decode_shiftImmWord {mk : Reg → Reg → BitVec 5 → Instr} {f3 : BitVec 3} {f7 : BitVec 7}
    (hmk : ∀ {w : BitVec 32}, funct3Of w = f3 → funct7Of w = f7 →
      decodeAluImm w = .ok (mk (rdOf w) (rs1Of w) (shamtOf w)))
    (rd rs1 : Reg) (shamt : BitVec 5) :
    decode (f7 ++ shamt ++ rs1 ++ f3 ++ rd ++ 0b0010011#7) = .ok (mk rd rs1 shamt) := by
  have hop : opcodeOf (packR f7 shamt rs1 f3 rd opAluImm) = opAluImm := opcodeOf_packR _ _ _ _ _ _
  calc decode (packR f7 shamt rs1 f3 rd opAluImm) = decodeAluImm (packR f7 shamt rs1 f3 rd opAluImm) := by
        rw [decode_standard_of_opcode hop rfl, decodeStandard_aluImm hop]
    _ = .ok (mk rd rs1 shamt) := by
      rw [hmk (funct3Of_packR _ _ _ _ _ _) (funct7Of_packR _ _ _ _ _ _), rdOf_packR, rs1Of_packR, shamtOf_packR]

namespace Machine

/-! ## The shifts as arithmetic on the 64-bit value (R230, R231, R233) -/

/-- A left shift multiplies by a power of two and drops what leaves the word. -/
theorem shiftLeft_eq_ofNat_mul (a : Word) (n : Nat) : a <<< n = BitVec.ofNat 64 (a.toNat * 2 ^ n) := by
  apply BitVec.eq_of_toNat_eq
  rw [BitVec.toNat_shiftLeft, Nat.shiftLeft_eq, BitVec.toNat_ofNat]

/-- A logical right shift divides the unsigned value. -/
theorem ushiftRight_eq_ofNat_div (a : Word) (n : Nat) : a >>> n = BitVec.ofNat 64 (a.toNat / 2 ^ n) := by
  apply BitVec.eq_of_toNat_eq
  have hlt : a.toNat / 2 ^ n < 2 ^ 64 := (Nat.div_le_self _ _).trans_lt a.isLt
  rw [BitVec.toNat_ushiftRight, Nat.shiftRight_eq_div_pow, BitVec.toNat_ofNat, Nat.mod_eq_of_lt hlt]

/-- An arithmetic right shift divides the signed value, rounding down. -/
theorem sshiftRight_eq_ofInt_div (a : Word) (n : Nat) : a.sshiftRight n = BitVec.ofInt 64 (a.toInt / 2 ^ n) := by
  rw [BitVec.sshiftRight_eq, Int.shiftRight_eq_div_pow, Nat.cast_pow, Nat.cast_ofNat]

/-! ## The effect -/

section ExecShiftImm

variable (rd rs1 : Reg) (shamt : BitVec 5) (s : State)

theorem exec_slli :
    exec (.slli rd rs1 shamt) s = writeResult 4 rd (BitVec.ofNat 64 ((s.getX rs1).toNat * 2 ^ shamt.toNat)) s := by
  rw [← shiftLeft_eq_ofNat_mul]
  rfl

theorem exec_srli :
    exec (.srli rd rs1 shamt) s = writeResult 4 rd (BitVec.ofNat 64 ((s.getX rs1).toNat / 2 ^ shamt.toNat)) s := by
  rw [← ushiftRight_eq_ofNat_div]
  rfl

theorem exec_srai :
    exec (.srai rd rs1 shamt) s = writeResult 4 rd (BitVec.ofInt 64 ((s.getX rs1).toInt / 2 ^ shamt.toNat)) s := by
  rw [← sshiftRight_eq_ofInt_div]
  rfl

end ExecShiftImm

/-- Settles O31: for each shift, `decode_shiftImmWord` at its funct3 and funct7 gives the decoding, and
`writesResult_of_exec` the effect, whose value the `exec` lemma has in the form of the rule. -/
theorem shiftImmediateResults : Obligations.ShiftImmediateResults := by
  unfold Obligations.ShiftImmediateResults
  intro rd rs1 shamt
  exact
    ⟨⟨decode_shiftImmWord decodeAluImm_slli rd rs1 shamt, fun s => writesResult_of_exec (exec_slli rd rs1 shamt s)⟩,
      ⟨decode_shiftImmWord decodeAluImm_srli rd rs1 shamt, fun s => writesResult_of_exec (exec_srli rd rs1 shamt s)⟩,
      decode_shiftImmWord decodeAluImm_srai rd rs1 shamt, fun s => writesResult_of_exec (exec_srai rd rs1 shamt s)⟩

end Machine

end Sys2Proof
end

section
/-! PROOFS. ADD, SUB, SLT, SLTU, XOR, OR and AND: what their words decode to and what they write. -/

namespace Sys2Proof

/-! ## The words of opcode ALU (R96, R110) -/

theorem decodeStandard_alu {w : BitVec 32} (h : opcodeOf w = opAlu) : decodeStandard w = decodeAlu w := by
  simp [decodeStandard, h, opAlu, opLoad, opFence, opAluImm, opAuipc, opAluImm64, opStore, opAtomic]

section AluFields

variable {w : BitVec 32}

theorem decodeAlu_base (h7 : funct7Of w = 0b0000000#7) : decodeAlu w = decodeAluBase w := if_pos h7

theorem decodeAlu_add (h3 : funct3Of w = 0b000#3) (h7 : funct7Of w = 0b0000000#7) :
    decodeAlu w = .ok (.add (rdOf w) (rs1Of w) (rs2Of w)) := by simp [decodeAlu_base h7, decodeAluBase, h3]

theorem decodeAlu_sub (h3 : funct3Of w = 0b000#3) (h7 : funct7Of w = 0b0100000#7) :
    decodeAlu w = .ok (.sub (rdOf w) (rs1Of w) (rs2Of w)) := by simp [decodeAlu, h3, h7]

theorem decodeAlu_slt (h3 : funct3Of w = 0b010#3) (h7 : funct7Of w = 0b0000000#7) :
    decodeAlu w = .ok (.slt (rdOf w) (rs1Of w) (rs2Of w)) := by simp [decodeAlu_base h7, decodeAluBase, h3]

theorem decodeAlu_sltu (h3 : funct3Of w = 0b011#3) (h7 : funct7Of w = 0b0000000#7) :
    decodeAlu w = .ok (.sltu (rdOf w) (rs1Of w) (rs2Of w)) := by simp [decodeAlu_base h7, decodeAluBase, h3]

theorem decodeAlu_xor (h3 : funct3Of w = 0b100#3) (h7 : funct7Of w = 0b0000000#7) :
    decodeAlu w = .ok (.xor (rdOf w) (rs1Of w) (rs2Of w)) := by simp [decodeAlu_base h7, decodeAluBase, h3]

theorem decodeAlu_or (h3 : funct3Of w = 0b110#3) (h7 : funct7Of w = 0b0000000#7) :
    decodeAlu w = .ok (.or (rdOf w) (rs1Of w) (rs2Of w)) := by simp [decodeAlu_base h7, decodeAluBase, h3]

theorem decodeAlu_and (h3 : funct3Of w = 0b111#3) (h7 : funct7Of w = 0b0000000#7) :
    decodeAlu w = .ok (.and (rdOf w) (rs1Of w) (rs2Of w)) := by simp [decodeAlu_base h7, decodeAluBase, h3]

end AluFields

/-- A word of opcode ALU decodes to the register form `mk` that its funct3 and funct7 select (R110, R111), with the
operands it was written with. -/
theorem decode_aluWord {mk : Reg → Reg → Reg → Instr} {f3 : BitVec 3} {f7 : BitVec 7}
    (hmk : ∀ {w : BitVec 32}, funct3Of w = f3 → funct7Of w = f7 →
      decodeAlu w = .ok (mk (rdOf w) (rs1Of w) (rs2Of w)))
    (rd rs1 rs2 : Reg) : decode (f7 ++ rs2 ++ rs1 ++ f3 ++ rd ++ 0b0110011#7) = .ok (mk rd rs1 rs2) := by
  have hop : opcodeOf (packR f7 rs2 rs1 f3 rd opAlu) = opAlu := opcodeOf_packR _ _ _ _ _ _
  calc decode (packR f7 rs2 rs1 f3 rd opAlu) = decodeAlu (packR f7 rs2 rs1 f3 rd opAlu) := by
        rw [decode_standard_of_opcode hop rfl, decodeStandard_alu hop]
    _ = .ok (mk rd rs1 rs2) := by
      rw [hmk (funct3Of_packR _ _ _ _ _ _) (funct7Of_packR _ _ _ _ _ _), rdOf_packR, rs1Of_packR, rs2Of_packR]

namespace Machine

/-! ## The effect -/

theorem boolWord_decide (P : Prop) [Decidable P] : boolWord (decide P) = if P then 1 else 0 := by
  simp only [boolWord, decide_eq_true_iff]

section ExecAlu

variable (rd rs1 rs2 : Reg) (s : State)

theorem exec_add : exec (.add rd rs1 rs2) s = writeResult 4 rd (s.getX rs1 + s.getX rs2) s := rfl

theorem exec_sub : exec (.sub rd rs1 rs2) s = writeResult 4 rd (s.getX rs1 - s.getX rs2) s := rfl

theorem exec_slt :
    exec (.slt rd rs1 rs2) s = writeResult 4 rd (if (s.getX rs1).toInt < (s.getX rs2).toInt then 1 else 0) s := by
  rw [← boolWord_decide]
  rfl

theorem exec_sltu :
    exec (.sltu rd rs1 rs2) s = writeResult 4 rd (if (s.getX rs1).toNat < (s.getX rs2).toNat then 1 else 0) s := by
  rw [← boolWord_decide]
  rfl

theorem exec_xor : exec (.xor rd rs1 rs2) s = writeResult 4 rd (s.getX rs1 ^^^ s.getX rs2) s := rfl

theorem exec_or : exec (.or rd rs1 rs2) s = writeResult 4 rd (s.getX rs1 ||| s.getX rs2) s := rfl

theorem exec_and : exec (.and rd rs1 rs2) s = writeResult 4 rd (s.getX rs1 &&& s.getX rs2) s := rfl

end ExecAlu

/-- Settles O33: for each register form, `decode_aluWord` at its funct3 and funct7 gives the decoding, and
`writesResult_of_exec` the effect, whose value the `exec` lemma has in the form of the rule. -/
theorem aluRegisterResults : Obligations.AluRegisterResults := by
  unfold Obligations.AluRegisterResults
  intro rd rs1 rs2
  exact
    ⟨⟨decode_aluWord decodeAlu_add rd rs1 rs2, fun s => writesResult_of_exec (exec_add rd rs1 rs2 s)⟩,
      ⟨decode_aluWord decodeAlu_sub rd rs1 rs2, fun s => writesResult_of_exec (exec_sub rd rs1 rs2 s)⟩,
      ⟨decode_aluWord decodeAlu_slt rd rs1 rs2, fun s => writesResult_of_exec (exec_slt rd rs1 rs2 s)⟩,
      ⟨decode_aluWord decodeAlu_sltu rd rs1 rs2, fun s => writesResult_of_exec (exec_sltu rd rs1 rs2 s)⟩,
      ⟨decode_aluWord decodeAlu_xor rd rs1 rs2, fun s => writesResult_of_exec (exec_xor rd rs1 rs2 s)⟩,
      ⟨decode_aluWord decodeAlu_or rd rs1 rs2, fun s => writesResult_of_exec (exec_or rd rs1 rs2 s)⟩,
      decode_aluWord decodeAlu_and rd rs1 rs2, fun s => writesResult_of_exec (exec_and rd rs1 rs2 s)⟩

end Machine

end Sys2Proof
end

section
/-! PROOFS. Writes routed to a ROM: the error of the access, and of each instruction that stores. -/

namespace Sys2Proof.Machine

/-! ## Accesses that store, at an address of a ROM (R191, R294 to R298, R397) -/

section RomAccess

variable {s : State} {a : Word}

theorem store_inRom (h : s.inRom a) (len : Word) (n : Nat) (v : Word) :
    store len (n + 1) a v s = .next (s.raise (.romWrite a)) :=
  store_error (State.memWrite_inRom s a v n h)

theorem storeConditional_inRom (h : s.inRom a) (n : Nat) (rd : Reg) (v : Word) :
    storeConditional (n + 1) rd a v s = .next (s.raise (.romWrite a)) :=
  storeConditional_error (State.memWrite_inRom s a v n h)

/-- The read before the write must succeed: where it fails, its own error is the one that is raised. -/
theorem swap_inRom (h : s.inRom a) {n : Nat} {bs : List Byte} (hlen : bs.length = n + 1) (hb : s.holdsBytes a bs)
    (view : Word → Word) (rd : Reg) (v : Word) : swap (n + 1) view rd a v s = .next (s.raise (.romWrite a)) := by
  have hread := State.memRead_holds s a bs hb (List.ne_nil_of_length_eq_add_one hlen)
  rw [hlen] at hread
  exact swap_writeError hread (State.memWrite_inRom s a v n h)

end RomAccess

/-! ## The instructions that store -/

theorem stopsWith_of_exec {i : Instr} {s : State} {f : Fatal} (h : exec i s = .next (s.raise f)) : StopsWith i s f s :=
  ⟨s.raise f, h, State.raised_raise s f, rfl⟩

/-- The stores of the S format, whose address is `rs1` plus the signed displacement. -/
theorem stopsWith_of_exec_store_inRom {i : Instr} {s : State} {n : Nat} {rs1 rs2 : Reg} {imm : BitVec 12}
    (h : exec i s = store 4 (n + 1) (s.ea rs1 imm) (s.getX rs2) s) (hrom : s.inRom (s.getX rs1 + imm.signExtend 64)) :
    StopsWith i s (.romWrite (s.getX rs1 + imm.signExtend 64)) s := by
  rw [← State.ea_eq] at hrom ⊢
  exact stopsWith_of_exec (h.trans (store_inRom hrom 4 n _))

/-- The unsigned displacement of c.lw and c.sw has bit 11 clear, so the sign extension of the expansion adds none (R345,
R346). -/
theorem State.ea_full (s : State) (r : Reg3) (uimm : BitVec 7) :
    s.ea r.full (uimm.setWidth 12) = s.getX (8 + r.setWidth 5) + uimm.setWidth 64 := by
  have hmsb : (uimm.setWidth 12).msb = false := by simp [BitVec.msb_eq_getLsbD_last]
  have hext : (uimm.setWidth 12).signExtend 64 = uimm.setWidth 64 := by
    rw [BitVec.signExtend_eq_setWidth_of_msb_false hmsb, BitVec.setWidth_setWidth (by decide)]
  rw [State.ea_eq, hext, Reg3.full]

theorem exec_cSw (r1 r : Reg3) (uimm : BitVec 7) (s : State) :
    exec (.cSw r1 r uimm) s = store 2 4 (s.ea r1.full (uimm.setWidth 12)) (s.getX r.full) s := rfl

section ExecAtomicStore

variable (rd rs1 rs2 : Reg) (aq rl : BitVec 1) (s : State)

theorem exec_scW : exec (.scW rd rs1 rs2 aq rl) s = storeConditional 4 rd (s.getX rs1) (s.getX rs2) s := rfl

theorem exec_scD : exec (.scD rd rs1 rs2 aq rl) s = storeConditional 8 rd (s.getX rs1) (s.getX rs2) s := rfl

theorem exec_amoswapW : exec (.amoswapW rd rs1 rs2 aq rl) s = swap 4 (sext 32) rd (s.getX rs1) (s.getX rs2) s := rfl

theorem exec_amoswapD : exec (.amoswapD rd rs1 rs2 aq rl) s = swap 8 (zext 64) rd (s.getX rs1) (s.getX rs2) s := rfl

end ExecAtomicStore

/-- Settles O50: `State.memWrite_inRom` is the rule for the access; each instruction ends in one of the three accesses that
store, whose lemma gives its fatal error. -/
theorem romWriteIsFatal : Obligations.RomWriteIsFatal := by
  unfold Obligations.RomWriteIsFatal
  refine ⟨fun s a v n hn hrom => ?_, fun s rs1 rs2 imm hrom => ?_, fun s r1 r uimm hrom => ?_,
    fun s rd rs1 rs2 aq rl hrom => ⟨?_, fun bs hlen hb => ?_, fun bs hlen hb => ?_⟩⟩
  · obtain ⟨k, rfl⟩ := Nat.exists_eq_add_one.mpr hn
    exact State.memWrite_inRom s a v k hrom
  · simp only [List.forall_mem_cons, List.not_mem_nil, false_implies, implies_true, and_true]
    exact ⟨stopsWith_of_exec_store_inRom (exec_sb rs1 rs2 imm s) hrom,
      stopsWith_of_exec_store_inRom (exec_sh rs1 rs2 imm s) hrom,
      stopsWith_of_exec_store_inRom (exec_sw rs1 rs2 imm s) hrom,
      stopsWith_of_exec_store_inRom (exec_sd rs1 rs2 imm s) hrom⟩
  · rw [← State.ea_full] at hrom ⊢
    exact stopsWith_of_exec ((exec_cSw r1 r uimm s).trans (store_inRom hrom 2 3 _))
  · simp only [List.forall_mem_cons, List.not_mem_nil, false_implies, implies_true, and_true]
    exact ⟨stopsWith_of_exec ((exec_scW rd rs1 rs2 aq rl s).trans (storeConditional_inRom hrom 3 rd _)),
      stopsWith_of_exec ((exec_scD rd rs1 rs2 aq rl s).trans (storeConditional_inRom hrom 7 rd _))⟩
  · exact stopsWith_of_exec ((exec_amoswapW rd rs1 rs2 aq rl s).trans (swap_inRom hrom hlen hb _ rd _))
  · exact stopsWith_of_exec ((exec_amoswapD rd rs1 rs2 aq rl s).trans (swap_inRom hrom hlen hb _ rd _))

end Sys2Proof.Machine
end

section
/-! PROOFS. Accesses that touch a UART offset that is no register: the bytes before it, then the error. -/

namespace Sys2Proof.Machine

/-! ## One byte of a UART (R417, R419) -/

theorem Uart.readByte_register (u : Uart) {o : Nat} (h : o < 6) : ∃ b, (u.readByte o).1 = .ok b := by
  interval_cases o <;> exact ⟨_, rfl⟩

theorem Uart.readByte_pastFive (u : Uart) {o : Nat} (h : 6 ≤ o) : u.readByte o = (.error (.uartReg o), u) := by
  obtain ⟨k, rfl⟩ := Nat.exists_eq_add_of_le' h
  rfl

theorem Uart.writeByte_register (u : Uart) {o : Nat} (b : Byte) (h : o < 6) : (u.writeByte o b).1 = .ok () := by
  interval_cases o <;> rfl

theorem Uart.writeByte_pastFive (u : Uart) {o : Nat} (b : Byte) (h : 6 ≤ o) :
    u.writeByte o b = (.error (.uartReg o), u) := by
  obtain ⟨k, rfl⟩ := Nat.exists_eq_add_of_le' h
  rfl

/-! ## The bytes of an access at a UART (R56, R57) -/

/-- A read whose first `k` bytes answer and whose rest fails is fatal with the error of the rest, and leaves what the rest
leaves. -/
theorem Region.readBytes_add_error {acc : Word} {top k j o : Nat} {r r1 r2 : Region} {bs : List Byte} {f : Fatal}
    (hfront : r.readBytes acc top k o = (.ok bs, r1)) (hrest : r1.readBytes acc top j (o + k) = (.error f, r2)) :
    r.readBytes acc top (k + j) o = (.error f, r2) := by
  induction k generalizing o r bs with
  | zero =>
    cases hfront
    rwa [Nat.zero_add]
  | succ k ih =>
    rw [Nat.add_right_comm]
    unfold Region.readBytes at hfront ⊢
    split at hfront
    · cases hfront
    · next hlt =>
      rw [if_neg hlt]
      rcases hb : r.readByte acc o with ⟨_ | b, r'⟩ <;> rw [hb] at hfront
      · cases hfront
      · rcases hbs : r'.readBytes acc top k (o + 1) with ⟨_ | bs', r''⟩ <;> simp only [hbs] at hfront
        · cases hfront
        · cases hfront
          simp only [ih hbs (by rwa [Nat.add_assoc, Nat.add_comm 1 k])]

variable {acc : Word} {top o : Nat}

/-- A read of registers alone answers, and leaves a UART. -/
theorem Region.readBytes_registers {k : Nat} (u : Uart) (h6 : k ≤ 6 - o) (htop : o + k ≤ top) :
    ∃ bs u', Region.readBytes acc top k o (.uart u) = (.ok bs, .uart u') := by
  induction k generalizing o u with
  | zero => exact ⟨[], u, rfl⟩
  | succ k ih =>
    obtain ⟨b, hb⟩ := u.readByte_register (show o < 6 by omega)
    obtain ⟨bs, u', hbs⟩ := ih (o := o + 1) (u.readByte o).2 (by omega) (by omega)
    exact ⟨b :: bs, u', by
      simp only [Region.readBytes, if_neg (show ¬ top ≤ o by omega), Region.readByte, hb, hbs]⟩

/-- A write of registers alone is taken, and leaves a UART. -/
theorem Region.writeBytes_registers {bytes : List Byte} (u : Uart) (h6 : bytes.length ≤ 6 - o)
    (htop : o + bytes.length ≤ top) :
    ∃ u', Region.writeBytes acc top o bytes (.uart u) = (.ok (), .uart u') := by
  induction bytes generalizing o u with
  | nil => exact ⟨u, rfl⟩
  | cons b bs ih =>
    rw [List.length_cons] at h6 htop
    obtain ⟨u', hbs⟩ := ih (o := o + 1) (u.writeByte o b).2 (by omega) (by omega)
    exact ⟨u', by
      simp only [Region.writeBytes, if_neg (show ¬ top ≤ o by omega), Region.writeByte,
        u.writeByte_register b (show o < 6 by omega), hbs]⟩

theorem Region.readBytes_pastFive (u : Uart) (j : Nat) (h6 : 6 ≤ o) (htop : o < top) :
    Region.readBytes acc top (j + 1) o (.uart u) = (.error (.uartReg o), .uart u) := by
  simp only [Region.readBytes, if_neg (Nat.not_le.mpr htop), Region.readByte, u.readByte_pastFive h6]

theorem Region.writeBytes_pastFive (u : Uart) (b : Byte) (bs : List Byte) (h6 : 6 ≤ o) (htop : o < top) :
    Region.writeBytes acc top o (b :: bs) (.uart u) = (.error (.uartReg o), .uart u) := by
  simp only [Region.writeBytes, if_neg (Nat.not_le.mpr htop), Region.writeByte, u.writeByte_pastFive b h6]

/-- A read that goes past the registers is the read of the `6 - o` registers it starts with (none from offset 6 on), then
the error of the byte after them. -/
theorem Region.readBytes_pastRegisters {n : Nat} (u : Uart) (hn : 6 - o < n) (htop : o + n ≤ top) :
    ∃ bs r, Region.readBytes acc top (6 - o) o (.uart u) = (.ok bs, r) ∧
      Region.readBytes acc top n o (.uart u) = (.error (.uartReg (o + (6 - o))), r) := by
  obtain ⟨j, rfl⟩ := Nat.exists_eq_add_of_lt hn
  obtain ⟨bs, u', hfront⟩ := Region.readBytes_registers (acc := acc) (top := top) u (Nat.le_refl (6 - o)) (by omega)
  have hrest := Region.readBytes_pastFive (acc := acc) (top := top) (o := o + (6 - o)) u' j (by omega) (by omega)
  rw [Nat.add_assoc]
  exact ⟨bs, .uart u', hfront, Region.readBytes_add_error hfront hrest⟩

/-- The same of a write, of a value whose bytes are taken from the low end. -/
theorem Region.writeBytes_pastRegisters {n : Nat} (u : Uart) (v : Word) (hn : 6 - o < n) (htop : o + n ≤ top) :
    ∃ r, Region.writeBytes acc top o (leBytes (6 - o) v) (.uart u) = (.ok (), r) ∧
      Region.writeBytes acc top o (leBytes n v) (.uart u) = (.error (.uartReg (o + (6 - o))), r) := by
  obtain ⟨j, rfl⟩ := Nat.exists_eq_add_of_lt hn
  have hlen := leBytes_length (6 - o) v
  obtain ⟨u', hfront⟩ := Region.writeBytes_registers (acc := acc) (top := top) (bytes := leBytes (6 - o) v) u
    hlen.le (by omega)
  refine ⟨.uart u', hfront, ?_⟩
  rw [Nat.add_assoc, leBytes_append, Region.writeBytes_append, hfront, hlen]
  exact Region.writeBytes_pastFive u' _ _ (by omega) (by omega)

/-! ## Through the bus (R53) -/

/-- Two accesses that leave the same region behind the routed tuple leave the same bus. -/
theorem Bus.route_snd_congr {β γ : Type} {a : Word} {bus : Bus} {m : Mapping} {f : Mapping → Except Fatal β × Region}
    {g : Mapping → Except Fatal γ × Region} (hl : Bus.lookup a bus = some m) (h : (f m).2 = (g m).2) :
    (Bus.route a f bus).2 = (Bus.route a g bus).2 := by
  obtain ⟨pre, post, rfl, hp⟩ := Bus.split_of_lookup hl
  have hm := Bus.holds_of_lookup hl
  rw [Bus.route_append post f hm hp, Bus.route_append post g hm hp, h]

/-- An access that ends below 2^64 ends below the top of its tuple (R59). -/
theorem Mapping.offset_add_le_top {m : Mapping} {a : Word} {n : Nat} (hm : m.holds a = true) (h : a.toNat + n ≤ 2 ^ 64) :
    m.offset a + n ≤ m.top := by
  simp only [Mapping.holds, Bool.and_eq_true, decide_eq_true_eq] at hm
  simp only [Mapping.offset, Mapping.top]
  omega

section AtUart

variable {s : State} {a : Word} {u : Uart} {n : Nat}

theorem State.memRead_pastRegisters (hu : s.atUart a u o) (hn : 6 - o < n) (htop : a.toNat + n ≤ 2 ^ 64) :
    ∃ x s1, s.memRead a (6 - o) = (.ok x, s1) ∧ s.memRead a n = (.error (.uartReg (o + (6 - o))), s1) := by
  obtain ⟨m, hl, hreg, rfl⟩ := hu
  obtain ⟨bs, r, hfront, hall⟩ := Region.readBytes_pastRegisters (acc := a) u hn
    (Mapping.offset_add_le_top (Bus.holds_of_lookup hl) htop)
  rw [← hreg] at hfront hall
  have hbus : (Bus.read a n s.bus).2 = (Bus.read a (6 - m.offset a) s.bus).2 :=
    Bus.route_snd_congr hl (by rw [hfront, hall])
  refine ⟨leValue bs, (s.memRead a (6 - m.offset a)).2, Prod.ext ?_ rfl, Prod.ext ?_ ?_⟩
  · rw [(State.memRead_routed _ hl).1, hfront]; rfl
  · rw [(State.memRead_routed _ hl).1, hall]; rfl
  · simp only [State.memRead, hbus]

theorem State.memWrite_pastRegisters (v : Word) (hu : s.atUart a u o) (hn : 6 - o < n) (htop : a.toNat + n ≤ 2 ^ 64) :
    ∃ s1, s.memWrite a (6 - o) v = (.ok (), s1) ∧ s.memWrite a n v = (.error (.uartReg (o + (6 - o))), s1) := by
  obtain ⟨m, hl, hreg, rfl⟩ := hu
  obtain ⟨r, hfront, hall⟩ := Region.writeBytes_pastRegisters (acc := a) u v hn
    (Mapping.offset_add_le_top (Bus.holds_of_lookup hl) htop)
  rw [← hreg] at hfront hall
  have hbus : (Bus.write a (leBytes n v) s.bus).2 = (Bus.write a (leBytes (6 - m.offset a) v) s.bus).2 :=
    Bus.route_snd_congr hl (by rw [hfront, hall])
  refine ⟨(s.memWrite a (6 - m.offset a) v).2, Prod.ext ?_ rfl, Prod.ext ?_ ?_⟩
  · rw [(State.memWrite_routed _ v hl).1, hfront]
  · rw [(State.memWrite_routed _ v hl).1, hall]
  · simp only [State.memWrite, hbus]

end AtUart

/-- Settles O56: the access fails at offset `o + (6 - o)`, which is 6 or, from offset 6 on, `o` itself; it leaves what the
access of the `6 - o` bytes before leaves. -/
theorem uartOffsetsPastFiveAreFatal : Obligations.UartOffsetsPastFiveAreFatal := by
  unfold Obligations.UartOffsetsPastFiveAreFatal
  intro s a v u o n hu hpos hpast htop
  have hn : 6 - o < n := by omega
  have hoff : (if o < 6 then 6 else o) = o + (6 - o) := by split <;> omega
  obtain ⟨x, s1, hread, hreadFails⟩ := State.memRead_pastRegisters hu hn htop
  obtain ⟨s2, hwrite, hwriteFails⟩ := State.memWrite_pastRegisters v hu hn htop
  rw [hoff, hreadFails, hwriteFails]
  exact ⟨rfl, rfl, ⟨x, s1, hread, rfl⟩, s2, hwrite, rfl⟩

end Sys2Proof.Machine
end

section
/-! PROOFS. The words of the standard formats that the parts above leave out: what each opcode and its second-level fields
decode to. -/

namespace Sys2Proof

/-! ## Primary opcodes (R96) -/

theorem decodeStandard_fence {w : BitVec 32} (h : opcodeOf w = opFence) :
    decodeStandard w = .ok (.fence (w.extractLsb' 7 25)) := by
  simp [decodeStandard, h, opFence, opLoad]

theorem decodeStandard_aluImm64 {w : BitVec 32} (h : opcodeOf w = opAluImm64) : decodeStandard w = decodeAluImm64 w := by
  simp [decodeStandard, h, opAluImm64, opLoad, opFence, opAluImm, opAuipc]

theorem decodeStandard_atomic {w : BitVec 32} (h : opcodeOf w = opAtomic) : decodeStandard w = decodeAtomic w := by
  simp [decodeStandard, h, opAtomic, opLoad, opFence, opAluImm, opAuipc, opAluImm64, opStore]

theorem decodeStandard_jalr {w : BitVec 32} (h : opcodeOf w = opJalr) : decodeStandard w =
    if funct3Of w = 0b000#3 then .ok (.jalr (rdOf w) (rs1Of w) (immIOf w)) else unhandled w := by
  simp [decodeStandard, h, opJalr, opLoad, opFence, opAluImm, opAuipc, opAluImm64, opStore, opAtomic, opAlu, opLui,
    opBranch]

theorem decodeStandard_jal {w : BitVec 32} (h : opcodeOf w = opJal) :
    decodeStandard w = .ok (.jal (rdOf w) (immJOf w)) := by
  simp [decodeStandard, h, opJal, opLoad, opFence, opAluImm, opAuipc, opAluImm64, opStore, opAtomic, opAlu, opLui,
    opBranch, opJalr]

theorem decodeStandard_system {w : BitVec 32} (h : opcodeOf w = opSystem) : decodeStandard w = decodeSystem w := by
  simp [decodeStandard, h, opSystem, opLoad, opFence, opAluImm, opAuipc, opAluImm64, opStore, opAtomic, opAlu, opLui,
    opBranch, opJalr, opJal]

/-! ## Second-level fields (R107 to R113) -/

section SecondLevelFields

variable {w : BitVec 32}

theorem decodeLoad_lbu (h : funct3Of w = 0b100#3) : decodeLoad w = .ok (.lbu (rdOf w) (rs1Of w) (immIOf w)) := by
  simp [decodeLoad, h]

theorem decodeLoad_lhu (h : funct3Of w = 0b101#3) : decodeLoad w = .ok (.lhu (rdOf w) (rs1Of w) (immIOf w)) := by
  simp [decodeLoad, h]

theorem decodeLoad_lwu (h : funct3Of w = 0b110#3) : decodeLoad w = .ok (.lwu (rdOf w) (rs1Of w) (immIOf w)) := by
  simp [decodeLoad, h]

theorem decodeAluImm_addi (h : funct3Of w = 0b000#3) :
    decodeAluImm w = .ok (.addi (rdOf w) (rs1Of w) (immIOf w)) := by simp [decodeAluImm, h]

theorem decodeAluImm_slti (h : funct3Of w = 0b010#3) :
    decodeAluImm w = .ok (.slti (rdOf w) (rs1Of w) (immIOf w)) := by simp [decodeAluImm, h]

theorem decodeAluImm_sltiu (h : funct3Of w = 0b011#3) :
    decodeAluImm w = .ok (.sltiu (rdOf w) (rs1Of w) (immIOf w)) := by simp [decodeAluImm, h]

theorem decodeAluImm_xori (h : funct3Of w = 0b100#3) :
    decodeAluImm w = .ok (.xori (rdOf w) (rs1Of w) (immIOf w)) := by simp [decodeAluImm, h]

theorem decodeAluImm_ori (h : funct3Of w = 0b110#3) :
    decodeAluImm w = .ok (.ori (rdOf w) (rs1Of w) (immIOf w)) := by simp [decodeAluImm, h]

theorem decodeAluImm_andi (h : funct3Of w = 0b111#3) :
    decodeAluImm w = .ok (.andi (rdOf w) (rs1Of w) (immIOf w)) := by simp [decodeAluImm, h]

theorem decodeAluImm64_addiw (h : funct3Of w = 0b000#3) :
    decodeAluImm64 w = .ok (.addiw (rdOf w) (rs1Of w) (immIOf w)) := by simp [decodeAluImm64, h]

theorem decodeAluImm64_slliw (h3 : funct3Of w = 0b001#3) (h7 : funct7Of w = 0b0000000#7) :
    decodeAluImm64 w = .ok (.slliw (rdOf w) (rs1Of w) (shamtOf w)) := by simp [decodeAluImm64, h3, h7]

theorem decodeAluImm64_srliw (h3 : funct3Of w = 0b101#3) (h7 : funct7Of w = 0b0000000#7) :
    decodeAluImm64 w = .ok (.srliw (rdOf w) (rs1Of w) (shamtOf w)) := by simp [decodeAluImm64, h3, h7]

theorem decodeAluImm64_sraiw (h3 : funct3Of w = 0b101#3) (h7 : funct7Of w = 0b0100000#7) :
    decodeAluImm64 w = .ok (.sraiw (rdOf w) (rs1Of w) (shamtOf w)) := by simp [decodeAluImm64, h3, h7]

theorem decodeAlu_sll (h3 : funct3Of w = 0b001#3) (h7 : funct7Of w = 0b0000000#7) :
    decodeAlu w = .ok (.sll (rdOf w) (rs1Of w) (rs2Of w)) := by simp [decodeAlu_base h7, decodeAluBase, h3]

theorem decodeAlu_srl (h3 : funct3Of w = 0b101#3) (h7 : funct7Of w = 0b0000000#7) :
    decodeAlu w = .ok (.srl (rdOf w) (rs1Of w) (rs2Of w)) := by simp [decodeAlu_base h7, decodeAluBase, h3]

theorem decodeAlu_sra (h3 : funct3Of w = 0b101#3) (h7 : funct7Of w = 0b0100000#7) :
    decodeAlu w = .ok (.sra (rdOf w) (rs1Of w) (rs2Of w)) := by simp [decodeAlu, h3, h7]

theorem decodeAlu_mulGroup (h7 : funct7Of w = 0b0000001#7) : decodeAlu w = decodeMulGroup w := by simp [decodeAlu, h7]

theorem decodeAlu_mul (h3 : funct3Of w = 0b000#3) (h7 : funct7Of w = 0b0000001#7) :
    decodeAlu w = .ok (.mul (rdOf w) (rs1Of w) (rs2Of w)) := by simp [decodeAlu_mulGroup h7, decodeMulGroup, h3]

theorem decodeAlu_mulh (h3 : funct3Of w = 0b001#3) (h7 : funct7Of w = 0b0000001#7) :
    decodeAlu w = .ok (.mulh (rdOf w) (rs1Of w) (rs2Of w)) := by simp [decodeAlu_mulGroup h7, decodeMulGroup, h3]

theorem decodeAlu_mulhsu (h3 : funct3Of w = 0b010#3) (h7 : funct7Of w = 0b0000001#7) :
    decodeAlu w = .ok (.mulhsu (rdOf w) (rs1Of w) (rs2Of w)) := by simp [decodeAlu_mulGroup h7, decodeMulGroup, h3]

theorem decodeAlu_mulhu (h3 : funct3Of w = 0b011#3) (h7 : funct7Of w = 0b0000001#7) :
    decodeAlu w = .ok (.mulhu (rdOf w) (rs1Of w) (rs2Of w)) := by simp [decodeAlu_mulGroup h7, decodeMulGroup, h3]

theorem decodeAlu_div (h3 : funct3Of w = 0b100#3) (h7 : funct7Of w = 0b0000001#7) :
    decodeAlu w = .ok (.div (rdOf w) (rs1Of w) (rs2Of w)) := by simp [decodeAlu_mulGroup h7, decodeMulGroup, h3]

theorem decodeAlu_divu (h3 : funct3Of w = 0b101#3) (h7 : funct7Of w = 0b0000001#7) :
    decodeAlu w = .ok (.divu (rdOf w) (rs1Of w) (rs2Of w)) := by simp [decodeAlu_mulGroup h7, decodeMulGroup, h3]

theorem decodeAlu_rem (h3 : funct3Of w = 0b110#3) (h7 : funct7Of w = 0b0000001#7) :
    decodeAlu w = .ok (.rem (rdOf w) (rs1Of w) (rs2Of w)) := by simp [decodeAlu_mulGroup h7, decodeMulGroup, h3]

theorem decodeAlu_remu (h3 : funct3Of w = 0b111#3) (h7 : funct7Of w = 0b0000001#7) :
    decodeAlu w = .ok (.remu (rdOf w) (rs1Of w) (rs2Of w)) := by simp [decodeAlu_mulGroup h7, decodeMulGroup, h3]

theorem decodeAtomic_lrW (h3 : funct3Of w = 0b010#3) (h5 : funct5Of w = 0b00010#5) :
    decodeAtomic w = .ok (.lrW (rdOf w) (rs1Of w) (rs2Of w) (aqOf w) (rlOf w)) := by simp [decodeAtomic, h3, h5]

theorem decodeAtomic_lrD (h3 : funct3Of w = 0b011#3) (h5 : funct5Of w = 0b00010#5) :
    decodeAtomic w = .ok (.lrD (rdOf w) (rs1Of w) (rs2Of w) (aqOf w) (rlOf w)) := by simp [decodeAtomic, h3, h5]

theorem decodeAtomic_scW (h3 : funct3Of w = 0b010#3) (h5 : funct5Of w = 0b00011#5) :
    decodeAtomic w = .ok (.scW (rdOf w) (rs1Of w) (rs2Of w) (aqOf w) (rlOf w)) := by simp [decodeAtomic, h3, h5]

theorem decodeAtomic_scD (h3 : funct3Of w = 0b011#3) (h5 : funct5Of w = 0b00011#5) :
    decodeAtomic w = .ok (.scD (rdOf w) (rs1Of w) (rs2Of w) (aqOf w) (rlOf w)) := by simp [decodeAtomic, h3, h5]

theorem decodeAtomic_amoswapW (h3 : funct3Of w = 0b010#3) (h5 : funct5Of w = 0b00001#5) :
    decodeAtomic w = .ok (.amoswapW (rdOf w) (rs1Of w) (rs2Of w) (aqOf w) (rlOf w)) := by simp [decodeAtomic, h3, h5]

theorem decodeAtomic_amoswapD (h3 : funct3Of w = 0b011#3) (h5 : funct5Of w = 0b00001#5) :
    decodeAtomic w = .ok (.amoswapD (rdOf w) (rs1Of w) (rs2Of w) (aqOf w) (rlOf w)) := by simp [decodeAtomic, h3, h5]

/-- ECALL and EBREAK have funct3 000, so a CSR word is neither (R113, R314). -/
theorem decodeSystem_of_funct3 (h : funct3Of w ≠ 0b000#3) : w ≠ 0x00000073#32 ∧ w ≠ 0x00100073#32 :=
  ⟨fun hw => h (by rw [hw]; rfl), fun hw => h (by rw [hw]; rfl)⟩

theorem decodeSystem_csrrw (h : funct3Of w = 0b001#3) :
    decodeSystem w = .ok (.csrrw (rdOf w) (rs1Of w) (rs2Of w) (funct7Of w)) := by
  obtain ⟨hcall, hbreak⟩ := decodeSystem_of_funct3 (w := w) (by rw [h]; decide)
  simp [decodeSystem, hcall, hbreak, h]

theorem decodeSystem_csrrs (h : funct3Of w = 0b010#3) :
    decodeSystem w = .ok (.csrrs (rdOf w) (rs1Of w) (rs2Of w) (funct7Of w)) := by
  obtain ⟨hcall, hbreak⟩ := decodeSystem_of_funct3 (w := w) (by rw [h]; decide)
  simp [decodeSystem, hcall, hbreak, h]

theorem decodeSystem_csrrc (h : funct3Of w = 0b011#3) :
    decodeSystem w = .ok (.csrrc (rdOf w) (rs1Of w) (rs2Of w) (funct7Of w)) := by
  obtain ⟨hcall, hbreak⟩ := decodeSystem_of_funct3 (w := w) (by rw [h]; decide)
  simp [decodeSystem, hcall, hbreak, h]

theorem decodeSystem_csrrwi (h : funct3Of w = 0b101#3) :
    decodeSystem w = .ok (.csrrwi (rdOf w) (rs1Of w) (immIOf w)) := by
  obtain ⟨hcall, hbreak⟩ := decodeSystem_of_funct3 (w := w) (by rw [h]; decide)
  simp [decodeSystem, hcall, hbreak, h]

theorem decodeSystem_csrrsi (h : funct3Of w = 0b110#3) :
    decodeSystem w = .ok (.csrrsi (rdOf w) (rs1Of w) (immIOf w)) := by
  obtain ⟨hcall, hbreak⟩ := decodeSystem_of_funct3 (w := w) (by rw [h]; decide)
  simp [decodeSystem, hcall, hbreak, h]

theorem decodeSystem_csrrci (h : funct3Of w = 0b111#3) :
    decodeSystem w = .ok (.csrrci (rdOf w) (rs1Of w) (immIOf w)) := by
  obtain ⟨hcall, hbreak⟩ := decodeSystem_of_funct3 (w := w) (by rw [h]; decide)
  simp [decodeSystem, hcall, hbreak, h]

end SecondLevelFields

/-! ## Words by format (R93 to R104)

Each word decodes to the instruction `mk` that its fields select, with the operands it was written with. -/

/-- The I format, in an opcode that funct3 divides. -/
theorem decode_packI {dec : BitVec 32 → Decoded} {mk : Reg → Reg → BitVec 12 → Instr} {op : BitVec 7} {f3 : BitVec 3}
    (hlen : op.extractLsb' 0 2 = 0b11#2) (hdec : ∀ {w : BitVec 32}, opcodeOf w = op → decodeStandard w = dec w)
    (hmk : ∀ {w : BitVec 32}, funct3Of w = f3 → dec w = .ok (mk (rdOf w) (rs1Of w) (immIOf w)))
    (rd rs1 : Reg) (imm : BitVec 12) : decode (packI imm rs1 f3 rd op) = .ok (mk rd rs1 imm) := by
  have hop : opcodeOf (packI imm rs1 f3 rd op) = op := opcodeOf_packI _ _ _ _ _
  rw [decode_standard_of_opcode hop hlen, hdec hop, hmk (funct3Of_packI _ _ _ _ _), rdOf_packI, rs1Of_packI,
    immIOf_packI]

/-- The R format, in an opcode that funct3 and funct7 divide; a shift amount stands where `rs2` does. -/
theorem decode_packR {dec : BitVec 32 → Decoded} {mk : Reg → Reg → BitVec 5 → Instr} {op f7 : BitVec 7} {f3 : BitVec 3}
    (hlen : op.extractLsb' 0 2 = 0b11#2) (hdec : ∀ {w : BitVec 32}, opcodeOf w = op → decodeStandard w = dec w)
    (hmk : ∀ {w : BitVec 32}, funct3Of w = f3 → funct7Of w = f7 → dec w = .ok (mk (rdOf w) (rs1Of w) (rs2Of w)))
    (rd rs1 rs2 : Reg) : decode (packR f7 rs2 rs1 f3 rd op) = .ok (mk rd rs1 rs2) := by
  have hop : opcodeOf (packR f7 rs2 rs1 f3 rd op) = op := opcodeOf_packR _ _ _ _ _ _
  rw [decode_standard_of_opcode hop hlen, hdec hop, hmk (funct3Of_packR _ _ _ _ _ _) (funct7Of_packR _ _ _ _ _ _),
    rdOf_packR, rs1Of_packR, rs2Of_packR]

theorem decode_aluImmWord {mk : Reg → Reg → BitVec 12 → Instr} {f3 : BitVec 3}
    (hmk : ∀ {w : BitVec 32}, funct3Of w = f3 → decodeAluImm w = .ok (mk (rdOf w) (rs1Of w) (immIOf w)))
    (rd rs1 : Reg) (imm : BitVec 12) : decode (imm ++ rs1 ++ f3 ++ rd ++ 0b0010011#7) = .ok (mk rd rs1 imm) :=
  decode_packI rfl decodeStandard_aluImm hmk rd rs1 imm

theorem decode_aluImm64Word {mk : Reg → Reg → BitVec 12 → Instr} {f3 : BitVec 3}
    (hmk : ∀ {w : BitVec 32}, funct3Of w = f3 → decodeAluImm64 w = .ok (mk (rdOf w) (rs1Of w) (immIOf w)))
    (rd rs1 : Reg) (imm : BitVec 12) : decode (imm ++ rs1 ++ f3 ++ rd ++ 0b0011011#7) = .ok (mk rd rs1 imm) :=
  decode_packI rfl decodeStandard_aluImm64 hmk rd rs1 imm

theorem decode_shiftImm64Word {mk : Reg → Reg → BitVec 5 → Instr} {f3 : BitVec 3} {f7 : BitVec 7}
    (hmk : ∀ {w : BitVec 32}, funct3Of w = f3 → funct7Of w = f7 →
      decodeAluImm64 w = .ok (mk (rdOf w) (rs1Of w) (shamtOf w)))
    (rd rs1 : Reg) (shamt : BitVec 5) :
    decode (f7 ++ shamt ++ rs1 ++ f3 ++ rd ++ 0b0011011#7) = .ok (mk rd rs1 shamt) :=
  decode_packR rfl decodeStandard_aluImm64 hmk rd rs1 shamt

theorem decode_csrImmWord {mk : Reg → Reg → BitVec 12 → Instr} {f3 : BitVec 3}
    (hmk : ∀ {w : BitVec 32}, funct3Of w = f3 → decodeSystem w = .ok (mk (rdOf w) (rs1Of w) (immIOf w)))
    (rd rs1 : Reg) (imm : BitVec 12) : decode (imm ++ rs1 ++ f3 ++ rd ++ 0b1110011#7) = .ok (mk rd rs1 imm) :=
  decode_packI rfl decodeStandard_system hmk rd rs1 imm

theorem decode_jalrWord (rd rs1 : Reg) (imm : BitVec 12) :
    decode (imm ++ rs1 ++ 0b000#3 ++ rd ++ 0b1100111#7) = .ok (.jalr rd rs1 imm) :=
  decode_packI rfl decodeStandard_jalr (fun h => if_pos h) rd rs1 imm

/-- The word of R95 in the encoder's terms: the encoder joins funct5, `aq` and `rl` first. -/
theorem atomicWord_eq_packAtomic (f5 : BitVec 5) (aq rl : BitVec 1) (rs2 rs1 : Reg) (f3 : BitVec 3) (rd : Reg) :
    f5 ++ aq ++ rl ++ rs2 ++ rs1 ++ f3 ++ rd ++ 0b0101111#7 = packAtomic f5 aq rl rs2 rs1 f3 rd := rfl

theorem decode_atomicWord {mk : Reg → Reg → Reg → BitVec 1 → BitVec 1 → Instr} {f3 : BitVec 3} {f5 : BitVec 5}
    (hmk : ∀ {w : BitVec 32}, funct3Of w = f3 → funct5Of w = f5 →
      decodeAtomic w = .ok (mk (rdOf w) (rs1Of w) (rs2Of w) (aqOf w) (rlOf w)))
    (rd rs1 rs2 : Reg) (aq rl : BitVec 1) :
    decode (f5 ++ aq ++ rl ++ rs2 ++ rs1 ++ f3 ++ rd ++ 0b0101111#7) = .ok (mk rd rs1 rs2 aq rl) := by
  have hop : opcodeOf (packAtomic f5 aq rl rs2 rs1 f3 rd) = opAtomic := opcodeOf_packAtomic _ _ _ _ _ _ _
  rw [atomicWord_eq_packAtomic, decode_standard_of_opcode hop rfl, decodeStandard_atomic hop,
    hmk (funct3Of_packAtomic _ _ _ _ _ _ _) (funct5Of_packAtomic _ _ _ _ _ _ _), rdOf_packAtomic, rs1Of_packAtomic,
    rs2Of_packAtomic, aqOf_packAtomic, rlOf_packAtomic]

theorem decode_csrRegWord {mk : Reg → Reg → Reg → BitVec 7 → Instr} {f3 : BitVec 3}
    (hmk : ∀ {w : BitVec 32}, funct3Of w = f3 →
      decodeSystem w = .ok (mk (rdOf w) (rs1Of w) (rs2Of w) (funct7Of w)))
    (rd rs1 rs2 : Reg) (f7 : BitVec 7) :
    decode (f7 ++ rs2 ++ rs1 ++ f3 ++ rd ++ 0b1110011#7) = .ok (mk rd rs1 rs2 f7) := by
  have hop : opcodeOf (packR f7 rs2 rs1 f3 rd opSystem) = opSystem := opcodeOf_packR _ _ _ _ _ _
  calc decode (packR f7 rs2 rs1 f3 rd opSystem) = decodeSystem (packR f7 rs2 rs1 f3 rd opSystem) := by
        rw [decode_standard_of_opcode hop rfl, decodeStandard_system hop]
    _ = .ok (mk rd rs1 rs2 f7) := by
      rw [hmk (funct3Of_packR _ _ _ _ _ _), rdOf_packR, rs1Of_packR, rs2Of_packR, funct7Of_packR]

theorem decode_fenceWord (bits : BitVec 25) : decode (bits ++ 0b0001111#7) = .ok (.fence bits) := by
  have hop : opcodeOf (bits ++ opFence) = opFence := opcodeOf_fence bits opFence
  calc decode (bits ++ opFence) = .ok (.fence ((bits ++ opFence).extractLsb' 7 25)) := by
        rw [decode_standard_of_opcode hop rfl, decodeStandard_fence hop]
    _ = .ok (.fence bits) := by rw [bits_fence]

theorem decode_packJ (rd : Reg) {imm : BitVec 21} (h : lowZero 1 imm = true) :
    decode (packJ imm rd opJal) = .ok (.jal rd imm) := by
  have hop : opcodeOf (packJ imm rd opJal) = opJal := opcodeOf_packJ _ _ _
  rw [decode_standard_of_opcode hop rfl, decodeStandard_jal hop, rdOf_packJ, immJOf_packJ _ _ _ h]

/-- A branch in the encoder's terms, with its immediate whole. -/
theorem decode_packB {mk : Reg → Reg → BitVec 13 → Instr} {f3 : BitVec 3}
    (hmk : ∀ {w : BitVec 32}, funct3Of w = f3 → decodeBranch w = .ok (mk (rs1Of w) (rs2Of w) (immBOf w)))
    (rs1 rs2 : Reg) {imm : BitVec 13} (h : lowZero 1 imm = true) :
    decode (packB imm rs2 rs1 f3 opBranch) = .ok (mk rs1 rs2 imm) := by
  have hop : opcodeOf (packB imm rs2 rs1 f3 opBranch) = opBranch := opcodeOf_packB _ _ _ _ _
  rw [decode_standard_of_opcode hop rfl, decodeStandard_branch hop, hmk (funct3Of_packB _ _ _ _ _), rs1Of_packB,
    rs2Of_packB, immBOf_packB _ _ _ _ _ h]

end Sys2Proof
end

section
/-! PROOFS. The halfwords of the compressed forms: what each decodes to, whatever stands in the high half of the fetch
word. -/

namespace Sys2Proof

/-! ## The low half of a fetch word (R91, R115) -/

theorem lowHalf_append (high c : BitVec 16) : (high ++ c).extractLsb' 0 16 = c := BitVec.extractLsb'_append_eq_right

theorem decode_append_half (high : BitVec 16) {c : BitVec 16} (h : quadrantOf c ≠ 0b11#2) :
    decode (high ++ c) = decodeCompressed c := by
  have hlow : (high ++ c).extractLsb' 0 2 ≠ 0b11#2 := by rwa [lowBits_quadrantOf, lowHalf_append]
  rw [decode_compressed hlow, lowHalf_append]

theorem decodeCompressed_quadrant0 {c : BitVec 16} (h : quadrantOf c = 0b00#2) :
    decodeCompressed c = decodeQuadrant0 c := if_pos h

theorem decodeCompressed_quadrant1 {c : BitVec 16} (h : quadrantOf c = 0b01#2) :
    decodeCompressed c = decodeQuadrant1 c := by simp [decodeCompressed, h]

theorem decodeCompressed_quadrant2 {c : BitVec 16} (h : quadrantOf c = 0b10#2) :
    decodeCompressed c = decodeQuadrant2 c := by simp [decodeCompressed, h]

theorem decode_append_quadrant0 (high : BitVec 16) {c : BitVec 16} (h : quadrantOf c = 0b00#2) :
    decode (high ++ c) = decodeQuadrant0 c := by
  rw [decode_append_half high (by rw [h]; decide), decodeCompressed_quadrant0 h]

theorem decode_append_quadrant1 (high : BitVec 16) {c : BitVec 16} (h : quadrantOf c = 0b01#2) :
    decode (high ++ c) = decodeQuadrant1 c := by
  rw [decode_append_half high (by rw [h]; decide), decodeCompressed_quadrant1 h]

theorem decode_append_quadrant2 (high : BitVec 16) {c : BitVec 16} (h : quadrantOf c = 0b10#2) :
    decode (high ++ c) = decodeQuadrant2 c := by
  rw [decode_append_half high (by rw [h]; decide), decodeCompressed_quadrant2 h]

/-! ## Quadrant 00 (R344 to R346) -/

section Halfwords

variable (high : BitVec 16)

theorem decode_pack4spn (r : Reg3) {v : BitVec 10} (hv : lowZero 2 v = true) (h0 : v ≠ 0) :
    decode (high ++ pack4spn v r) = .ok (.cAddi4spn r v) := by
  rw [decode_append_quadrant0 high (quadrantOf_pack4spn v r)]
  simp only [decodeQuadrant0, cFunct3Of_pack4spn, cImm4spnOf_pack4spn v r hv, cRs2'Of_pack4spn, if_true, if_neg h0]

theorem decode_packCLw_load (r1 r : Reg3) {v : BitVec 7} (hv : lowZero 2 v = true) :
    decode (high ++ packCLw 0b010#3 v r1 r) = .ok (.cLw r r1 v) := by
  rw [decode_append_quadrant0 high (quadrantOf_packCLw _ _ _ _)]
  simp [decodeQuadrant0, cImmLwOf_packCLw _ v r1 r hv]

theorem decode_packCLw_store (r1 r : Reg3) {v : BitVec 7} (hv : lowZero 2 v = true) :
    decode (high ++ packCLw 0b110#3 v r1 r) = .ok (.cSw r1 r v) := by
  rw [decode_append_quadrant0 high (quadrantOf_packCLw _ _ _ _)]
  simp [decodeQuadrant0, cImmLwOf_packCLw _ v r1 r hv]

/-! ## Quadrant 01 (R348 to R367) -/

theorem decode_packCI_addi (rd : Reg) (v : BitVec 6) : decode (high ++ packCI 0b000#3 v rd) = .ok (.cAddi rd v) := by
  rw [decode_append_quadrant1 high (quadrantOf_packCI _ _ _)]
  simp [decodeQuadrant1]

theorem decode_packCI_li (rd : Reg) (v : BitVec 6) : decode (high ++ packCI 0b010#3 v rd) = .ok (.cLi rd v) := by
  rw [decode_append_quadrant1 high (quadrantOf_packCI _ _ _)]
  simp [decodeQuadrant1]

/-- With `rd = x2` the halfword is c.addi16sp, with a zero immediate it is reserved (R354, R356). -/
theorem decode_packCI_lui {rd : Reg} {v : BitVec 6} (hrd : rd ≠ 2) (h0 : v ≠ 0) :
    decode (high ++ packCI 0b011#3 v rd) = .ok (.cLui rd v) := by
  rw [decode_append_quadrant1 high (quadrantOf_packCI _ _ _)]
  simp only [decodeQuadrant1, cFunct3Of_packCI, cRdOf_packCI, cImm6Of_packCI, if_neg hrd, if_neg h0]
  rfl

theorem decode_pack16sp {v : BitVec 10} (hv : lowZero 4 v = true) (h0 : v ≠ 0) :
    decode (high ++ pack16sp v) = .ok (.cAddi16sp v) := by
  rw [decode_append_quadrant1 high (quadrantOf_pack16sp v)]
  simp only [decodeQuadrant1, cFunct3Of_pack16sp, cRdOf_pack16sp, cImm16spOf_pack16sp v hv, if_neg h0]
  rfl

theorem decode_packCJ_jal {v : BitVec 12} (hv : lowZero 1 v = true) :
    decode (high ++ packCJ 0b001#3 v) = .ok (.cJal v) := by
  rw [decode_append_quadrant1 high (quadrantOf_packCJ _ v)]
  simp [decodeQuadrant1, cImmJOf_packCJ _ v hv]

theorem decode_packCJ_j {v : BitVec 12} (hv : lowZero 1 v = true) :
    decode (high ++ packCJ 0b101#3 v) = .ok (.cJ v) := by
  rw [decode_append_quadrant1 high (quadrantOf_packCJ _ v)]
  simp [decodeQuadrant1, cImmJOf_packCJ _ v hv]

theorem decode_packCB_beqz (r : Reg3) {v : BitVec 9} (hv : lowZero 1 v = true) :
    decode (high ++ packCB 0b110#3 v r) = .ok (.cBeqz r v) := by
  rw [decode_append_quadrant1 high (quadrantOf_packCB _ v r)]
  simp [decodeQuadrant1, cImmBOf_packCB _ v r hv]

theorem decode_packCB_bnez (r : Reg3) {v : BitVec 9} (hv : lowZero 1 v = true) :
    decode (high ++ packCB 0b111#3 v r) = .ok (.cBnez r v) := by
  rw [decode_append_quadrant1 high (quadrantOf_packCB _ v r)]
  simp [decodeQuadrant1, cImmBOf_packCB _ v r hv]

theorem decode_packCA (bit12 : BitVec 1) (sel : BitVec 2) (r : Reg3) (low : BitVec 5) :
    decode (high ++ packCA bit12 sel r low) = decodeQuadrant1Alu (packCA bit12 sel r low) := by
  rw [decode_append_quadrant1 high (quadrantOf_packCA _ _ _ _)]
  simp [decodeQuadrant1]

theorem decode_packCA_srli (r : Reg3) (sh : BitVec 5) :
    decode (high ++ packCA 0#1 0b00#2 r sh) = .ok (.cSrli r sh) := by simp [decode_packCA, decodeQuadrant1Alu]

theorem decode_packCA_srai (r : Reg3) (sh : BitVec 5) :
    decode (high ++ packCA 0#1 0b01#2 r sh) = .ok (.cSrai r sh) := by simp [decode_packCA, decodeQuadrant1Alu]

theorem decode_packCA_andi (r : Reg3) (v : BitVec 6) :
    decode (high ++ packCA (v.extractLsb' 5 1) 0b10#2 r (v.extractLsb' 0 5)) = .ok (.cAndi r v) := by
  simp [decode_packCA, decodeQuadrant1Alu]

theorem decode_packCA_sub (r r2 : Reg3) :
    decode (high ++ packCA 0#1 0b11#2 r (0b00#2 ++ r2)) = .ok (.cSub r r2) := by simp [decode_packCA, decodeQuadrant1Alu]

theorem decode_packCA_xor (r r2 : Reg3) :
    decode (high ++ packCA 0#1 0b11#2 r (0b01#2 ++ r2)) = .ok (.cXor r r2) := by simp [decode_packCA, decodeQuadrant1Alu]

theorem decode_packCA_or (r r2 : Reg3) :
    decode (high ++ packCA 0#1 0b11#2 r (0b10#2 ++ r2)) = .ok (.cOr r r2) := by simp [decode_packCA, decodeQuadrant1Alu]

theorem decode_packCA_and (r r2 : Reg3) :
    decode (high ++ packCA 0#1 0b11#2 r (0b11#2 ++ r2)) = .ok (.cAnd r r2) := by simp [decode_packCA, decodeQuadrant1Alu]

/-! ## Quadrant 10 (R368 to R374) -/

theorem decode_packC_slli (rd : Reg) {sh : BitVec 5} (h0 : sh ≠ 0) :
    decode (high ++ packC 0b000#3 0#1 rd sh 0b10#2) = .ok (.cSlli rd sh) := by
  rw [decode_append_quadrant2 high (quadrantOf_packC _ _ _ _ _)]
  simp only [decodeQuadrant2, cFunct3Of_packC, cBit12Of_packC, cRs2Of_packC, cRdOf_packC, if_neg h0]
  rfl

theorem decode_packC_slli64 (rd : Reg) :
    decode (high ++ packC 0b000#3 0#1 rd 0 0b10#2) = .ok (.cSlli64 rd) := by
  rw [decode_append_quadrant2 high (quadrantOf_packC _ _ _ _ _)]
  simp [decodeQuadrant2]

theorem decode_packC_jr {rs1 : Reg} (h0 : rs1 ≠ 0) :
    decode (high ++ packC 0b100#3 0#1 rs1 0 0b10#2) = .ok (.cJr rs1) := by
  rw [decode_append_quadrant2 high (quadrantOf_packC _ _ _ _ _)]
  simp only [decodeQuadrant2, cFunct3Of_packC, cBit12Of_packC, cRs2Of_packC, cRdOf_packC, if_neg h0]
  rfl

theorem decode_packC_mv (rd : Reg) {rs2 : Reg} (h0 : rs2 ≠ 0) :
    decode (high ++ packC 0b100#3 0#1 rd rs2 0b10#2) = .ok (.cMv rd rs2) := by
  rw [decode_append_quadrant2 high (quadrantOf_packC _ _ _ _ _)]
  simp only [decodeQuadrant2, cFunct3Of_packC, cBit12Of_packC, cRs2Of_packC, cRdOf_packC, if_neg h0]
  rfl

theorem decode_packC_ebreak : decode (high ++ packC 0b100#3 1#1 0 0 0b10#2) = .ok .cEbreak := by
  rw [decode_append_quadrant2 high (quadrantOf_packC _ _ _ _ _)]
  simp [decodeQuadrant2]

theorem decode_packC_jalr {rs1 : Reg} (h0 : rs1 ≠ 0) :
    decode (high ++ packC 0b100#3 1#1 rs1 0 0b10#2) = .ok (.cJalr rs1) := by
  rw [decode_append_quadrant2 high (quadrantOf_packC _ _ _ _ _)]
  simp only [decodeQuadrant2, cFunct3Of_packC, cBit12Of_packC, cRs2Of_packC, cRdOf_packC, if_neg h0]
  rfl

theorem decode_packC_add (rd : Reg) {rs2 : Reg} (h0 : rs2 ≠ 0) :
    decode (high ++ packC 0b100#3 1#1 rd rs2 0b10#2) = .ok (.cAdd rd rs2) := by
  rw [decode_append_quadrant2 high (quadrantOf_packC _ _ _ _ _)]
  simp only [decodeQuadrant2, cFunct3Of_packC, cBit12Of_packC, cRs2Of_packC, cRdOf_packC, if_neg h0]
  rfl

end Halfwords

end Sys2Proof
end

section
/-! PROOFS. Decoding is the inverse of encoding on every well-formed instruction. -/

namespace Sys2Proof

/-- Settles O1: for each constructor, the rule for the words of its format at the fields that select it. The conditions of
`Instr.wf` are the premises of those rules: a scaled immediate has zero low bits, and what the compressed map excludes is
excluded. -/
theorem decodeOfEncode : Obligations.DecodeOfEncode := by
  unfold Obligations.DecodeOfEncode
  intro i hwf
  cases i
  case lui rd imm => exact decode_packU_lui rd imm
  case auipc rd imm => exact decode_packU_auipc rd imm
  case jal rd imm => exact decode_packJ rd hwf
  case jalr rd rs1 imm => exact decode_jalrWord rd rs1 imm
  case beq rs1 rs2 imm => exact decode_packB decodeBranch_beq rs1 rs2 hwf
  case bne rs1 rs2 imm => exact decode_packB decodeBranch_bne rs1 rs2 hwf
  case blt rs1 rs2 imm => exact decode_packB decodeBranch_blt rs1 rs2 hwf
  case bge rs1 rs2 imm => exact decode_packB decodeBranch_bge rs1 rs2 hwf
  case bltu rs1 rs2 imm => exact decode_packB decodeBranch_bltu rs1 rs2 hwf
  case bgeu rs1 rs2 imm => exact decode_packB decodeBranch_bgeu rs1 rs2 hwf
  case lb rd rs1 imm => exact decode_loadWord decodeLoad_lb rd rs1 imm
  case lh rd rs1 imm => exact decode_loadWord decodeLoad_lh rd rs1 imm
  case lw rd rs1 imm => exact decode_loadWord decodeLoad_lw rd rs1 imm
  case ld rd rs1 imm => exact decode_loadWord decodeLoad_ld rd rs1 imm
  case lbu rd rs1 imm => exact decode_loadWord decodeLoad_lbu rd rs1 imm
  case lhu rd rs1 imm => exact decode_loadWord decodeLoad_lhu rd rs1 imm
  case lwu rd rs1 imm => exact decode_loadWord decodeLoad_lwu rd rs1 imm
  case sb rs1 rs2 imm => exact decode_storeWord decodeStore_sb rs1 rs2 imm
  case sh rs1 rs2 imm => exact decode_storeWord decodeStore_sh rs1 rs2 imm
  case sw rs1 rs2 imm => exact decode_storeWord decodeStore_sw rs1 rs2 imm
  case sd rs1 rs2 imm => exact decode_storeWord decodeStore_sd rs1 rs2 imm
  case addi rd rs1 imm => exact decode_aluImmWord decodeAluImm_addi rd rs1 imm
  case slti rd rs1 imm => exact decode_aluImmWord decodeAluImm_slti rd rs1 imm
  case sltiu rd rs1 imm => exact decode_aluImmWord decodeAluImm_sltiu rd rs1 imm
  case xori rd rs1 imm => exact decode_aluImmWord decodeAluImm_xori rd rs1 imm
  case ori rd rs1 imm => exact decode_aluImmWord decodeAluImm_ori rd rs1 imm
  case andi rd rs1 imm => exact decode_aluImmWord decodeAluImm_andi rd rs1 imm
  case slli rd rs1 sh => exact decode_shiftImmWord decodeAluImm_slli rd rs1 sh
  case srli rd rs1 sh => exact decode_shiftImmWord decodeAluImm_srli rd rs1 sh
  case srai rd rs1 sh => exact decode_shiftImmWord decodeAluImm_srai rd rs1 sh
  case addiw rd rs1 imm => exact decode_aluImm64Word decodeAluImm64_addiw rd rs1 imm
  case slliw rd rs1 sh => exact decode_shiftImm64Word decodeAluImm64_slliw rd rs1 sh
  case srliw rd rs1 sh => exact decode_shiftImm64Word decodeAluImm64_srliw rd rs1 sh
  case sraiw rd rs1 sh => exact decode_shiftImm64Word decodeAluImm64_sraiw rd rs1 sh
  case add rd rs1 rs2 => exact decode_aluWord decodeAlu_add rd rs1 rs2
  case sub rd rs1 rs2 => exact decode_aluWord decodeAlu_sub rd rs1 rs2
  case sll rd rs1 rs2 => exact decode_aluWord decodeAlu_sll rd rs1 rs2
  case slt rd rs1 rs2 => exact decode_aluWord decodeAlu_slt rd rs1 rs2
  case sltu rd rs1 rs2 => exact decode_aluWord decodeAlu_sltu rd rs1 rs2
  case xor rd rs1 rs2 => exact decode_aluWord decodeAlu_xor rd rs1 rs2
  case srl rd rs1 rs2 => exact decode_aluWord decodeAlu_srl rd rs1 rs2
  case sra rd rs1 rs2 => exact decode_aluWord decodeAlu_sra rd rs1 rs2
  case or rd rs1 rs2 => exact decode_aluWord decodeAlu_or rd rs1 rs2
  case and rd rs1 rs2 => exact decode_aluWord decodeAlu_and rd rs1 rs2
  case mul rd rs1 rs2 => exact decode_aluWord decodeAlu_mul rd rs1 rs2
  case mulh rd rs1 rs2 => exact decode_aluWord decodeAlu_mulh rd rs1 rs2
  case mulhsu rd rs1 rs2 => exact decode_aluWord decodeAlu_mulhsu rd rs1 rs2
  case mulhu rd rs1 rs2 => exact decode_aluWord decodeAlu_mulhu rd rs1 rs2
  case div rd rs1 rs2 => exact decode_aluWord decodeAlu_div rd rs1 rs2
  case divu rd rs1 rs2 => exact decode_aluWord decodeAlu_divu rd rs1 rs2
  case rem rd rs1 rs2 => exact decode_aluWord decodeAlu_rem rd rs1 rs2
  case remu rd rs1 rs2 => exact decode_aluWord decodeAlu_remu rd rs1 rs2
  case lrW rd rs1 rs2 aq rl => exact decode_atomicWord decodeAtomic_lrW rd rs1 rs2 aq rl
  case lrD rd rs1 rs2 aq rl => exact decode_atomicWord decodeAtomic_lrD rd rs1 rs2 aq rl
  case scW rd rs1 rs2 aq rl => exact decode_atomicWord decodeAtomic_scW rd rs1 rs2 aq rl
  case scD rd rs1 rs2 aq rl => exact decode_atomicWord decodeAtomic_scD rd rs1 rs2 aq rl
  case amoswapW rd rs1 rs2 aq rl => exact decode_atomicWord decodeAtomic_amoswapW rd rs1 rs2 aq rl
  case amoswapD rd rs1 rs2 aq rl => exact decode_atomicWord decodeAtomic_amoswapD rd rs1 rs2 aq rl
  case fence bits => exact decode_fenceWord bits
  case ecall => rfl
  case ebreak => rfl
  case csrrw rd rs1 rs2 f7 => exact decode_csrRegWord decodeSystem_csrrw rd rs1 rs2 f7
  case csrrs rd rs1 rs2 f7 => exact decode_csrRegWord decodeSystem_csrrs rd rs1 rs2 f7
  case csrrc rd rs1 rs2 f7 => exact decode_csrRegWord decodeSystem_csrrc rd rs1 rs2 f7
  case csrrwi rd rs1 imm => exact decode_csrImmWord decodeSystem_csrrwi rd rs1 imm
  case csrrsi rd rs1 imm => exact decode_csrImmWord decodeSystem_csrrsi rd rs1 imm
  case csrrci rd rs1 imm => exact decode_csrImmWord decodeSystem_csrrci rd rs1 imm
  case cAddi4spn r v =>
    obtain ⟨hv, h0⟩ := Bool.and_eq_true_iff.mp hwf
    exact decode_pack4spn 0 r hv (bne_iff_ne.mp h0)
  case cLw r r1 v => exact decode_packCLw_load 0 r1 r hwf
  case cSw r1 r v => exact decode_packCLw_store 0 r1 r hwf
  case cAddi rd v => exact decode_packCI_addi 0 rd v
  case cJal v => exact decode_packCJ_jal 0 hwf
  case cLi rd v => exact decode_packCI_li 0 rd v
  case cAddi16sp v =>
    obtain ⟨hv, h0⟩ := Bool.and_eq_true_iff.mp hwf
    exact decode_pack16sp 0 hv (bne_iff_ne.mp h0)
  case cLui rd v =>
    obtain ⟨hrd, h0⟩ := Bool.and_eq_true_iff.mp hwf
    exact decode_packCI_lui 0 (bne_iff_ne.mp hrd) (bne_iff_ne.mp h0)
  case cSrli r sh => exact decode_packCA_srli 0 r sh
  case cSrai r sh => exact decode_packCA_srai 0 r sh
  case cAndi r v => exact decode_packCA_andi 0 r v
  case cSub r r2 => exact decode_packCA_sub 0 r r2
  case cXor r r2 => exact decode_packCA_xor 0 r r2
  case cOr r r2 => exact decode_packCA_or 0 r r2
  case cAnd r r2 => exact decode_packCA_and 0 r r2
  case cJ v => exact decode_packCJ_j 0 hwf
  case cBeqz r v => exact decode_packCB_beqz 0 r hwf
  case cBnez r v => exact decode_packCB_bnez 0 r hwf
  case cSlli rd sh => exact decode_packC_slli 0 rd (bne_iff_ne.mp hwf)
  case cSlli64 rd => exact decode_packC_slli64 0 rd
  case cJr rs1 => exact decode_packC_jr 0 (bne_iff_ne.mp hwf)
  case cMv rd rs2 => exact decode_packC_mv 0 rd (bne_iff_ne.mp hwf)
  case cEbreak => exact decode_packC_ebreak 0
  case cJalr rs1 => exact decode_packC_jalr 0 (bne_iff_ne.mp hwf)
  case cAdd rd rs2 => exact decode_packC_add 0 rd (bne_iff_ne.mp hwf)

end Sys2Proof
end

section
/-! PROOFS. Every accepted word is the encoding of the well-formed instruction it decodes to. -/

namespace Sys2Proof

/-! ## Packing the fields of a word gives the word back (R93 to R104, R116)

The laws of the encoding, with the constant fields written as the constants they are known to be. -/

section Pack

variable {w : BitVec 32} {op : BitVec 7} {f3 : BitVec 3} {f7 : BitVec 7} {f5 : BitVec 5}

theorem packI_eq_of_fields (hop : opcodeOf w = op) (h3 : funct3Of w = f3) :
    packI (immIOf w) (rs1Of w) f3 (rdOf w) op = w := by
  rw [← hop, ← h3]; exact packI_fields w

theorem packR_eq_of_fields (hop : opcodeOf w = op) (h3 : funct3Of w = f3) (h7 : funct7Of w = f7) :
    packR f7 (rs2Of w) (rs1Of w) f3 (rdOf w) op = w := by
  rw [← hop, ← h3, ← h7]; exact packR_fields w

theorem packS_eq_of_fields (hop : opcodeOf w = op) (h3 : funct3Of w = f3) :
    packS (immSOf w) (rs2Of w) (rs1Of w) f3 op = w := by
  rw [← hop, ← h3]; exact packS_fields w

theorem packB_eq_of_fields (hop : opcodeOf w = op) (h3 : funct3Of w = f3) :
    packB (immBOf w) (rs2Of w) (rs1Of w) f3 op = w := by
  rw [← hop, ← h3]; exact packB_fields w

theorem packU_eq_of_fields (hop : opcodeOf w = op) : packU (immUOf w) (rdOf w) op = w := by
  rw [← hop]; exact packU_fields w

theorem packJ_eq_of_fields (hop : opcodeOf w = op) : packJ (immJOf w) (rdOf w) op = w := by
  rw [← hop]; exact packJ_fields w

theorem packAtomic_eq_of_fields (hop : opcodeOf w = opAtomic) (h3 : funct3Of w = f3) (h5 : funct5Of w = f5) :
    packAtomic f5 (aqOf w) (rlOf w) (rs2Of w) (rs1Of w) f3 (rdOf w) = w := by
  rw [← h3, ← h5]; exact packAtomic_fields w hop

theorem fence_eq_of_fields (hop : opcodeOf w = op) : w.extractLsb' 7 25 ++ op = w := by
  rw [← hop]; exact fence_fields w

end Pack

section PackHalf

variable {c : BitVec 16} {f3 : BitVec 3} {b : BitVec 1} {q : BitVec 2}

theorem packC_eq_of_fields (hq : quadrantOf c = q) (h3 : cFunct3Of c = f3) :
    packC f3 (cBit12Of c) (cRdOf c) (cRs2Of c) q = c := by
  rw [← hq, ← h3]; exact packC_fields c

theorem packC_eq_of_allFields {rd rs2 : Reg} (hq : quadrantOf c = q) (h3 : cFunct3Of c = f3) (hb : cBit12Of c = b)
    (hrd : cRdOf c = rd) (hrs2 : cRs2Of c = rs2) : packC f3 b rd rs2 q = c := by
  rw [← hb, ← hrd, ← hrs2]; exact packC_eq_of_fields hq h3

theorem packCI_eq_of_fields (hq : quadrantOf c = 0b01#2) (h3 : cFunct3Of c = f3) :
    packCI f3 (cImm6Of c) (cRdOf c) = c := by
  rw [← packC_eq_of_fields hq h3]; exact packCI_fields _ _ _ _

theorem pack4spn_eq_of_fields (hq : quadrantOf c = 0b00#2) (h3 : cFunct3Of c = 0b000#3) :
    pack4spn (cImm4spnOf c) (cRs2'Of c) = c := by
  rw [← packC_eq_of_fields hq h3]; exact pack4spn_fields _ _ _

theorem packCLw_eq_of_fields (hq : quadrantOf c = 0b00#2) (h3 : cFunct3Of c = f3) :
    packCLw f3 (cImmLwOf c) (cRs1'Of c) (cRs2'Of c) = c := by
  rw [← packC_eq_of_fields hq h3]; exact packCLw_fields _ _ _ _

theorem packCJ_eq_of_fields (hq : quadrantOf c = 0b01#2) (h3 : cFunct3Of c = f3) :
    packCJ f3 (cImmJOf c) = c := by
  rw [← packC_eq_of_fields hq h3]; exact packCJ_fields _ _ _ _

theorem packCB_eq_of_fields (hq : quadrantOf c = 0b01#2) (h3 : cFunct3Of c = f3) :
    packCB f3 (cImmBOf c) (cRs1'Of c) = c := by
  rw [← packC_eq_of_fields hq h3]; exact packCB_fields _ _ _ _

theorem pack16sp_eq_of_fields (hq : quadrantOf c = 0b01#2) (h3 : cFunct3Of c = 0b011#3) (hrd : cRdOf c = 2) :
    pack16sp (cImm16spOf c) = c := by
  rw [← packC_eq_of_fields hq h3, hrd]; exact pack16sp_fields _ _

theorem packCA_eq_of_fields (hq : quadrantOf c = 0b01#2) (h3 : cFunct3Of c = 0b100#3) (hb : cBit12Of c = b)
    {sel : BitVec 2} (hs : c.extractLsb' 10 2 = sel) : packCA b sel (cRs1'Of c) (cRs2Of c) = c := by
  have h := packCA_fields (cBit12Of c) (cRdOf c) (cRs2Of c)
  rw [packC_eq_of_fields hq h3] at h
  rw [← hb, ← hs]; exact h

end PackHalf

/-! ## What a decoder must answer -/

/-- If `d` accepts, it answers a well-formed instruction of `n` bytes whose encoding is `w`. -/
def Encodes (n : Nat) (w : BitVec 32) (d : Decoded) : Prop :=
  ∀ i, d = .ok i → i.wf = true ∧ i.size = n ∧ encode i = w

section Encodes

variable {n : Nat} {w : BitVec 32}

@[simp] theorem encodes_ok (i : Instr) : Encodes n w (.ok i) ↔ i.wf = true ∧ i.size = n ∧ encode i = w :=
  ⟨fun h => h i rfl, fun h _ h' => by cases h'; exact h⟩

@[simp] theorem encodes_error (e : DecodeError) : Encodes n w (.error e) := fun _ h => by cases h

@[simp] theorem encodes_unhandled (v : BitVec 32) : Encodes n w (unhandled v) := encodes_error _

@[simp] theorem encodes_illegal (c : BitVec 16) : Encodes n w (illegal c) := encodes_error _

/-- A decoder that chooses between two answers is checked at each. -/
@[simp] theorem encodes_ite (p : Prop) [Decidable p] (a b : Decoded) :
    Encodes n w (if p then a else b) ↔ (p → Encodes n w a) ∧ (¬ p → Encodes n w b) := by
  by_cases hp : p <;> simp [hp]

end Encodes

/-! ## The standard decoders (R106 to R113) -/

/-- A three-bit field holds one of its eight values. -/
theorem funct3_cases (f : BitVec 3) : f = 0b000#3 ∨ f = 0b001#3 ∨ f = 0b010#3 ∨ f = 0b011#3 ∨ f = 0b100#3 ∨
    f = 0b101#3 ∨ f = 0b110#3 ∨ f = 0b111#3 := by decide +revert

theorem shamtOf_eq_rs2Of (w : BitVec 32) : shamtOf w = rs2Of w := rfl

section Standard

variable {w : BitVec 32}

theorem decodeLoad_encodes (hop : opcodeOf w = opLoad) : Encodes 4 w (decodeLoad w) := by
  simp +contextual [decodeLoad, Instr.wf, Instr.size, encode, packI_eq_of_fields, hop]

theorem decodeStore_encodes (hop : opcodeOf w = opStore) : Encodes 4 w (decodeStore w) := by
  simp +contextual [decodeStore, Instr.wf, Instr.size, encode, packS_eq_of_fields, hop]

theorem lowZero_immBOf : lowZero 1 (immBOf w) = true := lowZero_append_zero _

theorem lowZero_immJOf : lowZero 1 (immJOf w) = true := lowZero_append_zero _

theorem decodeBranch_encodes (hop : opcodeOf w = opBranch) : Encodes 4 w (decodeBranch w) := by
  simp +contextual [decodeBranch, Instr.wf, Instr.size, encode, packB_eq_of_fields, hop, lowZero_immBOf]

theorem decodeAluImm_encodes (hop : opcodeOf w = opAluImm) : Encodes 4 w (decodeAluImm w) := by
  rcases funct3_cases (funct3Of w) with h3 | h3 | h3 | h3 | h3 | h3 | h3 | h3 <;>
    simp +contextual [decodeAluImm, h3, Instr.wf, Instr.size, encode, packI_eq_of_fields hop h3,
      packR_eq_of_fields hop h3, shamtOf_eq_rs2Of]

theorem decodeAluImm64_encodes (hop : opcodeOf w = opAluImm64) : Encodes 4 w (decodeAluImm64 w) := by
  rcases funct3_cases (funct3Of w) with h3 | h3 | h3 | h3 | h3 | h3 | h3 | h3 <;>
    simp +contextual [decodeAluImm64, h3, Instr.wf, Instr.size, encode, packI_eq_of_fields hop h3,
      packR_eq_of_fields hop h3, shamtOf_eq_rs2Of]

theorem decodeAluBase_encodes (hop : opcodeOf w = opAlu) (h7 : funct7Of w = 0b0000000#7) :
    Encodes 4 w (decodeAluBase w) := by
  rcases funct3_cases (funct3Of w) with h3 | h3 | h3 | h3 | h3 | h3 | h3 | h3 <;>
    simp [decodeAluBase, h3, Instr.wf, Instr.size, encode, packR_eq_of_fields hop h3 h7]

theorem decodeMulGroup_encodes (hop : opcodeOf w = opAlu) (h7 : funct7Of w = 0b0000001#7) :
    Encodes 4 w (decodeMulGroup w) := by
  rcases funct3_cases (funct3Of w) with h3 | h3 | h3 | h3 | h3 | h3 | h3 | h3 <;>
    simp [decodeMulGroup, h3, Instr.wf, Instr.size, encode, packR_eq_of_fields hop h3 h7]

theorem decodeAlu_encodes (hop : opcodeOf w = opAlu) : Encodes 4 w (decodeAlu w) := by
  simp +contextual [decodeAlu, Instr.wf, Instr.size, encode, packR_eq_of_fields hop, decodeAluBase_encodes hop,
    decodeMulGroup_encodes hop]

theorem decodeAtomic_encodes (hop : opcodeOf w = opAtomic) : Encodes 4 w (decodeAtomic w) := by
  simp +contextual [decodeAtomic, Instr.wf, Instr.size, encode, packAtomic_eq_of_fields, hop]

theorem decodeSystem_encodes (hop : opcodeOf w = opSystem) : Encodes 4 w (decodeSystem w) := by
  simp +contextual [decodeSystem, Instr.wf, Instr.size, encode, packI_eq_of_fields, packR_eq_of_fields, hop]

theorem decodeStandard_encodes : Encodes 4 w (decodeStandard w) := by
  by_cases hop : opcodeOf w ∈ Machine.primaryOpcodes
  · rcases (mem_primaryOpcodes_iff _).mp hop with h | h | h | h | h | h | h | h | h | h | h | h | h
    · rw [decodeStandard_load h]; exact decodeLoad_encodes h
    · rw [decodeStandard_fence h]; exact (encodes_ok _).mpr ⟨rfl, rfl, fence_eq_of_fields h⟩
    · rw [decodeStandard_aluImm h]; exact decodeAluImm_encodes h
    · rw [decodeStandard_auipc h]; exact (encodes_ok _).mpr ⟨rfl, rfl, packU_eq_of_fields h⟩
    · rw [decodeStandard_aluImm64 h]; exact decodeAluImm64_encodes h
    · rw [decodeStandard_store h]; exact decodeStore_encodes h
    · rw [decodeStandard_atomic h]; exact decodeAtomic_encodes h
    · rw [decodeStandard_alu h]; exact decodeAlu_encodes h
    · rw [decodeStandard_lui h]; exact (encodes_ok _).mpr ⟨rfl, rfl, packU_eq_of_fields h⟩
    · rw [decodeStandard_branch h]; exact decodeBranch_encodes h
    · rw [decodeStandard_jalr h, encodes_ite]
      exact ⟨fun h3 => (encodes_ok _).mpr ⟨rfl, rfl, packI_eq_of_fields h h3⟩, fun _ => encodes_unhandled w⟩
    · rw [decodeStandard_jal h]; exact (encodes_ok _).mpr ⟨lowZero_immJOf, rfl, packJ_eq_of_fields h⟩
    · rw [decodeStandard_system h]; exact decodeSystem_encodes h
  · rw [decodeStandard_unlistedOpcode hop]; exact encodes_error _

end Standard

/-! ## The compressed decoder (R344 to R375) -/

section Compressed

variable {c : BitVec 16}

theorem lowZero_cImm4spnOf : lowZero 2 (cImm4spnOf c) = true := lowZero_append_zero _

theorem lowZero_cImmLwOf : lowZero 2 (cImmLwOf c) = true := lowZero_append_zero _

theorem lowZero_cImmJOf : lowZero 1 (cImmJOf c) = true := lowZero_append_zero _

theorem lowZero_cImm16spOf : lowZero 4 (cImm16spOf c) = true := lowZero_append_zero _

theorem lowZero_cImmBOf : lowZero 1 (cImmBOf c) = true := lowZero_append_zero _

theorem decodeQuadrant0_encodes (hq : quadrantOf c = 0b00#2) : Encodes 2 (0#16 ++ c) (decodeQuadrant0 c) := by
  simp +contextual [decodeQuadrant0, Instr.wf, Instr.size, encode, pack4spn_eq_of_fields hq, packCLw_eq_of_fields hq,
    lowZero_cImm4spnOf, lowZero_cImmLwOf]

/-- The fields of a register form: `c[6:5]` and `rs2'` make up `c[6:2]`. -/
theorem packCA_eq_of_regFields (hq : quadrantOf c = 0b01#2) (h3 : cFunct3Of c = 0b100#3) (hb : cBit12Of c = 0#1)
    {sel k : BitVec 2} (hs : c.extractLsb' 10 2 = sel) (hk : c.extractLsb' 5 2 = k) :
    packCA 0#1 sel (cRs1'Of c) (k ++ cRs2'Of c) = c := by
  rw [← hk, cOp_fields]; exact packCA_eq_of_fields hq h3 hb hs

/-- The immediate of c.andi is `c[12]` above `c[6:2]` (R360). -/
theorem cImm6Of_split (c : BitVec 16) :
    (cImm6Of c).extractLsb' 5 1 = cBit12Of c ∧ (cImm6Of c).extractLsb' 0 5 = cRs2Of c :=
  ⟨BitVec.extractLsb'_append_eq_left, BitVec.extractLsb'_append_eq_right⟩

theorem bits2_cases (b : BitVec 2) : b = 0b00#2 ∨ b = 0b01#2 ∨ b = 0b10#2 ∨ b = 0b11#2 := by decide +revert

theorem decodeQuadrant1Alu_encodes (hq : quadrantOf c = 0b01#2) (h3 : cFunct3Of c = 0b100#3) :
    Encodes 2 (0#16 ++ c) (decodeQuadrant1Alu c) := by
  rcases bits2_cases (c.extractLsb' 10 2) with hs | hs | hs | hs
  · simp +contextual [decodeQuadrant1Alu, hs, Instr.wf, Instr.size, encode, packCA_eq_of_fields hq h3 _ hs]
  · simp +contextual [decodeQuadrant1Alu, hs, Instr.wf, Instr.size, encode, packCA_eq_of_fields hq h3 _ hs]
  · simp [decodeQuadrant1Alu, hs, Instr.wf, Instr.size, encode, cImm6Of_split, packCA_eq_of_fields hq h3 rfl hs]
  · rcases bits2_cases (c.extractLsb' 5 2) with hk | hk | hk | hk <;>
      simp +contextual [decodeQuadrant1Alu, hs, hk, Instr.wf, Instr.size, encode,
        packCA_eq_of_regFields hq h3 _ hs hk]

theorem decodeQuadrant1_encodes (hq : quadrantOf c = 0b01#2) : Encodes 2 (0#16 ++ c) (decodeQuadrant1 c) := by
  rcases funct3_cases (cFunct3Of c) with h3 | h3 | h3 | h3 | h3 | h3 | h3 | h3 <;>
    simp +contextual [decodeQuadrant1, h3, Instr.wf, Instr.size, encode, packCI_eq_of_fields hq h3,
      packCJ_eq_of_fields hq h3, packCB_eq_of_fields hq h3, decodeQuadrant1Alu_encodes hq, pack16sp_eq_of_fields hq,
      lowZero_cImmJOf, lowZero_cImmBOf, lowZero_cImm16spOf]

theorem bit_cases (b : BitVec 1) : b = 0#1 ∨ b = 1#1 := by decide +revert

theorem decodeQuadrant2_encodes (hq : quadrantOf c = 0b10#2) : Encodes 2 (0#16 ++ c) (decodeQuadrant2 c) := by
  rcases bit_cases (cBit12Of c) with hb | hb <;>
    simp +contextual [decodeQuadrant2, hb, Instr.wf, Instr.size, encode, packC_eq_of_allFields hq _ hb]

theorem decodeCompressed_encodes (h : quadrantOf c ≠ 0b11#2) : Encodes 2 (0#16 ++ c) (decodeCompressed c) := by
  rcases bits2_cases (quadrantOf c) with hq | hq | hq | hq
  · rw [decodeCompressed_quadrant0 hq]; exact decodeQuadrant0_encodes hq
  · rw [decodeCompressed_quadrant1 hq]; exact decodeQuadrant1_encodes hq
  · rw [decodeCompressed_quadrant2 hq]; exact decodeQuadrant2_encodes hq
  · exact absurd hq h

end Compressed

/-- Settles O2: `decodeStandard_encodes` for a standard word; for a compressed one `decodeCompressed_encodes`, whose
encoding has the halfword below zeros. -/
theorem encodeOfDecode : Obligations.EncodeOfDecode := by
  unfold Obligations.EncodeOfDecode
  intro w i h
  by_cases hlow : w.extractLsb' 0 2 = 0b11#2
  · rw [decode_standard hlow] at h
    obtain ⟨hwf, hsize, henc⟩ := decodeStandard_encodes i h
    exact ⟨hwf, .inl ⟨hlow, hsize, henc⟩⟩
  · rw [decode_compressed hlow] at h
    obtain ⟨hwf, hsize, henc⟩ := decodeCompressed_encodes (by rwa [← lowBits_quadrantOf]) i h
    exact ⟨hwf, .inr ⟨hlow, hsize, by rw [henc, lowHalf_compressed]⟩⟩

end Sys2Proof
end

section
/-! PROOFS. What every step does, whatever the instruction: read off from `step_cases` and from the `Effect` of an
execution. -/

namespace Sys2Proof.Machine

/-! ## The fetch changes the buses alone (R71, R141) -/

section Fetch

variable (s : State)

@[simp] theorem State.fetch_regs : s.fetch.2.regs = s.regs := rfl
@[simp] theorem State.fetch_pc : s.fetch.2.pc = s.pc := rfl
@[simp] theorem State.fetch_csr : s.fetch.2.csr = s.csr := rfl
@[simp] theorem State.fetch_halted : s.fetch.2.halted = s.halted := rfl
@[simp] theorem State.fetch_cfg : s.fetch.2.cfg = s.cfg := rfl

theorem State.fetch_memory : State.KeptMemory s s.fetch.2 := State.memRead_memory s s.pc 4

theorem State.fetch_touched : State.TouchedOnly s s.fetch.2 s.pc := State.memRead_touched s s.pc 4

theorem State.fetch_wf (h : Bus.wf s.bus = true) : Bus.wf s.fetch.2.bus = true := State.memRead_wf s s.pc 4 h

end Fetch

/-- A fatal error raised after the fetch is one of the step: the fetch changed nothing that the record or the frame
names. -/
theorem State.Raised.of_fetch {s t : State} {f : Fatal} (h : State.Raised s.fetch.2 t f) : State.Raised s t f :=
  ⟨h.halted, h.pc, h.regs, h.csr, h.cfg⟩

/-! ## The invariant -/

/-- Setting the record of a fatal error at `pc` keeps the invariant. -/
theorem State.Inv.raise {s : State} (h : s.Inv) (f : Fatal) : (s.raise f).Inv where
  zeroCell := h.zeroCell
  csrWf := h.csrWf
  csrBelow := h.csrBelow
  busWf := h.busWf
  table := h.table
  record r hr := by cases hr; rfl

theorem State.Inv.fetch {s : State} (h : s.Inv) : s.fetch.2.Inv where
  zeroCell := h.zeroCell
  csrWf := h.csrWf
  csrBelow := h.csrBelow
  busWf := s.fetch_wf h.busWf
  table := s.fetch_memory.shape.trans h.table
  record := h.record

/-- An instruction writes at most one CSR cell, below 4096, so the CSR file stays canonical and in range. -/
theorem Effect.csr_inv {i : Instr} {s t : State} (e : Effect i s t) (hwf : Cells.wf s.csr = true)
    (hbelow : Cells.below csrCount s.csr = true) : Cells.wf t.csr = true ∧ Cells.below csrCount t.csr = true := by
  rcases e.csrCell with hcsr | ⟨k, v, hk, hcsr⟩
  · rw [hcsr]; exact ⟨hwf, hbelow⟩
  · rw [hcsr]; exact ⟨Cells.wf_set k v hwf, Cells.below_set v hbelow hk⟩

/-- An instruction of a machine that is not halted keeps the invariant: it completes, or it records its own address. -/
theorem Effect.inv {i : Instr} {s t : State} (e : Effect i s t) (h : s.Inv) (hh : s.halted = none) : t.Inv := by
  obtain ⟨hcsrWf, hcsrBelow⟩ := e.csr_inv h.csrWf h.csrBelow
  have htable : Bus.shape t.bus = Config.tableShape t.cfg := by rw [e.shape, e.cfg, h.table]
  rcases e.ends with ⟨f, hr⟩ | ⟨hhalted, hcell, -⟩
  · refine ⟨?_, hcsrWf, hcsrBelow, e.wf h.busWf, htable, fun r h' => ?_⟩
    · simpa only [hr.regs] using h.zeroCell
    · rw [hr.halted] at h'
      cases h'
      exact hr.pc.symm
  · refine ⟨hcell, hcsrWf, hcsrBelow, e.wf h.busWf, htable, fun r h' => ?_⟩
    rw [hhalted, hh] at h'
    cases h'

/-- Settles O18: a halted machine stands; the fetch, a fatal error after it, and the executed instruction each keep the
invariant. -/
theorem stepKeepsInvariant : Obligations.StepKeepsInvariant := by
  unfold Obligations.StepKeepsInvariant
  intro s t hinv hstep
  rcases step_cases s with ⟨-, hs⟩ | ⟨hh, ⟨f, hs⟩ | ⟨w, i, -, -, hs⟩⟩ <;> rw [hs] at hstep
  · cases hstep; exact hinv
  · cases hstep; exact hinv.fetch.raise f
  · exact (Effect.of_exec hstep).inv hinv.fetch hh

/-! ## Outcomes -/

/-- Settles O11: `exec_effect` for an instruction; `step_cases` leaves a step no outcome but a next state. -/
theorem everyStepAnswersNext : Obligations.EveryStepAnswersNext := by
  unfold Obligations.EveryStepAnswersNext
  have hexec (i : Instr) (s : State) : ∃ t, exec i s = .next t := (exec_effect i s).imp fun _ h => h.1
  refine ⟨fun s => ?_, hexec⟩
  rcases step_cases s with ⟨-, hs⟩ | ⟨-, ⟨f, hs⟩ | ⟨w, i, -, -, hs⟩⟩
  · exact ⟨s, hs⟩
  · exact ⟨_, hs⟩
  · obtain ⟨t, ht⟩ := hexec i s.fetch.2
    exact ⟨t, hs.trans ht⟩

theorem step_halted {s : State} (h : s.halted ≠ none) : step s = .next s := by
  rcases step_cases s with ⟨-, hs⟩ | ⟨hh, -⟩
  · exact hs
  · exact absurd hh h

/-- Settles O10, by induction on the number of step requests. -/
theorem haltedMachineStands : Obligations.HaltedMachineStands := by
  unfold Obligations.HaltedMachineStands
  intro s n h
  induction n with
  | zero => rfl
  | succ n ih => rw [State.after, step_halted h]; exact ih

/-! ## What no step changes (R31, R51, R66) -/

/-- What a run keeps: the ROMs, the region table and the configuration. -/
def SameTable (s t : State) : Prop :=
  Bus.romContents t.bus = Bus.romContents s.bus ∧ Bus.shape t.bus = Bus.shape s.bus ∧ t.cfg = s.cfg

theorem SameTable.trans {s t u : State} (h : SameTable s t) (h' : SameTable t u) : SameTable s u :=
  ⟨h'.1.trans h.1, h'.2.1.trans h.2.1, h'.2.2.trans h.2.2⟩

theorem sameTable_fetch (s : State) : SameTable s s.fetch.2 := ⟨s.fetch_memory.rom, s.fetch_memory.shape, rfl⟩

theorem step_sameTable {s t : State} (h : step s = .next t) : SameTable s t := by
  rcases step_cases s with ⟨-, hs⟩ | ⟨-, ⟨f, hs⟩ | ⟨w, i, -, -, hs⟩⟩ <;> rw [hs] at h
  · cases h; exact ⟨rfl, rfl, rfl⟩
  · cases h; exact sameTable_fetch s
  · have e := Effect.of_exec h
    exact (sameTable_fetch s).trans ⟨e.rom, e.shape, e.cfg⟩

/-- Settles O17, by induction on the number of steps with `step_sameTable`. -/
theorem romAndTableNeverChange : Obligations.RomAndTableNeverChange := by
  unfold Obligations.RomAndTableNeverChange
  intro n
  induction n with
  | zero => intro s t h; cases h; exact ⟨rfl, rfl, rfl⟩
  | succ n ih =>
    intro s t h
    rw [State.after] at h
    rcases hs : step s with u | f | r <;> rw [hs] at h
    · exact (step_sameTable hs).trans (ih u t h)
    · cases h
    · cases h

/-! ## How a step ends (R144 to R150) -/

/-- Settles O12: whether the fetch, the decoder or the instruction raised it, the error is `State.Raised`; a completed
instruction leaves `halted` as it was. -/
theorem fatalErrorIsPrecise : Obligations.FatalErrorIsPrecise := by
  unfold Obligations.FatalErrorIsPrecise
  intro s t r hh hstep hr
  obtain ⟨hrom, hshape, -⟩ := step_sameTable hstep
  have hstands : step t = .next t := step_halted (by rw [hr]; exact Option.some_ne_none r)
  suffices ∃ f, State.Raised s t f by
    obtain ⟨f, hf⟩ := this
    have hrec := hf.halted
    rw [hr] at hrec
    cases hrec
    exact ⟨hf, hrom, hshape, hstands⟩
  rcases step_cases s with ⟨hne, -⟩ | ⟨-, ⟨f, hs⟩ | ⟨w, i, -, -, hs⟩⟩
  · exact absurd hh hne
  · rw [hs] at hstep
    cases hstep
    exact ⟨f, State.raised_fetch s f⟩
  · rw [hs] at hstep
    rcases (Effect.of_exec hstep).ends with ⟨f, hf⟩ | ⟨hhalted, -⟩
    · exact ⟨f, hf.of_fetch⟩
    · rw [hr, State.fetch_halted, hh] at hhalted
      cases hhalted

/-- Settles O13: a step that leaves `halted` unset executed an instruction that completed. -/
theorem completedStepAdvances : Obligations.CompletedStepAdvances := by
  unfold Obligations.CompletedStepAdvances
  intro s t hh hstep ht
  rcases step_cases s with ⟨hne, -⟩ | ⟨-, ⟨f, hs⟩ | ⟨w, i, hfetch, hdec, hs⟩⟩
  · exact absurd hh hne
  · rw [hs] at hstep
    cases hstep
    cases ht
  · rw [hs] at hstep
    rcases (Effect.of_exec hstep).ends with ⟨f, hf⟩ | ⟨-, hcell, -, hpc⟩
    · rw [hf.halted] at ht
      cases ht
    · exact ⟨hcell, w, i, hfetch, hdec, hpc⟩

/-! ## Frames of one instruction -/

/-- Settles O14: a fatal error changes no register cell, a completed instruction only its destination. -/
theorem onlyDestinationChanges : Obligations.OnlyDestinationChanges := by
  unfold Obligations.OnlyDestinationChanges
  intro i s t h r hr
  rcases (Effect.of_exec h).ends with ⟨f, hf⟩ | ⟨-, -, hothers, -⟩
  · exact State.getX_congr hf.regs r
  · exact hothers r hr

/-- Settles O15: both parts stand in the `Effect` of the instruction. -/
theorem csrsBelongToCsrInstructions : Obligations.CsrsBelongToCsrInstructions := by
  unfold Obligations.CsrsBelongToCsrInstructions
  intro i s t hcsr h
  exact ⟨(Effect.of_exec h).csr hcsr, (Effect.of_exec h).independent hcsr⟩

/-- Settles O16: the bytes and the table stand in the `Effect` of the instruction, the touched tuple in `exec_touched`; the
fetch is a read. -/
theorem onlyStoresWriteMemory : Obligations.OnlyStoresWriteMemory := by
  unfold Obligations.OnlyStoresWriteMemory
  refine ⟨fun i s t h hspan => ?_, fun i s t a n h hspan => ?_, fun s => ⟨s.fetch_memory, s.fetch_touched⟩⟩
  · have e := Effect.of_exec h
    exact ⟨e.keeps hspan, e.shape, e.rom⟩
  · have e := Effect.of_exec h
    exact ⟨e.keepsOutside a n hspan, e.shape, e.rom, exec_touched h hspan⟩

/-! ## The fetched word (R60, R141) -/

theorem step_decoded {s s1 : State} {w : BitVec 32} {i : Instr} (hh : s.halted = none) (hf : s.fetch = (.ok w, s1))
    (hd : decode w = .ok i) : step s = exec i s1 := by
  simp only [step, hh, hf, hd]

/-- Four bytes as a word, the lowest address in the low bits. -/
theorem leValue_four (b0 b1 b2 b3 : Byte) : (leValue [b0, b1, b2, b3]).setWidth 32 = b3 ++ b2 ++ b1 ++ b0 := by
  apply BitVec.eq_of_getLsbD_eq
  intro i hi
  simp only [leValue, BitVec.getLsbD_setWidth, BitVec.getLsbD_or, BitVec.getLsbD_shiftLeft, BitVec.getLsbD_append]
  interval_cases i <;> simp

theorem State.fetch_holds {s : State} {b0 b1 b2 b3 : Byte} (h : s.holdsBytes s.pc [b0, b1, b2, b3]) :
    s.fetch = (.ok (b3 ++ b2 ++ b1 ++ b0), s) := by
  have hread : s.memRead s.pc 4 = (.ok (leValue [b0, b1, b2, b3]), s) := State.memRead_holds s s.pc _ h (by simp)
  simp only [State.fetch, hread, Except.map, leValue_four]

/-- Settles O8: `step_decoded` for any fetch; four bytes of a buffer are fetched as the word they make. -/
theorem stepRunsDecodedInstruction : Obligations.StepRunsDecodedInstruction := by
  unfold Obligations.StepRunsDecodedInstruction
  exact ⟨fun s s1 w i hh hf hd => step_decoded hh hf hd,
    fun s b0 b1 b2 b3 i hh hb hd => step_decoded hh (State.fetch_holds hb) hd⟩

end Sys2Proof.Machine
end

section
/-! PROOFS. Which words the decoder accepts, and the step on a halfword or on fields that are no instruction. -/

namespace Sys2Proof

/-! ## Acceptance -/

/-- The decoder's answer is an instruction. -/
def Accepts (d : Decoded) : Prop := ∃ i, d = .ok i

@[simp] theorem accepts_ok (i : Instr) : Accepts (.ok i) := ⟨i, rfl⟩

@[simp] theorem not_accepts_error (e : DecodeError) : ¬ Accepts (.error e) := fun ⟨_, h⟩ => by cases h

@[simp] theorem not_accepts_unhandled (w : BitVec 32) : ¬ Accepts (unhandled w) := not_accepts_error _

@[simp] theorem not_accepts_illegal (c : BitVec 16) : ¬ Accepts (illegal c) := not_accepts_error _

@[simp] theorem accepts_ite (p : Prop) [Decidable p] (a b : Decoded) :
    Accepts (if p then a else b) ↔ (p → Accepts a) ∧ (¬ p → Accepts b) := by
  by_cases hp : p <;> simp [hp]

/-- A decoder that can answer one error answers it wherever it does not accept. -/
theorem OnlyError.of_not_accepts {e : DecodeError} {d : Decoded} (h : OnlyError e d) (hn : ¬ Accepts d) :
    d = .error e := by
  rcases d with e' | i
  · rw [h e' rfl]
  · exact absurd (accepts_ok i) hn

/-! ## Standard words (R106 to R113) -/

section AcceptsStandard

variable (w : BitVec 32)

theorem decodeLoad_accepts : Accepts (decodeLoad w) ↔ funct3Of w ≠ 0b111#3 := by
  rcases funct3_cases (funct3Of w) with h | h | h | h | h | h | h | h <;> simp [decodeLoad, h]

theorem decodeStore_accepts : Accepts (decodeStore w) ↔
    funct3Of w = 0b000#3 ∨ funct3Of w = 0b001#3 ∨ funct3Of w = 0b010#3 ∨ funct3Of w = 0b011#3 := by
  rcases funct3_cases (funct3Of w) with h | h | h | h | h | h | h | h <;> simp [decodeStore, h]

theorem decodeBranch_accepts : Accepts (decodeBranch w) ↔ funct3Of w ≠ 0b010#3 ∧ funct3Of w ≠ 0b011#3 := by
  rcases funct3_cases (funct3Of w) with h | h | h | h | h | h | h | h <;> simp [decodeBranch, h]

theorem decodeAluImm_accepts : Accepts (decodeAluImm w) ↔
    (funct3Of w = 0b001#3 → funct7Of w = 0b0000000#7) ∧
    (funct3Of w = 0b101#3 → funct7Of w = 0b0000000#7 ∨ funct7Of w = 0b0100000#7) := by
  rcases funct3_cases (funct3Of w) with h | h | h | h | h | h | h | h <;>
    simp [decodeAluImm, h, or_iff_not_imp_left]

theorem decodeAluImm64_accepts : Accepts (decodeAluImm64 w) ↔
    funct3Of w = 0b000#3 ∨ (funct3Of w = 0b001#3 ∧ funct7Of w = 0b0000000#7) ∨
    (funct3Of w = 0b101#3 ∧ (funct7Of w = 0b0000000#7 ∨ funct7Of w = 0b0100000#7)) := by
  rcases funct3_cases (funct3Of w) with h | h | h | h | h | h | h | h <;>
    simp [decodeAluImm64, h, or_iff_not_imp_left]

theorem decodeAlu_accepts : Accepts (decodeAlu w) ↔ funct7Of w = 0b0000000#7 ∨ funct7Of w = 0b0000001#7 ∨
    (funct7Of w = 0b0100000#7 ∧ (funct3Of w = 0b000#3 ∨ funct3Of w = 0b101#3)) := by
  by_cases h0 : funct7Of w = 0b0000000#7
  · simp [decodeAlu, decodeAluBase, h0]
  · by_cases h32 : funct7Of w = 0b0100000#7
    · simp [decodeAlu, h32, or_iff_not_imp_left]
    · simp [decodeAlu, decodeMulGroup, h0, h32]

theorem decodeAtomic_accepts : Accepts (decodeAtomic w) ↔ (funct3Of w = 0b010#3 ∨ funct3Of w = 0b011#3) ∧
    (funct5Of w = 0b00010#5 ∨ funct5Of w = 0b00011#5 ∨ funct5Of w = 0b00001#5) := by
  rcases funct3_cases (funct3Of w) with h | h | h | h | h | h | h | h <;>
    simp [decodeAtomic, h, or_iff_not_imp_left]

theorem decodeSystem_accepts : Accepts (decodeSystem w) ↔
    w = 0x00000073#32 ∨ w = 0x00100073#32 ∨ (funct3Of w ≠ 0b000#3 ∧ funct3Of w ≠ 0b100#3) := by
  rcases funct3_cases (funct3Of w) with h | h | h | h | h | h | h | h <;>
    simp [decodeSystem, h, or_iff_not_imp_left]

/-- `listedFields` at a known opcode is the line of its table for that opcode. -/
theorem decodeStandard_accepts {w : BitVec 32} (hop : opcodeOf w ∈ Machine.primaryOpcodes) :
    Accepts (decodeStandard w) ↔ Machine.listedFields w := by
  unfold Machine.listedFields
  rcases (mem_primaryOpcodes_iff _).mp hop with h | h | h | h | h | h | h | h | h | h | h | h | h <;>
    rw [show w.extractLsb' 0 7 = _ from h]
  · rw [decodeStandard_load h]; exact decodeLoad_accepts w
  · rw [decodeStandard_fence h]; exact iff_of_true (accepts_ok _) trivial
  · rw [decodeStandard_aluImm h]; exact decodeAluImm_accepts w
  · rw [decodeStandard_auipc h]; exact iff_of_true (accepts_ok _) trivial
  · rw [decodeStandard_aluImm64 h]; exact decodeAluImm64_accepts w
  · rw [decodeStandard_store h]; exact decodeStore_accepts w
  · rw [decodeStandard_atomic h]; exact decodeAtomic_accepts w
  · rw [decodeStandard_alu h]; exact decodeAlu_accepts w
  · rw [decodeStandard_lui h]; exact iff_of_true (accepts_ok _) trivial
  · rw [decodeStandard_branch h]; exact decodeBranch_accepts w
  · rw [decodeStandard_jalr h, accepts_ite]
    exact ⟨fun ha => by_contra fun h3 => not_accepts_unhandled w (ha.2 h3), fun h3 => ⟨fun _ => accepts_ok _, absurd h3⟩⟩
  · rw [decodeStandard_jal h]; exact iff_of_true (accepts_ok _) trivial
  · rw [decodeStandard_system h]; exact decodeSystem_accepts w

/-- The thirteen opcodes all end in `0b11`. -/
theorem lowBits_of_primaryOpcode {w : BitVec 32} (hop : opcodeOf w ∈ Machine.primaryOpcodes) :
    w.extractLsb' 0 2 = 0b11#2 := by
  rw [lowBits_opcodeOf]
  generalize opcodeOf w = op at hop
  revert op
  decide

end AcceptsStandard

/-! ## Compressed halfwords (R117, R118) -/

theorem toNat_append_eq_zero_iff {v w : Nat} (x : BitVec v) (y : BitVec w) :
    (x ++ y).toNat = 0 ↔ x.toNat = 0 ∧ y.toNat = 0 := by
  rw [BitVec.toNat_append, Nat.or_eq_zero_iff, Nat.shiftLeft_eq_zero_iff]

section AcceptsCompressed

variable (c : BitVec 16)

theorem nzuimmField_split : c.extractLsb' 5 8 =
    c.extractLsb' 11 2 ++ c.extractLsb' 7 4 ++ c.extractLsb' 6 1 ++ c.extractLsb' 5 1 := by
  apply BitVec.eq_of_getLsbD_eq
  intro i hi
  simp only [BitVec.getLsbD_append, BitVec.getLsbD_extractLsb']
  interval_cases i <;> simp

theorem cRs2Of_split : cRs2Of c =
    c.extractLsb' 6 1 ++ c.extractLsb' 5 1 ++ c.extractLsb' 3 2 ++ c.extractLsb' 2 1 := by
  apply BitVec.eq_of_getLsbD_eq
  intro i hi
  simp only [cRs2Of, BitVec.getLsbD_append, BitVec.getLsbD_extractLsb']
  interval_cases i <;> simp

/-- The immediate of c.addi4spn is zero when its field is: the pieces are the same in another order (R344). -/
theorem cImm4spnOf_eq_zero_iff : cImm4spnOf c = 0#10 ↔ c.extractLsb' 5 8 = 0#8 := by
  rw [nzuimmField_split]
  simp only [cImm4spnOf, BitVec.toNat_eq, BitVec.toNat_ofNat, Nat.zero_mod, toNat_append_eq_zero_iff]
  tauto

theorem cImm6Of_eq_zero_iff : cImm6Of c = 0#6 ↔ cBit12Of c = 0#1 ∧ cRs2Of c = 0#5 := by
  simp only [cImm6Of, cBit12Of, cRs2Of, BitVec.toNat_eq, BitVec.toNat_ofNat, Nat.zero_mod, toNat_append_eq_zero_iff]

theorem cImm16spOf_eq_zero_iff : cImm16spOf c = 0#10 ↔ cBit12Of c = 0#1 ∧ cRs2Of c = 0#5 := by
  rw [cRs2Of_split]
  simp only [cImm16spOf, cBit12Of, BitVec.toNat_eq, BitVec.toNat_ofNat, Nat.zero_mod, toNat_append_eq_zero_iff]
  tauto

/-- The list of R118 in the decoder's names of the fields. -/
theorem illegalHalf_iff_fields : Machine.illegalHalf c ↔
    (quadrantOf c = 0b00#2 ∧ (cFunct3Of c = 0b001#3 ∨ cFunct3Of c = 0b011#3 ∨ cFunct3Of c = 0b100#3 ∨
      cFunct3Of c = 0b101#3 ∨ cFunct3Of c = 0b111#3)) ∨
    (quadrantOf c = 0b00#2 ∧ cFunct3Of c = 0b000#3 ∧ c.extractLsb' 5 8 = 0#8) ∨
    (quadrantOf c = 0b01#2 ∧ cFunct3Of c = 0b011#3 ∧ cBit12Of c = 0#1 ∧ cRs2Of c = 0#5) ∨
    (quadrantOf c = 0b01#2 ∧ cFunct3Of c = 0b100#3 ∧ c.extractLsb' 10 2 = 0b11#2 ∧ cBit12Of c = 1#1) ∨
    (quadrantOf c = 0b01#2 ∧ cFunct3Of c = 0b100#3 ∧ (c.extractLsb' 10 2 = 0b00#2 ∨ c.extractLsb' 10 2 = 0b01#2) ∧
      cBit12Of c = 1#1) ∨
    (quadrantOf c = 0b10#2 ∧ (cFunct3Of c = 0b001#3 ∨ cFunct3Of c = 0b010#3 ∨ cFunct3Of c = 0b011#3 ∨
      cFunct3Of c = 0b101#3 ∨ cFunct3Of c = 0b110#3 ∨ cFunct3Of c = 0b111#3)) ∨
    (quadrantOf c = 0b10#2 ∧ cFunct3Of c = 0b000#3 ∧ cBit12Of c = 1#1) ∨
    (quadrantOf c = 0b10#2 ∧ cFunct3Of c = 0b100#3 ∧ cBit12Of c = 0#1 ∧ cRs2Of c = 0#5 ∧ cRdOf c = 0#5) := Iff.rfl

variable {c}

theorem decodeQuadrant0_accepts (hq : quadrantOf c = 0b00#2) :
    Accepts (decodeQuadrant0 c) ↔ ¬ Machine.illegalHalf c := by
  rw [illegalHalf_iff_fields]
  rcases funct3_cases (cFunct3Of c) with h | h | h | h | h | h | h | h <;>
    simp [decodeQuadrant0, hq, h, cImm4spnOf_eq_zero_iff]

theorem decodeQuadrant1Alu_accepts (hq : quadrantOf c = 0b01#2) (h3 : cFunct3Of c = 0b100#3) :
    Accepts (decodeQuadrant1Alu c) ↔ ¬ Machine.illegalHalf c := by
  rw [illegalHalf_iff_fields]
  rcases bits2_cases (c.extractLsb' 10 2) with hs | hs | hs | hs <;>
    rcases bit_cases (cBit12Of c) with hb | hb <;> simp [decodeQuadrant1Alu, hq, h3, hs, hb]

theorem decodeQuadrant1_accepts (hq : quadrantOf c = 0b01#2) :
    Accepts (decodeQuadrant1 c) ↔ ¬ Machine.illegalHalf c := by
  by_cases h4 : cFunct3Of c = 0b100#3
  · rw [← decodeQuadrant1Alu_accepts hq h4]
    simp [decodeQuadrant1, h4]
  · rw [illegalHalf_iff_fields]
    by_cases h3 : cFunct3Of c = 0b011#3
    · by_cases hrd : cRdOf c = 2 <;>
        simp [decodeQuadrant1, hq, h3, hrd, cImm16spOf_eq_zero_iff, cImm6Of_eq_zero_iff]
    · simp [decodeQuadrant1, hq, h3, h4]

theorem decodeQuadrant2_accepts (hq : quadrantOf c = 0b10#2) :
    Accepts (decodeQuadrant2 c) ↔ ¬ Machine.illegalHalf c := by
  rw [illegalHalf_iff_fields]
  rcases bit_cases (cBit12Of c) with hb | hb <;>
    rcases funct3_cases (cFunct3Of c) with h | h | h | h | h | h | h | h <;> simp [decodeQuadrant2, hq, hb, h]

theorem decodeCompressed_accepts (h : quadrantOf c ≠ 0b11#2) :
    Accepts (decodeCompressed c) ↔ ¬ Machine.illegalHalf c := by
  rcases bits2_cases (quadrantOf c) with hq | hq | hq | hq
  · rw [decodeCompressed_quadrant0 hq]; exact decodeQuadrant0_accepts hq
  · rw [decodeCompressed_quadrant1 hq]; exact decodeQuadrant1_accepts hq
  · rw [decodeCompressed_quadrant2 hq]; exact decodeQuadrant2_accepts hq
  · exact absurd hq h

end AcceptsCompressed

/-- The decoder answers "illegal compressed" for the halfwords of R118, for no other. -/
theorem decode_illegalCompressed_iff (w : BitVec 32) (c : BitVec 16) : decode w = .error (.illegalCompressed c) ↔
    w.extractLsb' 0 2 ≠ 0b11#2 ∧ c = w.extractLsb' 0 16 ∧ Machine.illegalHalf c := by
  by_cases hlow : w.extractLsb' 0 2 = 0b11#2
  · have hne : decode w ≠ .error (.illegalCompressed c) := fun h => by
      rw [decode_standard hlow] at h
      by_cases hop : opcodeOf w ∈ Machine.primaryOpcodes
      · cases decodeStandard_listedOpcode hop _ h
      · rw [decodeStandard_unlistedOpcode hop] at h; cases h
    simp [hne, hlow]
  · have haccepts := decodeCompressed_accepts (c := w.extractLsb' 0 16) (by rwa [← lowBits_quadrantOf])
    have honly := decodeCompressed_onlyError (w.extractLsb' 0 16)
    rw [decode_compressed hlow]
    constructor
    · intro h
      have hc : c = w.extractLsb' 0 16 := by cases honly _ h; rfl
      have hill : Machine.illegalHalf (w.extractLsb' 0 16) := by
        by_contra hn
        obtain ⟨i, hi⟩ := haccepts.mpr hn
        rw [hi] at h
        cases h
      exact ⟨hlow, hc, hc ▸ hill⟩
    · rintro ⟨-, rfl, hill⟩
      exact honly.of_not_accepts fun ha => haccepts.mp ha hill

/-- A halfword of the pattern of R369 is the one that c.slli64 reports (log entry 15). -/
theorem slli64Half_of_pattern {c : BitVec 16} (h : Machine.slli64Pattern c) :
    Machine.slli64Half (cRdOf c) = c := by
  obtain ⟨hq, h3, hb, hrs2⟩ := h
  exact packC_eq_of_allFields hq h3 hb rfl hrs2

theorem decode_slli64Pattern {w : BitVec 32} (h : Machine.slli64Pattern (w.extractLsb' 0 16)) :
    decode w = .ok (.cSlli64 (cRdOf (w.extractLsb' 0 16))) := by
  obtain ⟨hq, h3, hb, hrs2⟩ := h
  have hlow : w.extractLsb' 0 2 ≠ 0b11#2 := by
    rw [lowBits_quadrantOf, show quadrantOf (w.extractLsb' 0 16) = 0b10#2 from hq]
    decide
  rw [decode_compressed hlow, decodeCompressed_quadrant2 hq]
  simp [decodeQuadrant2, show cFunct3Of (w.extractLsb' 0 16) = 0b000#3 from h3,
    show cBit12Of (w.extractLsb' 0 16) = 0#1 from hb, show cRs2Of (w.extractLsb' 0 16) = 0#5 from hrs2]

/-- Settles O4: each word is evaluated. -/
theorem sampleWords : Obligations.SampleWords := by
  unfold Obligations.SampleWords
  decide

namespace Machine

theorem exec_cSlli64 (rd : Reg) (s : State) :
    exec (.cSlli64 rd) s = .next (s.raise (.decodeCompressed (slli64Half rd))) := rfl

/-- Settles O6: the decoder stops the step at the halfwords of R118, the instruction itself at those of c.slli64. -/
theorem illegalCompressedIsFatal : Obligations.IllegalCompressedIsFatal := by
  unfold Obligations.IllegalCompressedIsFatal
  refine ⟨fun s s1 w hh hf hlow hc => ?_, decode_illegalCompressed_iff⟩
  rcases hc with hill | hpat
  · exact step_decodeError hh hf ((decode_illegalCompressed_iff w _).mpr ⟨hlow, rfl, hill⟩)
  · have hs1 : s1 = s.fetch.2 := by rw [hf]
    have hstep := step_decoded hh hf (decode_slli64Pattern hpat)
    rw [exec_cSlli64, slli64Half_of_pattern hpat, hs1] at hstep
    rw [hs1]
    exact ⟨_, hstep, State.raised_fetch s _, rfl⟩

/-- Settles O7: a listed opcode's decoder accepts exactly the fields of its list, and answers "unhandled" else. -/
theorem unlistedFieldsAreFatal : Obligations.UnlistedFieldsAreFatal := by
  unfold Obligations.UnlistedFieldsAreFatal
  refine ⟨fun s s1 w hh hf hop hn => ?_, fun w hop hl => ?_⟩
  · have hdec : decode w = .error (.unhandled (opcodeOf w) w) := by
      rw [decode_standard (lowBits_of_primaryOpcode hop)]
      exact (decodeStandard_listedOpcode hop).of_not_accepts fun ha => hn ((decodeStandard_accepts hop).mp ha)
    exact step_decodeError hh hf hdec
  · rw [decode_standard (lowBits_of_primaryOpcode hop)]
    exact (decodeStandard_accepts hop).mpr hl

end Machine

end Sys2Proof
end

section
/-! PROOFS. The state after reset, the errors of setup, and the host's operations. -/

namespace Sys2Proof.Machine

/-! ## The state after reset (R34, R35, R442) -/

theorem Bus.ofConfig_shape (cfg : Config) : Bus.shape (Bus.ofConfig cfg) = Config.tableShape cfg := by
  simp only [Bus.shape, Bus.ofConfig, Config.tableShape, List.map_map]
  refine List.map_congr_left fun ⟨start, stop, kind⟩ _ => ?_
  cases kind <;> rfl

theorem State.resetFor_inv (cfg : Config) : (State.resetFor cfg).Inv where
  zeroCell := by simp
  csrWf := rfl
  csrBelow := rfl
  busWf := Bus.ofConfig_wf cfg
  table := Bus.ofConfig_shape cfg
  record r h := by cases h

theorem State.Inv.uartReceive {s : State} (h : s.Inv) (b : Byte) : (s.uartReceive b).Inv where
  zeroCell := h.zeroCell
  csrWf := h.csrWf
  csrBelow := h.csrBelow
  busWf := Bus.uartReceive_wf b s.bus h.busWf
  table := (Bus.uartReceive_shape b s.bus).trans h.table
  record := h.record

/-- Settles O19: `State.resetFor_inv` for every configuration, which the host's reset applies to the machine's own;
`uart_receive` touches the buses alone. -/
theorem resetHasInvariant : Obligations.ResetHasInvariant := by
  unfold Obligations.ResetHasInvariant
  exact ⟨State.resetFor_inv _, State.resetFor_inv, fun s => State.resetFor_inv s.cfg, fun s b h => h.uartReceive b⟩

theorem State.resetFor_getX (cfg : Config) (r : Reg) : (State.resetFor cfg).getX r = 0 := by
  simp [State.getX]

/-- A loaded buffer holds the image inside its size and zeros after it (R35, R67). -/
theorem Memory.get_ofImage_take (size : Nat) (bs : List Byte) (o : Nat) :
    Cells.get (Memory.ofImage 0 (bs.take size)) o = if o < size then bs.getD o 0 else 0 := by
  have h := Memory.get_ofImage 0 (bs.take size) o
  rw [Nat.zero_add] at h
  rw [h, List.getD_eq_getElem?_getD, List.getElem?_take]
  split
  · rw [List.getD_eq_getElem?_getD]
  · rfl

/-- Settles O59: each field is as `State.resetFor` sets it; tuple `j` of the bus is made of tuple `j` of the table. -/
theorem resetState : Obligations.ResetState := by
  unfold Obligations.ResetState
  intro cfg
  refine ⟨rfl, State.resetFor_getX cfg, fun k => rfl, rfl, List.length_map _, fun j e he => ?_, fun t ht => ?_⟩
  · refine ⟨{ start := e.start, stop := e.stop, region := Region.ofKind cfg.uartLsrReset e.kind }, ?_, rfl, rfl, ?_⟩
    · simp only [State.resetFor_bus, Bus.ofConfig, List.getElem?_map, he, Option.map_some]
    · rcases e.kind with ⟨size, image⟩ | ⟨size, image⟩ | _
      · exact ⟨_, rfl, Memory.get_ofImage_take size _⟩
      · exact ⟨_, rfl, Memory.get_ofImage_take size _⟩
      · exact ⟨_, rfl, rfl, rfl, rfl, rfl, rfl, rfl, rfl⟩
  · rw [State.hostReset, ht]

/-! ## The errors of setup (R65, R67, R399) -/

/-- The RAM of the tuple is over the cap (R65). -/
def RegionOversized (cap : Nat) (e : RegionEntry) : Prop := ∃ size image, e.kind = .ram size image ∧ cap < size

/-- The image of the tuple is missing or larger than its region (R67). -/
def RegionUnfit (e : RegionEntry) : Prop := ∃ size image, (e.kind = .ram size image ∨ e.kind = .rom size image) ∧
  (image = .missing ∨ ∃ bs, image = .bytes bs ∧ size < bs.length)

/-- `f` answers the place of the first tuple for which `P` holds, counted from its first argument. -/
structure FirstPlace (P : RegionEntry → Prop) (f : Nat → List RegionEntry → Option Nat) : Prop where
  nil : ∀ i, f i [] = none
  hit : ∀ i e rest, P e → f i (e :: rest) = some i
  miss : ∀ i e rest, ¬ P e → f i (e :: rest) = f (i + 1) rest

section FirstPlace

variable {P : RegionEntry → Prop} {f : Nat → List RegionEntry → Option Nat} (h : FirstPlace P f)
include h

theorem FirstPlace.none_iff (i : Nat) (l : List RegionEntry) : f i l = none ↔ ∀ e ∈ l, ¬ P e := by
  induction l generalizing i with
  | nil => simp [h.nil]
  | cons e rest ih =>
    by_cases he : P e
    · simp [h.hit i e rest he, he]
    · simp [h.miss i e rest he, he, ih]

theorem FirstPlace.of_some {i j : Nat} {l : List RegionEntry} (hj : f i l = some j) :
    ∃ k e, j = i + k ∧ l[k]? = some e ∧ P e := by
  induction l generalizing i with
  | nil => rw [h.nil] at hj; cases hj
  | cons e rest ih =>
    by_cases he : P e
    · rw [h.hit i e rest he] at hj
      cases hj
      exact ⟨0, e, rfl, rfl, he⟩
    · rw [h.miss i e rest he] at hj
      obtain ⟨k, e', rfl, hk, hP⟩ := ih hj
      exact ⟨k + 1, e', by omega, hk, hP⟩

/-- Counted from 0, the place is that in the whole list. -/
theorem FirstPlace.entry_of_some {j : Nat} {l : List RegionEntry} (hj : f 0 l = some j) :
    ∃ e, l[j]? = some e ∧ P e := by
  obtain ⟨k, e, rfl, hk, hP⟩ := h.of_some hj
  exact ⟨e, by rwa [Nat.zero_add], hP⟩

end FirstPlace

theorem ramTooLarge_firstPlace (cap : Nat) : FirstPlace (RegionOversized cap) (ramTooLarge cap) where
  nil _ := rfl
  hit i e rest := by
    rintro ⟨size, image, hk, hlt⟩
    simp only [ramTooLarge, hk, hlt, if_true]
  miss i e rest hn := by
    rcases hk : e.kind with ⟨size, image⟩ | ⟨size, image⟩ | _ <;> simp only [ramTooLarge, hk]
    exact if_neg fun hlt => hn ⟨size, image, hk, hlt⟩

theorem Image.unfit_iff (size : Nat) (image : Image) :
    Image.unfit size image = true ↔ image = .missing ∨ ∃ bs, image = .bytes bs ∧ size < bs.length := by
  cases image <;> simp [Image.unfit]

theorem imageUnfit_firstPlace : FirstPlace RegionUnfit imageUnfit where
  nil _ := rfl
  hit i e rest := by
    rintro ⟨size, image, hk | hk, hu⟩ <;> simp only [imageUnfit, hk, (Image.unfit_iff size image).mpr hu, if_true]
  miss i e rest hn := by
    rcases hk : e.kind with ⟨size, image⟩ | ⟨size, image⟩ | _ <;> simp only [imageUnfit, hk]
    · exact if_neg fun hu => hn ⟨size, image, .inl hk, (Image.unfit_iff size image).mp hu⟩
    · exact if_neg fun hu => hn ⟨size, image, .inr hk, (Image.unfit_iff size image).mp hu⟩

/-- What setup answers, by the two searches. -/
theorem setup_cases (cfg : Config) :
    (∃ j, ramTooLarge cfg.ramMaxSize 0 cfg.regionTable = some j ∧ State.setup cfg = .fault (.ramSize j)) ∨
    (ramTooLarge cfg.ramMaxSize 0 cfg.regionTable = none ∧
      ((∃ j, imageUnfit 0 cfg.regionTable = some j ∧ State.setup cfg = .fault (.boot j)) ∨
       (imageUnfit 0 cfg.regionTable = none ∧ State.setup cfg = .next (State.resetFor cfg)))) := by
  unfold State.setup
  rcases ramTooLarge cfg.ramMaxSize 0 cfg.regionTable with _ | j
  · rcases imageUnfit 0 cfg.regionTable with _ | j <;> simp
  · simp

/-- Settles O60: each error comes from the search that answers the place of the first tuple of its kind; setup succeeds
where both find none. -/
theorem setupErrors : Obligations.SetupErrors := by
  unfold Obligations.SetupErrors
  refine ⟨fun cfg => ?_, fun s f h => ?_⟩
  · have hram := ramTooLarge_firstPlace cfg.ramMaxSize
    have himage := imageUnfit_firstPlace
    rcases setup_cases cfg with ⟨j, hj, hs⟩ | ⟨hnone, ⟨j, hj, hs⟩ | ⟨hnone', hs⟩⟩ <;> rw [hs]
    · obtain ⟨e, he, hover⟩ := hram.entry_of_some hj
      refine ⟨fun _ => ⟨_, rfl⟩, fun j' h => ?_, fun j' h => (by cases h), fun hall => ?_⟩
      · cases h; exact ⟨e, he, hover⟩
      · exact absurd hover (hall e (List.mem_of_getElem? he)).1
    · obtain ⟨e, he, hunfit⟩ := himage.entry_of_some hj
      refine ⟨fun _ => ⟨_, rfl⟩, fun j' h => (by cases h), fun j' h => ?_, fun hall => ?_⟩
      · cases h; exact ⟨e, he, hunfit⟩
      · exact absurd hunfit (hall e (List.mem_of_getElem? he)).2
    · refine ⟨?_, fun j' h => (by cases h), fun j' h => (by cases h), fun _ => rfl⟩
      rintro ⟨e, he, hover | hunfit⟩
      · exact absurd hover ((hram.none_iff 0 _).mp hnone e he)
      · exact absurd hunfit ((himage.none_iff 0 _).mp hnone' e he)
  · obtain ⟨t, ht⟩ := everyStepAnswersNext.1 s
    rw [ht] at h
    cases h

/-! ## `uart_receive` (R423) -/

/-- The tuples before the first UART are passed over. -/
theorem Bus.uartReceive_append (b : Byte) {pre : Bus} (post : Bus) {m : Mapping} {u : Uart} (hm : m.region = .uart u)
    (hp : ∀ m' ∈ pre, m'.region.shape ≠ .uart) :
    Bus.uartReceive b (pre ++ m :: post) = pre ++ { m with region := .uart (u.hostReceive b) } :: post := by
  induction pre with
  | nil => simp only [List.nil_append, Bus.uartReceive, hm]
  | cons m' pre ih =>
    obtain ⟨hm', hpre⟩ := List.forall_mem_cons.mp hp
    rw [List.cons_append, Bus.uartReceive]
    split
    · next dev hr => rw [hr] at hm'; exact absurd rfl hm'
    · rw [ih hpre]; rfl
    · rw [ih hpre]; rfl

/-- Settles O58: `Bus.uartReceive_append` finds the UART; `fifoPush` is the bounded append written out. -/
theorem uartReceive : Obligations.UartReceive := by
  unfold Obligations.UartReceive
  intro s b pre post m u hbus hm hp
  rw [State.uartReceive, hbus, Bus.uartReceive_append b post hm hp]
  rfl

end Sys2Proof.Machine
end

section
/-! PROOFS. ALU with immediate, the register shifts, multiply and divide: what their words decode to and what they
write. -/

namespace Sys2Proof.Machine

/-! ## Immediates (R102, R220, R223) -/

theorem iOperand_eq (imm : BitVec 12) : iOperand imm = imm.signExtend 64 := by
  rw [iOperand, sext, BitVec.setWidth_eq]

theorem sltiuOperand_sext {cfg : Config} (h : cfg.sltiuImmExt = .sext) (imm : BitVec 12) :
    sltiuOperand cfg imm = imm.signExtend 64 := by
  simp only [sltiuOperand, h, sext, BitVec.setWidth_eq]

theorem sltiuOperand_zext {cfg : Config} (h : cfg.sltiuImmExt = .zext) (imm : BitVec 12) :
    (sltiuOperand cfg imm).toNat = imm.toNat := by
  simp only [sltiuOperand, h, zext, BitVec.setWidth_eq, BitVec.toNat_setWidth]
  exact Nat.mod_eq_of_lt (imm.isLt.trans (by decide))

section ExecAluImm

variable (rd rs1 : Reg) (imm : BitVec 12) (s : State)

theorem exec_addi : exec (.addi rd rs1 imm) s = writeResult 4 rd (s.getX rs1 + imm.signExtend 64) s := by
  rw [← iOperand_eq]
  rfl

theorem exec_slti : exec (.slti rd rs1 imm) s =
    writeResult 4 rd (if (s.getX rs1).toInt < (imm.signExtend 64).toInt then 1 else 0) s := by
  rw [← iOperand_eq, ← boolWord_decide]
  rfl

theorem exec_sltiu : exec (.sltiu rd rs1 imm) s =
    writeResult 4 rd (if (s.getX rs1).toNat < (sltiuOperand s.cfg imm).toNat then 1 else 0) s := by
  rw [← boolWord_decide]
  rfl

theorem exec_xori : exec (.xori rd rs1 imm) s = writeResult 4 rd (s.getX rs1 ^^^ imm.signExtend 64) s := by
  rw [← iOperand_eq]
  rfl

theorem exec_ori : exec (.ori rd rs1 imm) s = writeResult 4 rd (s.getX rs1 ||| imm.signExtend 64) s := by
  rw [← iOperand_eq]
  rfl

theorem exec_andi : exec (.andi rd rs1 imm) s = writeResult 4 rd (s.getX rs1 &&& imm.signExtend 64) s := by
  rw [← iOperand_eq]
  rfl

end ExecAluImm

/-- Settles O30: for each instruction, `decode_aluImmWord` at its funct3 and `writesResult_of_exec`; the operand of SLTIU is
evaluated for each value of the parameter. -/
theorem aluImmediateResults : Obligations.AluImmediateResults := by
  unfold Obligations.AluImmediateResults
  intro rd rs1 imm
  refine
    ⟨⟨decode_aluImmWord decodeAluImm_addi rd rs1 imm, fun s => writesResult_of_exec (exec_addi rd rs1 imm s)⟩,
      ⟨decode_aluImmWord decodeAluImm_slti rd rs1 imm, fun s => writesResult_of_exec (exec_slti rd rs1 imm s)⟩,
      ⟨decode_aluImmWord decodeAluImm_sltiu rd rs1 imm, fun s => ⟨fun h => ?_, fun h => ?_⟩⟩,
      ⟨decode_aluImmWord decodeAluImm_xori rd rs1 imm, fun s => writesResult_of_exec (exec_xori rd rs1 imm s)⟩,
      ⟨decode_aluImmWord decodeAluImm_ori rd rs1 imm, fun s => writesResult_of_exec (exec_ori rd rs1 imm s)⟩,
      decode_aluImmWord decodeAluImm_andi rd rs1 imm, fun s => writesResult_of_exec (exec_andi rd rs1 imm s)⟩
  · rw [← sltiuOperand_sext h]
    exact writesResult_of_exec (exec_sltiu rd rs1 imm s)
  · rw [← sltiuOperand_zext h]
    exact writesResult_of_exec (exec_sltiu rd rs1 imm s)

/-! ## Word forms (R240 to R244) -/

/-- Narrowing a sign extension is a shorter sign extension. -/
theorem setWidth_signExtend {w m n : Nat} (x : BitVec w) (h : n ≤ m) : (x.signExtend m).setWidth n = x.signExtend n := by
  apply BitVec.eq_of_getLsbD_eq
  intro i hi
  simp only [BitVec.getLsbD_setWidth, BitVec.getLsbD_signExtend, hi, show i < m by omega, decide_true, Bool.true_and]

/-- The low word of the operand is the low word of the register. -/
theorem setWidth_sext_word (a : Word) : (sext 32 a).setWidth 32 = a.setWidth 32 := by
  rw [sext, setWidth_signExtend _ (by decide), BitVec.signExtend_eq]

theorem addiw_value (a : Word) (imm : BitVec 12) :
    sext 32 (sext 32 a + iOperand imm) = (a.setWidth 32 + imm.signExtend 32).signExtend 64 := by
  rw [sext, BitVec.setWidth_add _ _ (by decide), setWidth_sext_word, iOperand_eq, setWidth_signExtend _ (by decide)]

theorem setWidth_shiftLeft_word (x : Word) (n : Nat) : (x <<< n).setWidth 32 = x.setWidth 32 <<< n := by
  apply BitVec.eq_of_getLsbD_eq
  intro i hi
  simp only [BitVec.getLsbD_setWidth, BitVec.getLsbD_shiftLeft, hi, show i < 64 by omega, show i - n < 32 by omega,
    decide_true, Bool.true_and]

theorem slliw_value (a : Word) (n : Nat) : sext 32 (sext 32 a <<< n) = (a.setWidth 32 <<< n).signExtend 64 := by
  rw [sext, setWidth_shiftLeft_word, setWidth_sext_word]

/-- An arithmetic shift and a sign extension commute: both keep the signed value's sign and divide it. -/
theorem sshiftRight_signExtend {w v : Nat} (x : BitVec w) (n : Nat) (h : w ≤ v) :
    (x.signExtend v).sshiftRight n = (x.sshiftRight n).signExtend v := by
  apply BitVec.eq_of_toInt_eq
  rw [BitVec.toInt_sshiftRight, BitVec.toInt_signExtend_of_le h, BitVec.toInt_signExtend_of_le h,
    BitVec.toInt_sshiftRight]

theorem sraiw_value (a : Word) (n : Nat) :
    sext 32 ((sext 32 a).sshiftRight n) = BitVec.ofInt 64 ((a.setWidth 32).toInt / 2 ^ n) := by
  have hdiv : (a.setWidth 32).toInt / 2 ^ n = ((a.setWidth 32).sshiftRight n).toInt := by
    rw [BitVec.toInt_sshiftRight, Int.shiftRight_eq_div_pow, Nat.cast_pow, Nat.cast_ofNat]
  rw [sext, sext, sshiftRight_signExtend _ _ (by decide), setWidth_signExtend _ (by decide), BitVec.signExtend_eq, hdiv]
  rfl

/-- Below 32 places the low word of the sign-extended operand is shifted alike by both right shifts: the bits that differ
are above it. -/
theorem setWidth_ushiftRight_eq_sshiftRight (x : Word) {n : Nat} (h : n < 32) :
    (x >>> n).setWidth 32 = (x.sshiftRight n).setWidth 32 := by
  apply BitVec.eq_of_getLsbD_eq
  intro i hi
  simp only [BitVec.getLsbD_setWidth, BitVec.getLsbD_ushiftRight, BitVec.getLsbD_sshiftRight,
    if_pos (show n + i < 64 by omega), decide_eq_false (show ¬ 64 ≤ i by omega), Bool.not_false, Bool.true_and]

section ExecWordForm

variable (rd rs1 : Reg) (shamt : BitVec 5) (s : State)

theorem exec_addiw (imm : BitVec 12) : exec (.addiw rd rs1 imm) s =
    writeResult 4 rd (((s.getX rs1).setWidth 32 + imm.signExtend 32).signExtend 64) s := by
  rw [← addiw_value]
  rfl

theorem exec_slliw : exec (.slliw rd rs1 shamt) s =
    writeResult 4 rd (((s.getX rs1).setWidth 32 <<< shamt.toNat).signExtend 64) s := by
  rw [← slliw_value]
  rfl

theorem exec_srliw : exec (.srliw rd rs1 shamt) s =
    writeResult 4 rd (((((s.getX rs1).setWidth 32).signExtend 64 >>> shamt.toNat).setWidth 32).signExtend 64) s := rfl

theorem exec_sraiw : exec (.sraiw rd rs1 shamt) s =
    writeResult 4 rd (BitVec.ofInt 64 (((s.getX rs1).setWidth 32).toInt / 2 ^ shamt.toNat)) s := by
  rw [← sraiw_value]
  rfl

theorem exec_srliw_eq_sraiw : exec (.srliw rd rs1 shamt) s = exec (.sraiw rd rs1 shamt) s := by
  rw [exec_srliw, setWidth_ushiftRight_eq_sshiftRight _ shamt.isLt]
  rfl

end ExecWordForm

/-- Settles O32: the words by `decode_aluImm64Word` and `decode_shiftImm64Word`, the values by the lemmas above on the low
word. -/
theorem wordFormResults : Obligations.WordFormResults := by
  unfold Obligations.WordFormResults
  exact
    ⟨fun rd rs1 imm => ⟨decode_aluImm64Word decodeAluImm64_addiw rd rs1 imm,
        fun s => writesResult_of_exec (exec_addiw rd rs1 s imm)⟩,
      fun rd rs1 shamt =>
        ⟨⟨decode_shiftImm64Word decodeAluImm64_slliw rd rs1 shamt,
            fun s => writesResult_of_exec (exec_slliw rd rs1 shamt s)⟩,
          ⟨decode_shiftImm64Word decodeAluImm64_srliw rd rs1 shamt,
            fun s => writesResult_of_exec (exec_srliw rd rs1 shamt s)⟩,
          ⟨decode_shiftImm64Word decodeAluImm64_sraiw rd rs1 shamt,
            fun s => writesResult_of_exec (exec_sraiw rd rs1 shamt s)⟩,
          exec_srliw_eq_sraiw rd rs1 shamt⟩⟩

/-! ## Register shifts (R253, R254, R258, R259) -/

theorem regShamt_eq (b : Word) : regShamt b = b.toNat % 64 := BitVec.toNat_setWidth 6 b

section ExecRegShift

variable (rd rs1 rs2 : Reg) (s : State)

theorem exec_sll : exec (.sll rd rs1 rs2) s =
    writeResult 4 rd (BitVec.ofNat 64 ((s.getX rs1).toNat * 2 ^ ((s.getX rs2).toNat % 64))) s := by
  rw [← shiftLeft_eq_ofNat_mul, ← regShamt_eq]
  rfl

theorem exec_srl : exec (.srl rd rs1 rs2) s =
    writeResult 4 rd (BitVec.ofNat 64 ((s.getX rs1).toNat / 2 ^ ((s.getX rs2).toNat % 64))) s := by
  rw [← ushiftRight_eq_ofNat_div, ← regShamt_eq]
  rfl

theorem exec_sra : exec (.sra rd rs1 rs2) s =
    writeResult 4 rd (BitVec.ofInt 64 ((s.getX rs1).toInt / 2 ^ ((s.getX rs2).toNat % 64))) s := by
  rw [← sshiftRight_eq_ofInt_div, ← regShamt_eq]
  rfl

end ExecRegShift

/-- Settles O34: `decode_aluWord` at the fields of each shift, and `writesResult_of_exec`. -/
theorem registerShiftResults : Obligations.RegisterShiftResults := by
  unfold Obligations.RegisterShiftResults
  intro rd rs1 rs2
  exact
    ⟨⟨decode_aluWord decodeAlu_sll rd rs1 rs2, fun s => writesResult_of_exec (exec_sll rd rs1 rs2 s)⟩,
      ⟨decode_aluWord decodeAlu_srl rd rs1 rs2, fun s => writesResult_of_exec (exec_srl rd rs1 rs2 s)⟩,
      decode_aluWord decodeAlu_sra rd rs1 rs2, fun s => writesResult_of_exec (exec_sra rd rs1 rs2 s)⟩

/-! ## Multiply (R270 to R274) -/

theorem ofInt_uns (m : Nat) (a : Word) : BitVec.ofInt m (uns a) = a.setWidth m := by
  rw [uns, BitVec.ofInt_natCast, BitVec.ofNat_toNat]

theorem ofInt_sgn (m : Nat) (a : Word) : BitVec.ofInt m (sgn a) = a.signExtend m := rfl

theorem lo64_mul_uns (a b : Word) : lo64 (uns a * uns b) = a * b := by
  rw [lo64, BitVec.ofInt_mul, ofInt_uns, ofInt_uns, BitVec.setWidth_eq, BitVec.setWidth_eq]

/-- The low half of a product does not depend on the signedness. -/
theorem mul_eq_ofInt_mul_toInt (a b : Word) : a * b = BitVec.ofInt 64 (a.toInt * b.toInt) := by
  rw [BitVec.ofInt_mul, BitVec.ofInt_toInt, BitVec.ofInt_toInt]

/-- The high half of an exact product is the high half of its 128-bit pattern. -/
theorem hi64_eq_extractLsb' (p : Int) : hi64 p = (BitVec.ofInt 128 p).extractLsb' 64 64 := by
  apply BitVec.eq_of_toNat_eq
  rw [hi64, BitVec.toNat_ofInt, BitVec.extractLsb'_toNat, BitVec.toNat_ofInt, Nat.shiftRight_eq_div_pow]
  omega

theorem hi64_mul (x y : Int) :
    hi64 (x * y) = (BitVec.ofInt 128 x * BitVec.ofInt 128 y).extractLsb' 64 64 := by
  rw [hi64_eq_extractLsb', BitVec.ofInt_mul]

section ExecMul

variable (rd rs1 rs2 : Reg) (s : State)

theorem exec_mul : exec (.mul rd rs1 rs2) s = writeResult 4 rd (s.getX rs1 * s.getX rs2) s := by
  rw [← lo64_mul_uns]
  rfl

theorem exec_mulh : exec (.mulh rd rs1 rs2) s =
    writeResult 4 rd (((s.getX rs1).signExtend 128 * (s.getX rs2).signExtend 128).extractLsb' 64 64) s := by
  rw [← ofInt_sgn, ← ofInt_sgn, ← hi64_mul]
  rfl

theorem exec_mulhsu : exec (.mulhsu rd rs1 rs2) s =
    writeResult 4 rd (((s.getX rs1).signExtend 128 * (s.getX rs2).setWidth 128).extractLsb' 64 64) s := by
  rw [← ofInt_sgn, ← ofInt_uns, ← hi64_mul]
  rfl

theorem exec_mulhu : exec (.mulhu rd rs1 rs2) s =
    writeResult 4 rd (((s.getX rs1).setWidth 128 * (s.getX rs2).setWidth 128).extractLsb' 64 64) s := by
  rw [← ofInt_uns, ← ofInt_uns, ← hi64_mul]
  rfl

end ExecMul

/-- Settles O35: `decode_aluWord` at funct7 0000001, and the halves of the exact product by `lo64_mul_uns` and
`hi64_mul`. -/
theorem multiplyResults : Obligations.MultiplyResults := by
  unfold Obligations.MultiplyResults
  intro rd rs1 rs2
  refine
    ⟨⟨decode_aluWord decodeAlu_mul rd rs1 rs2, fun s => writesResult_of_exec (exec_mul rd rs1 rs2 s), fun s => ?_⟩,
      ⟨decode_aluWord decodeAlu_mulh rd rs1 rs2, fun s => writesResult_of_exec (exec_mulh rd rs1 rs2 s)⟩,
      ⟨decode_aluWord decodeAlu_mulhsu rd rs1 rs2, fun s => writesResult_of_exec (exec_mulhsu rd rs1 rs2 s)⟩,
      decode_aluWord decodeAlu_mulhu rd rs1 rs2, fun s => writesResult_of_exec (exec_mulhu rd rs1 rs2 s)⟩
  dsimp only
  rw [← mul_eq_ofInt_mul_toInt]
  exact writesResult_of_exec (exec_mul rd rs1 rs2 s)

/-! ## Divide (R275 to R279) -/

/-- The overflow pair needs no case of its own: its exact quotient 2^63 narrows to −2^63. -/
theorem divSigned_eq (a b : Word) : divSigned a b = if b = 0 then 0 else BitVec.ofInt 64 (a.toInt.tdiv b.toInt) := by
  unfold divSigned
  split
  · rfl
  · split
    · next h => rw [show a.toInt = _ from h.1, show b.toInt = _ from h.2]; rfl
    · rfl

theorem remSigned_eq (a b : Word) : remSigned a b = if b = 0 then 0 else BitVec.ofInt 64 (a.toInt.tmod b.toInt) := by
  unfold remSigned
  split
  · rfl
  · split
    · next h => rw [show a.toInt = _ from h.1, show b.toInt = _ from h.2]; rfl
    · rw [Int.tmod_def]; rfl

section ExecDiv

variable (rd rs1 rs2 : Reg) (s : State)

theorem exec_div : exec (.div rd rs1 rs2) s = writeResult 4 rd (divSigned (s.getX rs1) (s.getX rs2)) s := rfl

theorem exec_divu : exec (.divu rd rs1 rs2) s = writeResult 4 rd (divUnsigned (s.getX rs1) (s.getX rs2)) s := rfl

theorem exec_rem : exec (.rem rd rs1 rs2) s = writeResult 4 rd (remSigned (s.getX rs1) (s.getX rs2)) s := rfl

theorem exec_remu : exec (.remu rd rs1 rs2) s = writeResult 4 rd (remUnsigned (s.getX rs1) (s.getX rs2)) s := rfl

end ExecDiv

/-- Settles O36: the signed values by `divSigned_eq` and `remSigned_eq`; the overflow pair is evaluated. -/
theorem divideResults : Obligations.DivideResults := by
  unfold Obligations.DivideResults
  intro rd rs1 rs2
  refine
    ⟨⟨decode_aluWord decodeAlu_div rd rs1 rs2, fun s => ?_⟩,
      ⟨decode_aluWord decodeAlu_divu rd rs1 rs2, fun s => writesResult_of_exec (exec_divu rd rs1 rs2 s)⟩,
      ⟨decode_aluWord decodeAlu_rem rd rs1 rs2, fun s => ?_⟩,
      ⟨decode_aluWord decodeAlu_remu rd rs1 rs2, fun s => writesResult_of_exec (exec_remu rd rs1 rs2 s)⟩,
      fun s ha hb => ⟨?_, ?_⟩⟩
  · dsimp only
    rw [← divSigned_eq]
    exact writesResult_of_exec (exec_div rd rs1 rs2 s)
  · dsimp only
    rw [← remSigned_eq]
    exact writesResult_of_exec (exec_rem rd rs1 rs2 s)
  · have h := exec_div rd rs1 rs2 s
    rw [ha, hb] at h
    exact writesResult_of_exec h
  · have h := exec_rem rd rs1 rs2 s
    rw [ha, hb] at h
    exact writesResult_of_exec h

/-- What a register write leaves in a register other than `x0`. -/
theorem getX_of_writeResult {s t : State} {len : Word} {rd : Reg} {v : Word} (hrd : rd ≠ 0)
    (h : writeResult len rd v s = .next t) : t.getX rd = v := by
  rw [writeResult_eq] at h
  cases h
  rw [(State.wrote_tail s rd v len).result, if_neg hrd]

theorem divSigned_remSigned_identity (a b : Word) : a = b * divSigned a b + remSigned a b ↔ b ≠ 0 ∨ a = 0 := by
  rw [divSigned_eq, remSigned_eq]
  by_cases hb : b = 0
  · simp [hb]
  · have hb' : b * BitVec.ofInt 64 (a.toInt.tdiv b.toInt) + BitVec.ofInt 64 (a.toInt.tmod b.toInt) = a :=
      calc _ = BitVec.ofInt 64 (b.toInt * a.toInt.tdiv b.toInt + a.toInt.tmod b.toInt) := by
            rw [BitVec.ofInt_add, BitVec.ofInt_mul, BitVec.ofInt_toInt]
        _ = a := by rw [Int.mul_tdiv_add_tmod, BitVec.ofInt_toInt]
    rw [if_neg hb, if_neg hb, hb']
    exact iff_of_true rfl (.inl hb)

theorem divUnsigned_remUnsigned_identity (a b : Word) : a = b * divUnsigned a b + remUnsigned a b ↔ b ≠ 0 ∨ a = 0 := by
  unfold divUnsigned remUnsigned
  by_cases hb : b = 0
  · simp [hb]
  · have hb' : b * BitVec.ofNat 64 (a.toNat / b.toNat) + BitVec.ofNat 64 (a.toNat % b.toNat) = a :=
      calc _ = BitVec.ofNat 64 (b.toNat * (a.toNat / b.toNat) + a.toNat % b.toNat) := by
            rw [BitVec.ofNat_add, BitVec.ofNat_mul, BitVec.ofNat_toNat, BitVec.setWidth_eq]
        _ = a := by rw [Nat.div_add_mod, BitVec.ofNat_toNat, BitVec.setWidth_eq]
    rw [if_neg hb, if_neg hb, hb']
    exact iff_of_true rfl (.inl hb)

/-- Settles O37: the two results are in `q` and `r`, and recombine by the identities above. -/
theorem divisionIdentity : Obligations.DivisionIdentity := by
  unfold Obligations.DivisionIdentity
  intro s sq sr q r rs1 rs2 hq hr
  refine ⟨fun hdiv hrem => ?_, fun hdiv hrem => ?_⟩
  · rw [getX_of_writeResult hq hdiv, getX_of_writeResult hr hrem]
    exact divSigned_remSigned_identity _ _
  · rw [getX_of_writeResult hq hdiv, getX_of_writeResult hr hrem]
    exact divUnsigned_remUnsigned_identity _ _

end Sys2Proof.Machine
end

section
/-! PROOFS. JAL and JALR, the unsigned loads, LR, SC and AMOSWAP, and the fatal accesses. -/

namespace Sys2Proof.Machine

/-! ## Jumps (R103, R170 to R174) -/

/-- The word of R103 in the encoder's terms: bit `i + 1` of the immediate is bit `i` of `k`. -/
theorem jalWord_eq_packJ (rd : Reg) (k : BitVec 20) :
    k.extractLsb' 19 1 ++ k.extractLsb' 0 10 ++ k.extractLsb' 10 1 ++ k.extractLsb' 11 8 ++ rd ++ opJal =
      packJ (k ++ 0#1) rd opJal := by
  apply BitVec.eq_of_getLsbD_eq
  intro i hi
  simp only [packJ, packU, BitVec.getLsbD_append, BitVec.getLsbD_extractLsb']
  interval_cases i <;> simp

theorem decode_jalWord (rd : Reg) (k : BitVec 20) :
    decode (k.extractLsb' 19 1 ++ k.extractLsb' 0 10 ++ k.extractLsb' 10 1 ++ k.extractLsb' 11 8 ++ rd ++ 0b1101111#7) =
      .ok (.jal rd (k ++ 0#1)) :=
  (congrArg decode (jalWord_eq_packJ rd k)).trans (decode_packJ rd (lowZero_append_zero k))

theorem writesResult_of_jump {i : Instr} {s : State} {rd : Reg} {link target : Word}
    (h : exec i s = jump rd link target s) : WritesResult i s rd link target :=
  ⟨(s.setX rd link).redirect target, h, State.wrote_redirect s rd link target, ⟨rfl, by simp, by simp, by simp⟩, by simp⟩

/-- Where the top bit repeats the one below it, sign extension from there gives the same value. -/
theorem sext_dropTop {w : Nat} (v : BitVec (w + 1)) (h : (v.setWidth w).msb = v.msb) : sext w v = v.signExtend 64 := by
  apply BitVec.eq_of_getLsbD_eq
  intro i hi
  rw [sext, BitVec.getLsbD_signExtend, BitVec.getLsbD_signExtend, BitVec.getLsbD_setWidth, h]
  rcases lt_trichotomy i w with hlt | rfl | hgt
  · simp [hlt, Nat.lt_succ_of_lt hlt]
  · simp [BitVec.msb_eq_getLsbD_last]
  · rw [if_neg (by omega), if_neg (by omega)]

theorem jOperand_twentyOne {cfg : Config} (h : cfg.jalSextBits = 21) (imm : BitVec 21) :
    jOperand cfg imm = imm.signExtend 64 := by
  rw [jOperand, h, sext, BitVec.setWidth_eq]

theorem jOperand_twenty {cfg : Config} (h : cfg.jalSextBits = 20) {k : BitVec 20}
    (hk : k.extractLsb' 19 1 = k.extractLsb' 18 1) : jOperand cfg (k ++ 0#1) = (k ++ 0#1).signExtend 64 := by
  have hbit : k[19] = k[18] := by
    simpa [BitVec.getLsbD_extractLsb'] using congrArg (BitVec.getLsbD · 0) hk
  rw [jOperand, h, sext_dropTop]
  simp only [BitVec.msb_eq_getLsbD_last, BitVec.getLsbD_setWidth, BitVec.getLsbD_append]
  simpa using hbit.symm

theorem exec_jal (rd : Reg) (imm : BitVec 21) (s : State) :
    exec (.jal rd imm) s = jump rd (s.pc + 4) (s.pc + jOperand s.cfg imm) s := rfl

theorem exec_jalr (rd rs1 : Reg) (imm : BitVec 12) (s : State) :
    exec (.jalr rd rs1 imm) s = jump rd (s.pc + 4) (s.getX rs1 + imm.signExtend 64) s := by
  rw [← State.ea_eq]
  rfl

/-- Settles O21: each word decodes by its opcode and `writesResult_of_jump` gives link and target; the offset of JAL is
evaluated for the two values of the parameter. -/
theorem jumpResults : Obligations.JumpResults := by
  unfold Obligations.JumpResults
  refine ⟨fun rd k => ⟨decode_jalWord rd k, fun s => ?_⟩,
    fun rd rs1 imm => ⟨decode_jalrWord rd rs1 imm, fun s => writesResult_of_jump (exec_jalr rd rs1 imm s)⟩⟩
  have hjal := writesResult_of_jump (exec_jal rd (k ++ 0#1) s)
  refine ⟨hjal, fun h21 => ?_, fun h20 hk => ?_⟩
  · rwa [jOperand_twentyOne h21] at hjal
  · rwa [jOperand_twenty h20 hk] at hjal

/-! ## Unsigned loads (R196 to R198) -/

section ExecUnsignedLoad

variable (rd rs1 : Reg) (imm : BitVec 12) (s : State)

theorem exec_lbu : exec (.lbu rd rs1 imm) s = load 4 1 (zext 8) rd (s.ea rs1 imm) s := rfl

theorem exec_lhu : exec (.lhu rd rs1 imm) s = load 4 2 (zext 16) rd (s.ea rs1 imm) s := rfl

theorem exec_lwu : exec (.lwu rd rs1 imm) s = load 4 4 (zext 32) rd (s.ea rs1 imm) s := rfl

end ExecUnsignedLoad

/-- Settles O24: for each load, `decode_loadWord` at its funct3 gives the decoding, and `loads_of_exec_ea` the effect; the
view is `zext` written out. -/
theorem unsignedLoadResults : Obligations.UnsignedLoadResults := by
  unfold Obligations.UnsignedLoadResults
  intro rd rs1 imm
  exact
    ⟨⟨decode_loadWord decodeLoad_lbu rd rs1 imm, fun s => loads_of_exec_ea (by decide) (exec_lbu rd rs1 imm s)⟩,
      ⟨decode_loadWord decodeLoad_lhu rd rs1 imm, fun s => loads_of_exec_ea (by decide) (exec_lhu rd rs1 imm s)⟩,
      decode_loadWord decodeLoad_lwu rd rs1 imm, fun s => loads_of_exec_ea (by decide) (exec_lwu rd rs1 imm s)⟩

/-! ## LR (R291, R292) -/

section ExecLoadReserved

variable (rd rs1 rs2 : Reg) (aq rl : BitVec 1) (s : State)

theorem exec_lrW : exec (.lrW rd rs1 rs2 aq rl) s = load 4 4 (sext 32) rd (s.getX rs1) s := rfl

theorem exec_lrD : exec (.lrD rd rs1 rs2 aq rl) s = load 4 8 (fun v => v) rd (s.getX rs1) s := by
  rw [← zext_doubleword]
  rfl

theorem State.ea_zero : s.ea rs1 0 = s.getX rs1 := by
  rw [State.ea_eq, show (0 : BitVec 12).signExtend 64 = 0#64 from rfl, BitVec.add_zero]

end ExecLoadReserved

/-- Settles O26: the word decodes by funct5 and funct3, with any `aq`, `rl` and `rs2`; the effect is that of a load at
`rs1`, which is also the address of LW with displacement 0. -/
theorem loadReservedResults : Obligations.LoadReservedResults := by
  unfold Obligations.LoadReservedResults
  intro rd rs1 rs2 aq rl
  refine
    ⟨⟨decode_atomicWord decodeAtomic_lrW rd rs1 rs2 aq rl,
        fun s => loads_of_exec (by decide) (exec_lrW rd rs1 rs2 aq rl s), fun s => ?_⟩,
      decode_atomicWord decodeAtomic_lrD rd rs1 rs2 aq rl,
      fun s => loads_of_exec (by decide) (exec_lrD rd rs1 rs2 aq rl s)⟩
  rw [exec_lrW, exec_lw, State.ea_zero]

/-! ## SC (R294, R296) -/

/-- An SC whose write is taken writes the configured result, changes no byte outside the written ones, and touches the
device it writes only. -/
theorem storeConditional_completes {s : State} {a v : Word} {n : Nat} (hw : (s.memWrite a n v).1 = .ok ()) (rd : Reg) :
    ∃ t, storeConditional n rd a v s = .next t ∧ State.Wrote s t rd s.cfg.scRdResult ∧ State.Reached s t (s.pc + 4) ∧
      t.bus = (s.memWrite a n v).2.bus ∧ State.KeptOutside s t a n := by
  have hbus : (((s.memWrite a n v).2.setX rd s.cfg.scRdResult).tail 4).bus = (s.memWrite a n v).2.bus := by
    rw [State.tail_bus, State.setX_bus]
  exact ⟨_, storeConditional_ok (Prod.ext hw rfl), (State.wrote_tail _ rd _ 4).of_regs rfl,
    ⟨by simp, by simp, by simp, by simp⟩, hbus, (State.memWrite_memory s a v n).of_bus hbus⟩

theorem stores_of_storeConditional {i : Instr} {s : State} {n : Nat} {rd : Reg} {a v : Word}
    (h : exec i s = storeConditional n rd a v s) : Stores i s n a v (some (rd, s.cfg.scRdResult)) (s.pc + 4) := by
  refine ⟨fun s1 hw => ?_, fun hram => ?_⟩
  · obtain rfl : s1 = (s.memWrite a n v).2 := by rw [hw]
    rw [h]
    exact storeConditional_completes (congrArg Prod.fst hw) rd
  · obtain ⟨hok, hholds, -⟩ := State.memWrite_inRam s a v n hram
    obtain ⟨t, ht, hwrote, hreached, hbus, hout⟩ := storeConditional_completes hok rd
    exact ⟨t, h.trans ht, hwrote, hreached, hout, fun hwf => (hholds hwf).of_bus hbus⟩

/-- Settles O27: the default result is a constant of the configuration; each word decodes by funct5 and funct3, and
`stores_of_storeConditional` gives the effect. -/
theorem storeConditionalResults : Obligations.StoreConditionalResults := by
  unfold Obligations.StoreConditionalResults
  refine ⟨rfl, fun rd rs1 rs2 aq rl => ?_⟩
  exact
    ⟨⟨decode_atomicWord decodeAtomic_scW rd rs1 rs2 aq rl,
        fun s => stores_of_storeConditional (exec_scW rd rs1 rs2 aq rl s)⟩,
      decode_atomicWord decodeAtomic_scD rd rs1 rs2 aq rl,
      fun s => stores_of_storeConditional (exec_scD rd rs1 rs2 aq rl s)⟩

/-! ## Fatal accesses (R147, R191) -/

section FatalAccess

variable {i : Instr} {s s1 : State} {len : Word} {n : Nat} {view : Word → Word} {rd : Reg} {a v : Word} {f : Fatal}

/-- A failing read or write changes the bus at most, so the fatal error raised after it is one of the instruction. -/
theorem State.raised_memRead (hr : s.memRead a n = (.error f, s1)) : State.Raised s (s1.raise f) f := by
  obtain rfl : s1 = (s.memRead a n).2 := by rw [hr]
  exact ⟨rfl, rfl, rfl, rfl, rfl⟩

theorem State.raised_memWrite (hw : s.memWrite a n v = (.error f, s1)) : State.Raised s (s1.raise f) f := by
  obtain rfl : s1 = (s.memWrite a n v).2 := by rw [hw]
  exact ⟨rfl, rfl, rfl, rfl, rfl⟩

theorem stopsWith_of_load (h : exec i s = load len n view rd a s) (hr : s.memRead a n = (.error f, s1)) :
    StopsWith i s f s1 :=
  ⟨s1.raise f, h.trans (load_error hr), State.raised_memRead hr, rfl⟩

theorem stopsWith_of_store (h : exec i s = store len n a v s) (hw : s.memWrite a n v = (.error f, s1)) :
    StopsWith i s f s1 :=
  ⟨s1.raise f, h.trans (store_error hw), State.raised_memWrite hw, rfl⟩

theorem stopsWith_of_storeConditional (h : exec i s = storeConditional n rd a v s)
    (hw : s.memWrite a n v = (.error f, s1)) : StopsWith i s f s1 :=
  ⟨s1.raise f, h.trans (storeConditional_error hw), State.raised_memWrite hw, rfl⟩

end FatalAccess

/-- Settles O29: each instruction ends in one of the three accesses, whose lemma above gives its fatal error. -/
theorem failedAccessWritesNoRegister : Obligations.FailedAccessWritesNoRegister := by
  unfold Obligations.FailedAccessWritesNoRegister
  intro s s1 f rd rs1 rs2 imm aq rl
  simp only [← State.ea_eq]
  exact
    ⟨fun h => ⟨stopsWith_of_load (exec_lb rd rs1 imm s) h, stopsWith_of_load (exec_lbu rd rs1 imm s) h⟩,
      fun h => ⟨stopsWith_of_load (exec_lh rd rs1 imm s) h, stopsWith_of_load (exec_lhu rd rs1 imm s) h⟩,
      fun h => ⟨stopsWith_of_load (exec_lw rd rs1 imm s) h, stopsWith_of_load (exec_lwu rd rs1 imm s) h⟩,
      stopsWith_of_load (exec_ld rd rs1 imm s),
      stopsWith_of_store (exec_sb rs1 rs2 imm s), stopsWith_of_store (exec_sh rs1 rs2 imm s),
      stopsWith_of_store (exec_sw rs1 rs2 imm s), stopsWith_of_store (exec_sd rs1 rs2 imm s),
      stopsWith_of_load (exec_lrW rd rs1 rs2 aq rl s), stopsWith_of_load (exec_lrD rd rs1 rs2 aq rl s),
      stopsWith_of_storeConditional (exec_scW rd rs1 rs2 aq rl s),
      stopsWith_of_storeConditional (exec_scD rd rs1 rs2 aq rl s)⟩

/-! ## AMOSWAP (R297, R298) -/

/-- A read and then a write at one address: the frame of the write. -/
theorem State.KeptOutside.after_memRead {s t : State} {a : Word} {n k : Nat}
    (h : State.KeptOutside (s.memRead a k).2 t a n) : State.KeptOutside s t a n where
  bytes b hout := (h.bytes b hout).trans ((State.memRead_memory s a k).bytes b)
  shape := h.shape.trans (State.memRead_memory s a k).shape
  rom := h.rom.trans (State.memRead_memory s a k).rom
  touched := (State.memRead_touched s a k).trans h.touched

section Swap

variable {s s1 s2 : State} {a v t : Word} {n : Nat} {f : Fatal}

/-- A swap whose read and write are both taken. -/
theorem swap_completes (hr : s.memRead a n = (.ok t, s1)) (hw : s1.memWrite a n v = (.ok (), s2))
    (view : Word → Word) (rd : Reg) :
    ∃ u, swap n view rd a v s = .next u ∧ State.Wrote s u rd (view t) ∧ State.Reached s u (s.pc + 4) ∧ u.bus = s2.bus ∧
      State.KeptOutside s u a n := by
  obtain rfl : s1 = (s.memRead a n).2 := by rw [hr]
  obtain rfl : s2 = ((s.memRead a n).2.memWrite a n v).2 := by rw [hw]
  have hbus : ((((s.memRead a n).2.memWrite a n v).2.setX rd (view t)).tail 4).bus =
      ((s.memRead a n).2.memWrite a n v).2.bus := by rw [State.tail_bus, State.setX_bus]
  exact ⟨_, swap_ok hr hw, (State.wrote_tail _ rd _ 4).of_regs rfl, ⟨by simp, by simp, by simp, by simp⟩, hbus,
    ((State.memWrite_memory _ a v n).of_bus hbus).after_memRead⟩

/-- A swap inside RAM: the read changes nothing, so the write finds the buffer as it was. -/
theorem swap_inRam {bs : List Byte} (hlen : bs.length = n) (hn : 0 < n) (hram : s.inRam a n) (hb : s.holdsBytes a bs)
    (view : Word → Word) (rd : Reg) :
    ∃ u, swap n view rd a v s = .next u ∧ State.Wrote s u rd (view (leValue bs)) ∧ State.Reached s u (s.pc + 4) ∧
      State.KeptOutside s u a n ∧ (Bus.wf s.bus = true → u.holdsBytes a (leBytes n v)) := by
  have hread : s.memRead a n = (.ok (leValue bs), s) :=
    hlen ▸ State.memRead_holds s a bs hb (List.length_pos_iff.mp (hlen ▸ hn))
  obtain ⟨hok, hholds, -⟩ := State.memWrite_inRam s a v n hram
  obtain ⟨u, hu, hwrote, hreached, hbus, hout⟩ := swap_completes hread (Prod.ext hok rfl) view rd
  exact ⟨u, hu, hwrote, hreached, hout, fun hwf => (hholds hwf).of_bus hbus⟩

theorem stopsWith_of_swapRead {i : Instr} {view : Word → Word} {rd : Reg} (h : exec i s = swap n view rd a v s)
    (hr : s.memRead a n = (.error f, s1)) : StopsWith i s f s1 :=
  ⟨s1.raise f, h.trans (swap_readError hr), State.raised_memRead hr, rfl⟩

theorem stopsWith_of_swapWrite {i : Instr} {view : Word → Word} {rd : Reg} (h : exec i s = swap n view rd a v s)
    (hr : s.memRead a n = (.ok t, s1)) (hw : s1.memWrite a n v = (.error f, s2)) : StopsWith i s f s2 := by
  obtain rfl : s1 = (s.memRead a n).2 := by rw [hr]
  obtain ⟨hhalted, hpc, hregs, hcsr, hcfg⟩ := State.raised_memWrite hw
  exact ⟨s2.raise f, h.trans (swap_writeError hr hw), ⟨hhalted, hpc, hregs, hcsr, hcfg⟩, rfl⟩

end Swap

/-- The rule of AMOSWAP: any region that answers and takes, bytes in RAM, a failing read, a failing write, a ROM. -/
def Swaps (i : Instr) (s : State) (n : Nat) (view : Word → Word) (rd : Reg) (a v : Word) : Prop :=
  (∀ t s1 s2, s.memRead a n = (.ok t, s1) → s1.memWrite a n v = (.ok (), s2) →
    ∃ u, exec i s = .next u ∧ State.Wrote s u rd (view t) ∧ State.Reached s u (s.pc + 4) ∧ u.bus = s2.bus ∧
      State.KeptOutside s u a n) ∧
  (∀ bs, bs.length = n → s.inRam a n → s.holdsBytes a bs →
    ∃ u, exec i s = .next u ∧ State.Wrote s u rd (view (leValue bs)) ∧ State.Reached s u (s.pc + 4) ∧
      State.KeptOutside s u a n ∧ (Bus.wf s.bus = true → u.holdsBytes a (leBytes n v))) ∧
  (∀ f s1, s.memRead a n = (.error f, s1) → StopsWith i s f s1) ∧
  (∀ t f s1 s2, s.memRead a n = (.ok t, s1) → s1.memWrite a n v = (.error f, s2) → StopsWith i s f s2) ∧
  (∀ bs, bs.length = n → s.inRom a → s.holdsBytes a bs → StopsWith i s (.romWrite a) s)

theorem swaps_of_exec {i : Instr} {s : State} {n : Nat} {view : Word → Word} {rd : Reg} {a v : Word}
    (h : exec i s = swap (n + 1) view rd a v s) : Swaps i s (n + 1) view rd a v :=
  ⟨fun _ _ _ hr hw => h ▸ swap_completes hr hw view rd,
    fun _ hlen hram hb => h ▸ swap_inRam hlen (Nat.succ_pos n) hram hb view rd,
    fun _ _ hr => stopsWith_of_swapRead h hr, fun _ _ _ _ hr hw => stopsWith_of_swapWrite h hr hw,
    fun _ hlen hrom hb => stopsWith_of_exec (h.trans (swap_inRom hrom hlen hb view rd v))⟩

/-- Settles O28: each word decodes by funct5 and funct3, and `swaps_of_exec` is the rule; the view of AMOSWAP.D is the
identity. -/
theorem amoswapResults : Obligations.AmoswapResults := by
  unfold Obligations.AmoswapResults
  intro rd rs1 rs2 aq rl
  refine
    ⟨⟨decode_atomicWord decodeAtomic_amoswapW rd rs1 rs2 aq rl,
        fun s => swaps_of_exec (exec_amoswapW rd rs1 rs2 aq rl s)⟩,
      decode_atomicWord decodeAtomic_amoswapD rd rs1 rs2 aq rl, fun s => ?_⟩
  have hd := exec_amoswapD rd rs1 rs2 aq rl s
  rw [zext_doubleword] at hd
  exact swaps_of_exec hd

end Sys2Proof.Machine
end

section
/-! PROOFS. The instructions that only advance, and the six CSR instructions. -/

namespace Sys2Proof.Machine

/-! ## FENCE, ECALL, EBREAK and c.ebreak (R310 to R313, R370) -/

theorem onlyMoves_of_noEffect {i : Instr} {s : State} {len : Word} (h : exec i s = noEffect len s) :
    OnlyMoves i s (s.pc + len) :=
  ⟨s.tail len, h, State.keptRegs_tail s len, ⟨rfl, rfl, rfl, rfl⟩, rfl⟩

section ExecNoOp

variable (s : State)

theorem exec_fence (bits : BitVec 25) : exec (.fence bits) s = noEffect 4 s := rfl

theorem exec_ecall : exec .ecall s = noEffect 4 s := rfl

theorem exec_ebreak : exec .ebreak s = noEffect 4 s := rfl

theorem exec_cEbreak : exec .cEbreak s = noEffect 2 s := rfl

end ExecNoOp

/-- Settles O38: the words of ECALL, EBREAK and c.ebreak are the encoder's, and each instruction has no effect. -/
theorem noOpResults : Obligations.NoOpResults :=
  ⟨fun bits => ⟨decode_fenceWord bits, fun s => onlyMoves_of_noEffect (exec_fence s bits)⟩,
    ⟨by decide, fun s => onlyMoves_of_noEffect (exec_ecall s)⟩,
    ⟨by decide, fun s => onlyMoves_of_noEffect (exec_ebreak s)⟩,
    decode_packC_ebreak, fun s => onlyMoves_of_noEffect (exec_cEbreak s)⟩

/-! ## The CSR instructions (R316 to R321, R395) -/

theorem csrImmOperand_eq (imm : BitVec 12) : csrImmOperand imm = imm.setWidth 64 := by
  rw [csrImmOperand, zext, BitVec.setWidth_eq]

/-- In a canonical CSR file the cell written holds the new value, and every other cell its own. -/
theorem State.csrGet_csrSet {s : State} (h : Cells.wf s.csr = true) (k j : Nat) (v : Word) :
    (s.csrSet k v).csrGet j = if k = j then v else s.csrGet j := Cells.get_set s.csr k j v h

theorem updatesCsr_of_exec {i : Instr} {s : State} {new : Word → Word → Word} {rd rs1 : Reg} {v : Word}
    (h : exec i s = csrUpdate new rd rs1 v s) (hwf : Cells.wf s.csr = true) (hk : (s.getX rs1).toNat < csrCount) :
    UpdatesCsr i s rd (s.getX rs1).toNat fun t => new t v := by
  refine ⟨_, h.trans (csrUpdate_ok hk), (State.wrote_tail _ rd _ 4).of_regs rfl, ?_, fun j hj => ?_, by simp, by simp,
    by simp, by simp⟩
  · rw [State.csrGet_tail, State.csrGet_setX, State.csrGet_csrSet hwf, if_pos rfl]
  · rw [State.csrGet_tail, State.csrGet_setX, State.csrGet_csrSet hwf, if_neg hj.symm]

theorem stopsWith_of_csrUpdate {i : Instr} {s : State} {new : Word → Word → Word} {rd rs1 : Reg} {v : Word}
    (h : exec i s = csrUpdate new rd rs1 v s) (hk : csrCount ≤ (s.getX rs1).toNat) :
    StopsWith i s (.csrIndex (s.getX rs1)) s :=
  stopsWith_of_exec (h.trans (csrUpdate_error hk))

section ExecCsr

variable (rd rs1 rs2 : Reg) (f7 : BitVec 7) (imm : BitVec 12) (s : State)

theorem exec_csrrw : exec (.csrrw rd rs1 rs2 f7) s = csrUpdate (fun _ v => v) rd rs1 (s.getX rs2) s := rfl

theorem exec_csrrs : exec (.csrrs rd rs1 rs2 f7) s = csrUpdate (fun t v => t ||| v) rd rs1 (s.getX rs2) s := rfl

theorem exec_csrrc : exec (.csrrc rd rs1 rs2 f7) s = csrUpdate (fun t v => t &&& ~~~v) rd rs1 (s.getX rs2) s := rfl

theorem exec_csrrwi : exec (.csrrwi rd rs1 imm) s = csrUpdate (fun _ v => v) rd rs1 (imm.setWidth 64) s := by
  rw [← csrImmOperand_eq]
  rfl

theorem exec_csrrsi : exec (.csrrsi rd rs1 imm) s = csrUpdate (fun t v => t ||| v) rd rs1 (imm.setWidth 64) s := by
  rw [← csrImmOperand_eq]
  rfl

theorem exec_csrrci : exec (.csrrci rd rs1 imm) s = csrUpdate (fun t v => t &&& ~~~v) rd rs1 (imm.setWidth 64) s := by
  rw [← csrImmOperand_eq]
  rfl

end ExecCsr

/-- Settles O39: for each instruction the decoding at its funct3 and `updatesCsr_of_exec`; from index 4096 on all six stop
alike. -/
theorem csrResults : Obligations.CsrResults := by
  unfold Obligations.CsrResults
  intro rd rs1 rs2 f7 imm
  refine
    ⟨⟨decode_csrRegWord decodeSystem_csrrw rd rs1 rs2 f7, fun s => updatesCsr_of_exec (exec_csrrw rd rs1 rs2 f7 s)⟩,
      ⟨decode_csrRegWord decodeSystem_csrrs rd rs1 rs2 f7, fun s => updatesCsr_of_exec (exec_csrrs rd rs1 rs2 f7 s)⟩,
      ⟨decode_csrRegWord decodeSystem_csrrc rd rs1 rs2 f7, fun s => updatesCsr_of_exec (exec_csrrc rd rs1 rs2 f7 s)⟩,
      ⟨decode_csrImmWord decodeSystem_csrrwi rd rs1 imm, fun s => updatesCsr_of_exec (exec_csrrwi rd rs1 imm s)⟩,
      ⟨decode_csrImmWord decodeSystem_csrrsi rd rs1 imm, fun s => updatesCsr_of_exec (exec_csrrsi rd rs1 imm s)⟩,
      ⟨decode_csrImmWord decodeSystem_csrrci rd rs1 imm, fun s => updatesCsr_of_exec (exec_csrrci rd rs1 imm s)⟩,
      fun s hk => ?_⟩
  simp only [List.forall_mem_cons, List.not_mem_nil, false_implies, implies_true, and_true]
  exact ⟨stopsWith_of_csrUpdate (exec_csrrw rd rs1 rs2 f7 s) hk, stopsWith_of_csrUpdate (exec_csrrs rd rs1 rs2 f7 s) hk,
    stopsWith_of_csrUpdate (exec_csrrc rd rs1 rs2 f7 s) hk, stopsWith_of_csrUpdate (exec_csrrwi rd rs1 imm s) hk,
    stopsWith_of_csrUpdate (exec_csrrsi rd rs1 imm s) hk, stopsWith_of_csrUpdate (exec_csrrci rd rs1 imm s) hk⟩

end Sys2Proof.Machine
end

section
/-! PROOFS. The compressed instructions: the effect of the expansion, and what each halfword decodes to and does. -/

namespace Sys2Proof.Machine

/-! ## The effect of the expansion (R340) -/

/-- The two instructions have the same effect, but that `i` advances by 2. -/
def SameEffect (i j : Instr) (s : State) : Prop :=
  ∀ t u, exec i s = .next t → exec j s = .next u → t = { u with pc := if u.halted = none then s.pc + 2 else s.pc }

section SameEffect

variable {i j : Instr} {s s1 : State} {rd : Reg} {a v : Word} {n : Nat} {view : Word → Word} {f : Fatal}

/-- Both complete from the same state, each by its own length. -/
theorem sameEffect_of_tail (hpc : s1.pc = s.pc) (hh : s1.halted = none) (hi : exec i s = .next (s1.tail 2))
    (hj : exec j s = .next (s1.tail 4)) : SameEffect i j s := by
  intro t u ht hu
  cases hi.symm.trans ht
  cases hj.symm.trans hu
  rw [State.tail_halted, if_pos hh, ← hpc]
  rfl

/-- Both end in the same fatal error, which moves no `pc`. -/
theorem sameEffect_of_raise (hpc : s1.pc = s.pc) (hi : exec i s = .next (s1.raise f))
    (hj : exec j s = .next (s1.raise f)) : SameEffect i j s := by
  intro t u ht hu
  cases hi.symm.trans ht
  cases hj.symm.trans hu
  rw [State.raise_halted, if_neg nofun, ← hpc]
  rfl

theorem sameEffect_of_writeResult (hh : s.halted = none) (hi : exec i s = writeResult 2 rd v s)
    (hj : exec j s = writeResult 4 rd v s) : SameEffect i j s :=
  sameEffect_of_tail (State.setX_pc s rd v) ((State.setX_halted s rd v).trans hh) hi hj

theorem sameEffect_of_load (hh : s.halted = none) (hi : exec i s = load 2 n view rd a s)
    (hj : exec j s = load 4 n view rd a s) : SameEffect i j s := by
  rcases hr : (s.memRead a n).1 with f | v
  · have hr : s.memRead a n = (.error f, (s.memRead a n).2) := Prod.ext hr rfl
    exact sameEffect_of_raise (s1 := (s.memRead a n).2) rfl (hi.trans (load_error hr)) (hj.trans (load_error hr))
  · have hr : s.memRead a n = (.ok v, (s.memRead a n).2) := Prod.ext hr rfl
    exact sameEffect_of_tail (by simp) (by simp [hh]) (hi.trans (load_ok hr)) (hj.trans (load_ok hr))

theorem sameEffect_of_store (hh : s.halted = none) (hi : exec i s = store 2 n a v s)
    (hj : exec j s = store 4 n a v s) : SameEffect i j s := by
  rcases hw : (s.memWrite a n v).1 with f | _
  · have hw : s.memWrite a n v = (.error f, (s.memWrite a n v).2) := Prod.ext hw rfl
    exact sameEffect_of_raise (s1 := (s.memWrite a n v).2) rfl (hi.trans (store_error hw)) (hj.trans (store_error hw))
  · have hw : s.memWrite a n v = (.ok (), (s.memWrite a n v).2) := Prod.ext hw rfl
    exact sameEffect_of_tail (s1 := (s.memWrite a n v).2) rfl hh (hi.trans (store_ok hw)) (hj.trans (store_ok hw))

end SameEffect

/-- By the instruction: a load, a store, or one register write, at length 2 and at length 4. -/
theorem sameEffect_of_expand {i j : Instr} {s : State} (he : i.expand = some j) (hj : j.mayRedirect = false)
    (hh : s.halted = none) : SameEffect i j s := by
  cases i with
  | cLw rd rs1 uimm =>
    cases he
    exact sameEffect_of_load hh rfl rfl
  | cSw rs1 rs2 uimm =>
    cases he
    exact sameEffect_of_store hh rfl rfl
  | cAddi4spn a b | cAddi a b | cLi a b | cLui a b | cSrli a b | cSrai a b | cAndi a b | cSub a b | cXor a b | cOr a b
  | cAnd a b | cSlli a b | cMv a b | cAdd a b =>
    cases he
    exact sameEffect_of_writeResult hh rfl rfl
  | cAddi16sp nzimm =>
    cases he
    exact sameEffect_of_writeResult hh rfl rfl
  | cJal a | cJ a | cJr a | cJalr a =>
    cases he
    cases hj
  | cBeqz r a | cBnez r a =>
    cases he
    cases hj
  | _ => cases he

/-- Settles O40: `sameEffect_of_expand`, for the two outcomes given. -/
theorem expansionHasSameEffect : Obligations.ExpansionHasSameEffect :=
  fun _ _ _ t u he hj hh ht hu => sameEffect_of_expand he hj hh t u ht hu

/-! ## Immediates (R341) -/

theorem signExtend_signExtend {w m n : Nat} (x : BitVec w) (h : w ≤ m) :
    (x.signExtend m).signExtend n = x.signExtend n := by
  rw [BitVec.signExtend, BitVec.toInt_signExtend_of_le h]
  rfl

theorem iOperand_signExtend {w : Nat} (v : BitVec w) (h : w ≤ 12) : iOperand (v.signExtend 12) = v.signExtend 64 := by
  rw [iOperand_eq, signExtend_signExtend v h]

/-- A zero-extended immediate has bit 11 clear, so its sign extension adds none. -/
theorem iOperand_setWidth {w : Nat} (v : BitVec w) (h : w < 12) : iOperand (v.setWidth 12) = v.setWidth 64 := by
  have hmsb : (v.setWidth 12).msb = false := by
    rw [BitVec.msb_eq_getLsbD_last, BitVec.getLsbD_setWidth, BitVec.getLsbD_of_ge v (12 - 1) (by omega)]
    rfl
  rw [iOperand_eq, BitVec.signExtend_eq_setWidth_of_msb_false hmsb, BitVec.setWidth_setWidth (by omega)]

/-- An offset given by its upper bits is that multiple of 4. -/
theorem setWidth_append_twoZeros {w : Nat} (k : BitVec w) : (k ++ 0#2).setWidth 64 = BitVec.ofNat 64 (4 * k.toNat) := by
  apply BitVec.eq_of_toNat_eq
  simp [BitVec.toNat_append, Nat.shiftLeft_eq, Nat.mul_comm]

theorem append_zeros_ne_zero {w n : Nat} {k : BitVec w} (h : k ≠ 0) : k ++ 0#n ≠ 0 := by
  intro h0
  apply h
  apply BitVec.eq_of_getLsbD_eq
  intro i _
  have hbit := congrArg (BitVec.getLsbD · (i + n)) h0
  simpa [BitVec.getLsbD_append] using hbit

/-! ## The halfwords of the rules in the encoder's terms (R344 to R367)

The rules write the immediate by its bits above the zeros, the encoder by the whole of it. -/

theorem addi4spnHalf_eq_pack4spn (k : BitVec 8) (r : Reg3) :
    0b000#3 ++ k.extractLsb' 2 2 ++ k.extractLsb' 4 4 ++ k.extractLsb' 0 1 ++ k.extractLsb' 1 1 ++ r ++ 0b00#2 =
      pack4spn (k ++ 0#2) r := by
  apply BitVec.eq_of_getLsbD_eq
  intro i hi
  simp only [pack4spn, BitVec.getLsbD_append, BitVec.getLsbD_extractLsb']
  interval_cases i <;> simp

theorem addi16spHalf_eq_pack16sp (k : BitVec 6) :
    0b011#3 ++ k.extractLsb' 5 1 ++ 0b00010#5 ++ k.extractLsb' 0 1 ++ k.extractLsb' 2 1 ++ k.extractLsb' 3 2 ++
      k.extractLsb' 1 1 ++ 0b01#2 = pack16sp (k ++ 0#4) := by
  apply BitVec.eq_of_getLsbD_eq
  intro i hi
  simp only [pack16sp, BitVec.getLsbD_append, BitVec.getLsbD_extractLsb']
  interval_cases i <;> simp

theorem lwHalf_eq_packCLw (f3 : BitVec 3) (k : BitVec 5) (r1 r : Reg3) :
    f3 ++ k.extractLsb' 1 3 ++ r1 ++ k.extractLsb' 0 1 ++ k.extractLsb' 4 1 ++ r ++ 0b00#2 =
      packCLw f3 (k ++ 0#2) r1 r := by
  apply BitVec.eq_of_getLsbD_eq
  intro i hi
  simp only [packCLw, BitVec.getLsbD_append, BitVec.getLsbD_extractLsb']
  interval_cases i <;> simp

theorem jumpHalf_eq_packCJ (f3 : BitVec 3) (k : BitVec 11) :
    f3 ++ k.extractLsb' 10 1 ++ k.extractLsb' 3 1 ++ k.extractLsb' 7 2 ++ k.extractLsb' 9 1 ++ k.extractLsb' 5 1 ++
      k.extractLsb' 6 1 ++ k.extractLsb' 0 3 ++ k.extractLsb' 4 1 ++ 0b01#2 = packCJ f3 (k ++ 0#1) := by
  apply BitVec.eq_of_getLsbD_eq
  intro i hi
  simp only [packCJ, BitVec.getLsbD_append, BitVec.getLsbD_extractLsb']
  interval_cases i <;> simp

theorem branchHalf_eq_packCB (f3 : BitVec 3) (k : BitVec 8) (r : Reg3) :
    f3 ++ k.extractLsb' 7 1 ++ k.extractLsb' 2 2 ++ r ++ k.extractLsb' 5 2 ++ k.extractLsb' 0 2 ++ k.extractLsb' 4 1 ++
      0b01#2 = packCB f3 (k ++ 0#1) r := by
  apply BitVec.eq_of_getLsbD_eq
  intro i hi
  simp only [packCB, BitVec.getLsbD_append, BitVec.getLsbD_extractLsb']
  interval_cases i <;> simp

theorem registerHalf_eq_packCA (op : BitVec 2) (r r2 : Reg3) :
    0b100#3 ++ 0#1 ++ 0b11#2 ++ r ++ op ++ r2 ++ 0b01#2 = packCA 0#1 0b11#2 r (op ++ r2) := by
  apply BitVec.eq_of_getLsbD_eq
  intro i hi
  simp only [packCA, BitVec.getLsbD_append]
  interval_cases i <;> simp

/-! ## Immediate forms (R344, R348, R352, R354, R356, R360) -/

section ExecImmediate

variable (rd : Reg) (r : Reg3) (v : BitVec 6) (s : State)

theorem exec_cAddi4spn (k : BitVec 8) : exec (.cAddi4spn r (k ++ 0#2)) s =
    writeResult 2 (8 + r.setWidth 5) (s.getX 2 + BitVec.ofNat 64 (4 * k.toNat)) s := by
  rw [← setWidth_append_twoZeros, ← iOperand_setWidth _ (by decide)]
  rfl

theorem exec_cAddi : exec (.cAddi rd v) s = writeResult 2 rd (s.getX rd + v.signExtend 64) s := by
  rw [← iOperand_signExtend v (by decide)]
  rfl

/-- The base of c.li is `x0`, which reads 0. -/
theorem exec_cLi : exec (.cLi rd v) s = writeResult 2 rd (v.signExtend 64) s := by
  have hzero : v.signExtend 64 = s.getX 0 + iOperand (v.signExtend 12) := by
    rw [iOperand_signExtend v (by decide), State.getX_zero]
    exact (BitVec.zero_add _).symm
  rw [hzero]
  rfl

theorem exec_cAddi16sp (v : BitVec 10) : exec (.cAddi16sp v) s = writeResult 2 2 (s.getX 2 + v.signExtend 64) s := by
  rw [← iOperand_signExtend v (by decide)]
  rfl

theorem exec_cLui : exec (.cLui rd v) s = writeResult 2 rd (0#32 ++ v.signExtend 20 ++ 0#12) s := by
  rw [← luiOperand_eq_append]
  rfl

theorem exec_cAndi : exec (.cAndi r v) s =
    writeResult 2 (8 + r.setWidth 5) (s.getX (8 + r.setWidth 5) &&& v.signExtend 64) s := by
  rw [← iOperand_signExtend v (by decide)]
  rfl

end ExecImmediate

/-- Settles O41: each halfword is the encoder's, whose decoding stands in the decoder layer; the immediate is that of the
expansion. -/
theorem compressedImmediateResults : Obligations.CompressedImmediateResults := by
  unfold Obligations.CompressedImmediateResults
  intro high
  refine ⟨fun r k h0 => ⟨?_, fun s => writesResult_of_exec (exec_cAddi4spn r s k)⟩,
    fun rd v => ⟨decode_packCI_addi high rd v, fun s => writesResult_of_exec (exec_cAddi rd v s)⟩,
    fun rd v => ⟨decode_packCI_li high rd v, fun s => writesResult_of_exec (exec_cLi rd v s)⟩,
    fun k h0 => ⟨?_, fun s => writesResult_of_exec (exec_cAddi16sp s (k ++ 0#4))⟩,
    fun rd v hrd h0 => ⟨decode_packCI_lui high hrd h0, fun s => writesResult_of_exec (exec_cLui rd v s)⟩,
    fun r v => ⟨decode_packCA_andi high r v, fun s => writesResult_of_exec (exec_cAndi r v s)⟩⟩
  · rw [addi4spnHalf_eq_pack4spn]
    exact decode_pack4spn high r (lowZero_append_zero k) (append_zeros_ne_zero h0)
  · rw [addi16spHalf_eq_pack16sp]
    exact decode_pack16sp high (lowZero_append_zero k) (append_zeros_ne_zero h0)

/-! ## Shifts and register forms (R358, R359, R361 to R364, R368, R373, R374) -/

/-- c.mv adds `x0`, which reads 0. -/
theorem exec_cMv (rd rs2 : Reg) (s : State) : exec (.cMv rd rs2) s = writeResult 2 rd (s.getX rs2) s := by
  have hzero : s.getX rs2 = s.getX 0 + s.getX rs2 := by
    rw [State.getX_zero]
    exact (BitVec.zero_add _).symm
  rw [hzero]
  rfl

/-- Settles O42: each halfword is the encoder's, and the effect is the rule of the expansion at length 2. -/
theorem compressedRegisterResults : Obligations.CompressedRegisterResults := by
  unfold Obligations.CompressedRegisterResults
  intro high
  simp only [registerHalf_eq_packCA]
  exact
    ⟨fun r sh => ⟨decode_packCA_srli high r sh, decode_packCA_srai high r sh,
        fun s => ⟨writesResult_of_exec rfl, writesResult_of_exec rfl⟩⟩,
      fun r r2 => ⟨decode_packCA_sub high r r2, decode_packCA_xor high r r2, decode_packCA_or high r r2,
        decode_packCA_and high r r2, fun s => ⟨writesResult_of_exec rfl, writesResult_of_exec rfl,
          writesResult_of_exec rfl, writesResult_of_exec rfl⟩⟩,
      fun rd sh h0 => ⟨decode_packC_slli high rd h0, fun s => writesResult_of_exec rfl⟩,
      fun rd rs2 h0 => ⟨decode_packC_mv high rd h0, decode_packC_add high rd h0,
        fun s => ⟨writesResult_of_exec (exec_cMv rd rs2 s), writesResult_of_exec rfl⟩⟩⟩

/-! ## c.lw and c.sw (R345, R346) -/

/-- The effective address, with the offset as the multiple of 4 that the rule writes. -/
theorem State.ea_full_append (s : State) (r1 : Reg3) (k : BitVec 5) :
    s.ea r1.full ((k ++ 0#2).setWidth 12) = s.getX (8 + r1.setWidth 5) + BitVec.ofNat 64 (4 * k.toNat) := by
  rw [State.ea_full, setWidth_append_twoZeros]

theorem exec_cLw_append (r1 r : Reg3) (k : BitVec 5) (s : State) : exec (.cLw r r1 (k ++ 0#2)) s =
    load 2 4 (sext 32) (8 + r.setWidth 5) (s.getX (8 + r1.setWidth 5) + BitVec.ofNat 64 (4 * k.toNat)) s := by
  rw [← State.ea_full_append]
  rfl

theorem exec_cSw_append (r1 r : Reg3) (k : BitVec 5) (s : State) : exec (.cSw r1 r (k ++ 0#2)) s =
    store 2 4 (s.getX (8 + r1.setWidth 5) + BitVec.ofNat 64 (4 * k.toNat)) (s.getX (8 + r.setWidth 5)) s := by
  rw [← State.ea_full_append]
  rfl

/-- Settles O43: the halfwords are the encoder's, and each instruction ends in the load or the store of its expansion. -/
theorem compressedMemoryResults : Obligations.CompressedMemoryResults := by
  unfold Obligations.CompressedMemoryResults
  intro high r1 r k
  simp only [lwHalf_eq_packCLw]
  exact ⟨decode_packCLw_load high r1 r (lowZero_append_zero k), decode_packCLw_store high r1 r (lowZero_append_zero k),
    fun s => ⟨loads_of_exec (by decide) (exec_cLw_append r1 r k s), stores_of_exec (exec_cSw_append r1 r k s),
      fun _ _ => stopsWith_of_load (exec_cLw_append r1 r k s), fun _ _ => stopsWith_of_store (exec_cSw_append r1 r k s)⟩⟩

/-! ## Jumps (R351, R365, R371, R372) -/

/-- A jump that links into `x0` writes no register. -/
theorem onlyMoves_of_jump {i : Instr} {s : State} {link target : Word} (h : exec i s = jump 0 link target s) :
    OnlyMoves i s target :=
  ⟨s.redirect target, h, State.keptRegs_redirect s target, ⟨rfl, rfl, rfl, rfl⟩, rfl⟩

/-- The 12-bit offset has room below bit 20: both values of the parameter extend it alike. -/
theorem sext_jalBits {n : Nat} (h : n = 21 ∨ n = 20) (v : BitVec 12) : sext n (v.signExtend 21) = v.signExtend 64 := by
  rcases h with rfl | rfl
  · rw [sext, BitVec.setWidth_eq, signExtend_signExtend v (by decide)]
  · rw [sext, setWidth_signExtend v (by decide), signExtend_signExtend v (by decide)]

section ExecJump

variable (rs1 : Reg) (v : BitVec 12) (s : State)

theorem exec_cJal : exec (.cJal v) s = jump 1 (s.pc + 2) (s.pc + sext s.cfg.jalSextBits (v.signExtend 21)) s := rfl

theorem exec_cJ : exec (.cJ v) s = jump 0 (s.pc + 2) (s.pc + sext s.cfg.jalSextBits (v.signExtend 21)) s := rfl

theorem exec_cJr : exec (.cJr rs1) s = jump 0 (s.pc + 4) (s.getX rs1) s := by
  rw [← State.ea_zero]
  rfl

theorem exec_cJalr : exec (.cJalr rs1) s = jump 1 (s.pc + 4) (s.getX rs1) s := by
  rw [← State.ea_zero]
  rfl

end ExecJump

/-- Settles O44: the halfwords are the encoder's; a jump that links into `x0` only moves. -/
theorem compressedJumpResults : Obligations.CompressedJumpResults := by
  unfold Obligations.CompressedJumpResults
  intro high
  simp only [jumpHalf_eq_packCJ]
  exact
    ⟨fun k => ⟨decode_packCJ_jal high (lowZero_append_zero k), decode_packCJ_j high (lowZero_append_zero k),
        fun s => ⟨fun h => sext_jalBits h (k ++ 0#1), writesResult_of_jump (exec_cJal _ s), onlyMoves_of_jump (exec_cJ _ s)⟩⟩,
      fun rs1 h0 => ⟨decode_packC_jr high h0, decode_packC_jalr high h0,
        fun s => ⟨onlyMoves_of_jump (exec_cJr rs1 s), writesResult_of_jump (exec_cJalr rs1 s)⟩⟩⟩

/-! ## Branches (R366, R367) -/

section ExecBranch

variable (r : Reg3) (v : BitVec 9) (s : State)

theorem exec_cBeqz : exec (.cBeqz r v) s =
    branch 2 (condEq (s.getX (8 + r.setWidth 5)) (s.getX 0)) (v.signExtend 13) s := rfl

theorem exec_cBnez : exec (.cBnez r v) s =
    branch 2 (condNe (s.getX (8 + r.setWidth 5)) (s.getX 0)) (v.signExtend 13) s := rfl

end ExecBranch

/-- Settles O45: the halfwords are the encoder's, and each is the branch of its expansion against `x0`. -/
theorem compressedBranchResults : Obligations.CompressedBranchResults := by
  unfold Obligations.CompressedBranchResults
  intro high r k
  simp only [branchHalf_eq_packCB]
  refine ⟨decode_packCB_beqz high r (lowZero_append_zero k), decode_packCB_bnez high r (lowZero_append_zero k), fun s => ?_⟩
  obtain ⟨heq, hne⟩ := onlyMoves_of_branch (exec_cBeqz r (k ++ 0#1) s) condEq_iff
  obtain ⟨hne', heq'⟩ := onlyMoves_of_branch (exec_cBnez r (k ++ 0#1) s) condNe_iff
  rw [State.getX_zero] at heq hne hne' heq'
  rw [signExtend_signExtend _ (by decide)] at heq hne'
  exact ⟨fun h0 => ⟨heq h0, heq' (not_not.mpr h0)⟩, fun h0 => ⟨hne h0, hne' h0⟩⟩

/-! ## c.slli64 (R369) -/

/-- Settles O46: the halfword is the encoder's, and the instruction raises the error with it. -/
theorem compressedSlli64Stops : Obligations.CompressedSlli64Stops :=
  fun high rd => ⟨decode_packC_slli64 high rd, fun s => stopsWith_of_exec (exec_cSlli64 rd s)⟩

end Sys2Proof.Machine
end

section
/-! PROOFS. Memory: routing, reads and writes of buffers, and what a load or a fetch sees of a store. -/

namespace Sys2Proof.Machine

/-! ## Routing (R53, R54) -/

theorem Mapping.holds_iff {m : Mapping} {a : Word} :
    m.holds a = true ↔ m.start.toNat ≤ a.toNat ∧ a.toNat < m.stop.toNat := by
  simp only [Mapping.holds, Bool.and_eq_true, decide_eq_true_eq]

theorem Mapping.holds_eq_false_iff {m : Mapping} {a : Word} :
    m.holds a = false ↔ ¬ (m.start.toNat ≤ a.toNat ∧ a.toNat < m.stop.toNat) := by
  rw [← Mapping.holds_iff, Bool.not_eq_true]

/-- The tuple of an address is the first one that holds it. -/
theorem Bus.lookup_eq_some_iff {a : Word} {bus : Bus} {m : Mapping} : Bus.lookup a bus = some m ↔
    ∃ pre post, bus = pre ++ m :: post ∧ m.holds a = true ∧ ∀ m' ∈ pre, m'.holds a = false := by
  constructor
  · intro h
    obtain ⟨pre, post, hb, hp⟩ := Bus.split_of_lookup h
    exact ⟨pre, post, hb, Bus.holds_of_lookup h, hp⟩
  · rintro ⟨pre, post, rfl, hm, hp⟩
    exact Bus.lookup_append post hm hp

theorem Bus.lookup_eq_none {a : Word} {bus : Bus} (h : ∀ m ∈ bus, m.holds a = false) : Bus.lookup a bus = none := by
  by_contra hne
  obtain ⟨m, hl⟩ := Option.ne_none_iff_exists'.mp hne
  obtain ⟨pre, post, rfl, hm, -⟩ := Bus.lookup_eq_some_iff.mp hl
  exact Bool.false_ne_true ((h m (by simp)).symm.trans hm)

/-- Settles O47: `Bus.lookup_eq_some_iff` is the routing rule; a miss answers the error of its address; every access
touches the bus alone, and of it the routed tuple. -/
theorem unmappedAddressIsFatal : Obligations.UnmappedAddressIsFatal := by
  unfold Obligations.UnmappedAddressIsFatal
  simp only [← Mapping.holds_iff, Bool.not_eq_true]
  refine ⟨fun a bus m => ?_, fun s a v n h => ?_, fun s a v n =>
    ⟨State.memRead_touched s a n, rfl, State.memWrite_touched s a v n, rfl⟩⟩
  · simp only [Bus.lookup_eq_some_iff, Mapping.holds_iff, and_assoc]
  · have hl := Bus.lookup_eq_none h
    exact ⟨State.memRead_unmapped s a n hl, State.memWrite_unmapped s a v n hl⟩

/-! ## Reads of a buffer (R56 to R62, R71) -/

/-- Where an access finds bytes, the address is routed to a buffer. -/
theorem State.holdsBytes.routed {s : State} {a : Word} {bs : List Byte} (h : s.holdsBytes a bs) (h0 : bs ≠ []) :
    ∃ m, Bus.lookup a s.bus = some m ∧ m.region.shape ≠ .uart := by
  have hfirst := h 0 (List.length_pos_iff.mpr h0)
  unfold State.accessByte at hfirst
  rcases hl : Bus.lookup a s.bus with _ | m
  · rw [hl] at hfirst
    cases hfirst
  · refine ⟨m, rfl, fun hs => ?_⟩
    simp only [hl] at hfirst
    cases hreg : m.region with
    | uart u => simp [hreg, Region.peek] at hfirst
    | ram size buf | rom size buf =>
      rw [hreg] at hs
      cases hs

/-- Settles O48: a read of bytes that stand in a buffer answers their value, and one that goes past them, also past none,
fails. -/
theorem bufferReads : Obligations.BufferReads := by
  unfold Obligations.BufferReads
  refine ⟨fun s a bs h0 hb => ⟨fun hlen => ?_, fun n hn hend => ?_⟩, fun s a n m hn hl hr hend => ?_⟩
  · exact ⟨leValue bs, State.memRead_holds s a bs hb h0, leValue_toNat bs hlen⟩
  · obtain ⟨m, hl, hr⟩ := hb.routed h0
    exact State.memRead_past s a m bs n hl hr hb hn hend
  · exact State.memRead_past s a m [] n hl hr (fun i hi => absurd hi (Nat.not_lt_zero i)) hn hend

/-! ## Writes of RAM (R57 to R62) -/

/-- An access that fails and leaves its region as it was changes nothing. -/
theorem State.memWrite_failed {s : State} {a v : Word} {m : Mapping} {n : Nat} {f : Fatal}
    (hl : Bus.lookup a s.bus = some m)
    (h : m.region.writeBytes a m.top (m.offset a) (leBytes n v) = (.error f, m.region)) :
    s.memWrite a n v = (.error f, s) := by
  have hbus : (Bus.write a (leBytes n v) s.bus).2 = s.bus := by
    refine Bus.route_id _ s.bus fun m' hl' => ?_
    obtain rfl : m = m' := Option.some.inj (hl.symm.trans hl')
    exact congrArg Prod.snd h
  refine Prod.ext ((State.memWrite_routed n v hl).1.trans (congrArg Prod.fst h)) ?_
  simp only [State.memWrite, hbus]

theorem Region.writeBytes_pastRam (acc : Word) (top : Nat) {o size : Nat} (b : Byte) (bs : List Byte) (buf : Memory)
    (h : size ≤ o) : Region.writeBytes acc top o (b :: bs) (.ram size buf) = (.error (.address acc), .ram size buf) := by
  simp only [Region.writeBytes, Region.writeByte, if_neg (Nat.not_lt.mpr h), ite_self]

/-- After a write inside RAM byte `i` of the access is byte `i` of the value. -/
theorem State.memWrite_accessByte {s : State} {a : Word} {k : Nat} (v : Word) (hwf : Bus.wf s.bus = true)
    (h : s.inRam a k) {i : Nat} (hi : i < k) :
    (s.memWrite a k v).2.accessByte a i = some ((v >>> (8 * i)).setWidth 8) := by
  obtain ⟨-, hholds, -⟩ := State.memWrite_inRam s a v k h
  have hi' : i < (leBytes k v).length := by rwa [leBytes_length]
  rw [← leBytes_getElem k i v hi']
  exact hholds hwf i hi'

/-- Settles O49: a write inside the buffer leaves the bytes of the value; one that goes past it leaves what the write of
the bytes before the end leaves, and one that starts past it leaves everything. -/
theorem ramWrites : Obligations.RamWrites := by
  unfold Obligations.RamWrites
  refine ⟨fun s a v n k hwf hram => ?_, fun s a v n m size buf hn hl hreg hsize => ?_⟩
  · have hframe := State.memWrite_memory s a v k
    obtain ⟨hok, -, -⟩ := State.memWrite_inRam s a v k hram
    exact ⟨⟨_, Prod.ext hok rfl, hframe, fun i hi => State.memWrite_accessByte v hwf hram hi⟩,
      fun hk hend => ⟨_, State.memWrite_past s a v n k hram hk hend, hframe,
        fun i hi => State.memWrite_accessByte v hwf hram hi⟩⟩
  · obtain ⟨k, rfl⟩ := Nat.exists_eq_add_one.mpr hn
    refine State.memWrite_failed hl ?_
    rw [hreg]
    exact Region.writeBytes_pastRam a m.top _ _ buf hsize

/-! ## A load after a store (R203) -/

/-- The low bytes of a value, put together again, are its low bits. -/
theorem setWidth_leValue_leBytes (n : Nat) (v : Word) :
    (leValue (leBytes n v)).setWidth (8 * n) = v.setWidth (8 * n) := by
  apply BitVec.eq_of_getLsbD_eq
  intro i hi
  rw [BitVec.getLsbD_setWidth, BitVec.getLsbD_setWidth, leValue_leBytes_getLsbD, decide_eq_true hi]
  rfl

theorem leValue_leBytes_doubleword (v : Word) : leValue (leBytes 8 v) = v := by
  have h := setWidth_leValue_leBytes 8 v
  rwa [BitVec.setWidth_eq, BitVec.setWidth_eq] at h

section RoundTrip

variable {s : State} {i j : Instr} {n : Nat} {view : Word → Word} {rd rs1 rs2 r1 : Reg} {imm off : BitVec 12}

/-- After a store inside RAM the load of the same width at the same address finds the bytes of the stored value. -/
theorem load_after_store (hi : exec i s = store 4 n (s.ea rs1 imm) (s.getX rs2) s)
    (hj : ∀ t, exec j t = load 4 n view rd (t.ea r1 off) t) (hn : 0 < n) (hwf : Bus.wf s.bus = true) (hrd : rd ≠ 0)
    {x : Word} (hx : view (leValue (leBytes n (s.getX rs2))) = x) (hram : s.inRam (s.getX rs1 + imm.signExtend 64) n) :
    ∃ t, exec i s = .next t ∧ t.halted = s.halted ∧
      (t.getX r1 + off.signExtend 64 = s.getX rs1 + imm.signExtend 64 →
        ∃ u, exec j t = .next u ∧ u.halted = s.halted ∧ u.getX rd = x) := by
  obtain ⟨t, ht, -, hreached, -, hholds⟩ := (stores_of_exec_ea hi).2 hram
  refine ⟨t, ht, hreached.halted, fun ha => ?_⟩
  have hb := hholds hwf
  rw [← ha] at hb
  obtain ⟨u, hu, hwrote, hreached', -⟩ := (loads_of_exec_ea hn (hj t)).2 _ (leBytes_length n _) hb
  exact ⟨u, hu, hreached'.halted.trans hreached.halted, by rw [hwrote.result, if_neg hrd, hx]⟩

end RoundTrip

/-- Settles O51: `load_after_store` at each width; the views narrow to the bits that the bytes give back. -/
theorem storeLoadRoundTrip : Obligations.StoreLoadRoundTrip := by
  unfold Obligations.StoreLoadRoundTrip
  intro s rs1 rs2 rd r1 imm off hinv hrd
  have h1 := setWidth_leValue_leBytes 1 (s.getX rs2)
  have h2 := setWidth_leValue_leBytes 2 (s.getX rs2)
  have h4 := setWidth_leValue_leBytes 4 (s.getX rs2)
  refine
    ⟨load_after_store (exec_sb rs1 rs2 imm s) (exec_lbu rd r1 off) (by decide) hinv.busWf hrd ?_,
      load_after_store (exec_sb rs1 rs2 imm s) (exec_lb rd r1 off) (by decide) hinv.busWf hrd ?_,
      load_after_store (exec_sh rs1 rs2 imm s) (exec_lhu rd r1 off) (by decide) hinv.busWf hrd ?_,
      load_after_store (exec_sh rs1 rs2 imm s) (exec_lh rd r1 off) (by decide) hinv.busWf hrd ?_,
      load_after_store (exec_sw rs1 rs2 imm s) (exec_lwu rd r1 off) (by decide) hinv.busWf hrd ?_,
      load_after_store (exec_sw rs1 rs2 imm s) (exec_lw rd r1 off) (by decide) hinv.busWf hrd ?_,
      load_after_store (exec_sd rs1 rs2 imm s) (exec_ld rd r1 off) (by decide) hinv.busWf hrd
        (leValue_leBytes_doubleword _)⟩
  · exact congrArg (BitVec.setWidth 64) h1
  · exact congrArg (BitVec.signExtend 64) h1
  · exact congrArg (BitVec.setWidth 64) h2
  · exact congrArg (BitVec.signExtend 64) h2
  · exact congrArg (BitVec.setWidth 64) h4
  · exact congrArg (BitVec.signExtend 64) h4

/-! ## A narrow read inside a wide write (R61) -/

/-- Addresses with one tuple have one tuple after any access. -/
theorem Bus.lookup_route_congr {β : Type} {a b c : Word} {bus : Bus} (access : Mapping → Except Fatal β × Region)
    (h : Bus.lookup c bus = Bus.lookup a bus) :
    Bus.lookup c (Bus.route b access bus).2 = Bus.lookup a (Bus.route b access bus).2 := by
  induction bus with
  | nil => rfl
  | cons m rest ih =>
    have hheld : m.holds c = m.holds a := by
      simp only [Bus.lookup] at h
      rcases hc : m.holds c with _ | _ <;> rcases ha : m.holds a with _ | _
      · rfl
      · simp only [hc, ha, Bool.false_eq_true, if_false, if_true] at h
        exact hc.symm.trans (Bus.holds_of_lookup h)
      · simp only [hc, ha, Bool.false_eq_true, if_false, if_true] at h
        exact (Bus.holds_of_lookup h.symm).symm.trans ha
      · rfl
    have hrest : m.holds a = false → Bus.lookup c rest = Bus.lookup a rest := fun ha => by
      simpa only [Bus.lookup, hheld, ha, Bool.false_eq_true, if_false] using h
    have hsame (r : Region) (w : Word) : Mapping.holds { m with region := r } w = m.holds w := rfl
    simp only [Bus.route]
    split
    · simp only [Bus.lookup, hsame, hheld]
      split
      · rfl
      · next ha => exact hrest (by simpa using ha)
    · simp only [Bus.lookup, hheld]
      split
      · rfl
      · next ha => exact ih (hrest (by simpa using ha))

/-- An access further on in the same tuple sees the later bytes of the access at `a`. -/
theorem State.accessByte_add {s : State} {a : Word} {k : Nat} (htop : a.toNat + k < 2 ^ 64)
    (hl : Bus.lookup (a + BitVec.ofNat 64 k) s.bus = Bus.lookup a s.bus) (i : Nat) :
    s.accessByte (a + BitVec.ofNat 64 k) i = s.accessByte a (k + i) := by
  have haddr : (a + BitVec.ofNat 64 k).toNat = a.toNat + k := by
    rw [BitVec.toNat_add, BitVec.toNat_ofNat]
    omega
  unfold State.accessByte
  rw [hl]
  rcases hm : Bus.lookup a s.bus with _ | m
  · rfl
  · obtain ⟨hstart, -⟩ := Mapping.holds_iff.mp (Bus.holds_of_lookup hm)
    have hoff : m.offset (a + BitVec.ofNat 64 k) + i = m.offset a + (k + i) := by
      simp only [Mapping.offset, haddr]
      omega
    simp only [haddr, hoff, Nat.add_assoc]

/-- Settles O52: after the write the narrow access finds bytes `k` to `k + m - 1` of the value, which are the bytes of the
value shifted. -/
theorem narrowReadOfWideWrite : Obligations.NarrowReadOfWideWrite := by
  unfold Obligations.NarrowReadOfWideWrite
  intro s s1 a v n m k hwf hram _ hm hk hl hw
  obtain rfl : s1 = (s.memWrite a n v).2 := by rw [hw]
  have htop : a.toNat + k < 2 ^ 64 := by
    obtain ⟨_, _, _, -, -, -, htop⟩ := hram
    omega
  have hholds : (s.memWrite a n v).2.holdsBytes (a + BitVec.ofNat 64 k) (leBytes m (v >>> (8 * k))) := by
    intro i hi
    have hin : k + i < n := by
      rw [leBytes_length] at hi
      omega
    rw [State.accessByte_add htop (Bus.lookup_route_congr _ hl), State.memWrite_accessByte v hwf hram hin, leBytes_getElem,
      ← BitVec.shiftRight_add, Nat.mul_add]
  have hread := State.memRead_holds _ _ _ hholds (List.ne_nil_of_length_pos (by rwa [leBytes_length]))
  rwa [leBytes_length, leValue_leBytes] at hread

/-! ## A fetch after a store (R76, R204) -/

theorem State.fetch_leBytes {s : State} {v : Word} (h : s.holdsBytes s.pc (leBytes 4 v)) :
    s.fetch = (.ok (v.setWidth 32), s) := by
  have hread : s.memRead s.pc 4 = (.ok (leValue (leBytes 4 v)), s) := State.memRead_holds s s.pc _ h nofun
  have hlow : (leValue (leBytes 4 v)).setWidth 32 = v.setWidth 32 := setWidth_leValue_leBytes 4 v
  simp only [State.fetch, hread, Except.map, hlow]

/-- Settles O53: SW leaves the bytes of its value at the next `pc`, which the next step fetches. -/
theorem storeIsSeenByNextFetch : Obligations.StoreIsSeenByNextFetch := by
  unfold Obligations.StoreIsSeenByNextFetch
  intro s rs1 rs2 imm i hinv hh ha hram hd
  rw [← ha] at hram
  obtain ⟨t, ht, -, hreached, -, hholds⟩ := (stores_of_exec_ea (exec_sw rs1 rs2 imm s)).2 hram
  have hbytes : t.holdsBytes t.pc (leBytes 4 (s.getX rs2)) := by
    rw [hreached.pc, ← ha]
    exact hholds hinv.busWf
  exact ⟨t, ht, hreached.pc, step_decoded (hreached.halted.trans hh) (State.fetch_leBytes hbytes) hd⟩

end Sys2Proof.Machine
end

section
/-! PROOFS. Accesses of a UART, of one byte and of several. -/

namespace Sys2Proof.Machine

/-! ## The device alone (R417, R419, R424)

Below the top of the address space an access of a UART does not depend on its address or its range: it is a run of byte
accesses of the device. -/

/-- `n` byte reads from offset `o` on, to the first that fails. -/
def Uart.readBytes : Nat → Nat → Uart → Except Fatal (List Byte) × Uart
  | 0, _, u => (.ok [], u)
  | n + 1, o, u =>
    match u.readByte o with
    | (.error f, u1) => (.error f, u1)
    | (.ok b, u1) => ((Uart.readBytes n (o + 1) u1).1.map (b :: ·), (Uart.readBytes n (o + 1) u1).2)

/-- Byte writes from offset `o` on, to the first that fails. -/
def Uart.writeBytes : Nat → List Byte → Uart → Except Fatal Unit × Uart
  | _, [], u => (.ok (), u)
  | o, b :: bs, u =>
    match u.writeByte o b with
    | (.error f, u1) => (.error f, u1)
    | (.ok _, u1) => Uart.writeBytes (o + 1) bs u1

theorem Uart.readBytes_of_ok {u u1 : Uart} {o : Nat} {b : Byte} (h : u.readByte o = (.ok b, u1)) (n : Nat) :
    u.readBytes (n + 1) o = ((u1.readBytes n (o + 1)).1.map (b :: ·), (u1.readBytes n (o + 1)).2) := by
  simp only [Uart.readBytes, h]

theorem Uart.readBytes_of_error {u u1 : Uart} {o : Nat} {f : Fatal} (h : u.readByte o = (.error f, u1)) (n : Nat) :
    u.readBytes (n + 1) o = (.error f, u1) := by
  simp only [Uart.readBytes, h]

theorem Uart.writeBytes_of_ok {u u1 : Uart} {o : Nat} {b : Byte} (h : u.writeByte o b = (.ok (), u1))
    (bs : List Byte) : u.writeBytes o (b :: bs) = u1.writeBytes (o + 1) bs := by
  simp only [Uart.writeBytes, h]

theorem Uart.writeBytes_of_error {u u1 : Uart} {o : Nat} {b : Byte} {f : Fatal} (h : u.writeByte o b = (.error f, u1))
    (bs : List Byte) : u.writeBytes o (b :: bs) = (.error f, u1) := by
  simp only [Uart.writeBytes, h]

theorem Region.readBytes_uart (acc : Word) {top n o : Nat} (u : Uart) (htop : o + n ≤ top) :
    Region.readBytes acc top n o (.uart u) = ((u.readBytes n o).1, .uart (u.readBytes n o).2) := by
  induction n generalizing o u with
  | zero => rfl
  | succ n ih =>
    simp only [Region.readBytes, if_neg (show ¬ top ≤ o by omega), Region.readByte]
    rcases hb : u.readByte o with ⟨f | b, u1⟩
    · simp only [Uart.readBytes_of_error hb]
    · simp only [Uart.readBytes_of_ok hb, ih (o := o + 1) u1 (by omega)]
      rcases u1.readBytes n (o + 1) with ⟨_ | bs, u2⟩ <;> rfl

theorem Region.writeBytes_uart (acc : Word) {top o : Nat} (bytes : List Byte) (u : Uart) (htop : o + bytes.length ≤ top) :
    Region.writeBytes acc top o bytes (.uart u) = ((u.writeBytes o bytes).1, .uart (u.writeBytes o bytes).2) := by
  induction bytes generalizing o u with
  | nil => rfl
  | cons b bs ih =>
    rw [List.length_cons] at htop
    simp only [Region.writeBytes, if_neg (show ¬ top ≤ o by omega), Region.writeByte]
    rcases hb : u.writeByte o b with ⟨f | _, u1⟩
    · simp only [Uart.writeBytes_of_error hb]
    · simp only [Uart.writeBytes_of_ok hb, ih (o := o + 1) u1 (by omega)]

/-! ## The device behind the bus (R53) -/

section AtUart

variable {s : State} {a : Word} {u u' : Uart} {o n : Nat}

theorem State.atUart_unique (h : s.atUart a u o) (h' : s.atUart a u' o) : u = u' := by
  obtain ⟨m, hl, hreg, -⟩ := h
  obtain ⟨m', hl', hreg', -⟩ := h'
  obtain rfl : m = m' := Option.some.inj (hl.symm.trans hl')
  exact Region.uart.inj (hreg.symm.trans hreg')

theorem State.memRead_atUart (hu : s.atUart a u o) (htop : a.toNat + n ≤ 2 ^ 64) :
    (s.memRead a n).1 = (u.readBytes n o).1.map leValue ∧ (s.memRead a n).2.atUart a (u.readBytes n o).2 o := by
  obtain ⟨m, hl, hreg, rfl⟩ := hu
  obtain ⟨h1, h2⟩ := State.memRead_routed n hl
  rw [hreg, Region.readBytes_uart a u (Mapping.offset_add_le_top (Bus.holds_of_lookup hl) htop)] at h1 h2
  exact ⟨h1, _, h2, rfl, rfl⟩

theorem State.memWrite_atUart (v : Word) (hu : s.atUart a u o) (htop : a.toNat + n ≤ 2 ^ 64) :
    (s.memWrite a n v).1 = (u.writeBytes o (leBytes n v)).1 ∧
      (s.memWrite a n v).2.atUart a (u.writeBytes o (leBytes n v)).2 o := by
  obtain ⟨m, hl, hreg, rfl⟩ := hu
  obtain ⟨h1, h2⟩ := State.memWrite_routed n v hl
  rw [hreg, Region.writeBytes_uart a _ u
    (by rw [leBytes_length]; exact Mapping.offset_add_le_top (Bus.holds_of_lookup hl) htop)] at h1 h2
  exact ⟨h1, _, h2, rfl, rfl⟩

theorem Region.peek_uart {r : Region} (h : r.shape = .uart) (k : Nat) : r.peek k = none := by
  cases r with
  | uart u => rfl
  | ram size buf | rom size buf => cases h

/-- A write of a UART changes no byte of RAM or ROM. -/
theorem State.memWrite_atUart_memory (n : Nat) (v : Word) (hu : s.atUart a u o) :
    State.KeptMemory s (s.memWrite a n v).2 where
  bytes c := by
    refine Bus.route_peek _ c s.bus fun m hl _ => ?_
    obtain ⟨m', hl', hreg, -⟩ := hu
    obtain rfl : m = m' := Option.some.inj (hl.symm.trans hl')
    have hshape : m.region.shape = .uart := by rw [hreg]; rfl
    rw [Region.peek_uart hshape, Region.peek_uart ((Region.writeBytes_shape _ _ _ _ _).trans hshape)]
  shape := Bus.write_shape a _ s.bus
  rom := Bus.write_romContents a _ s.bus

theorem toNat_add_one_le (a : Word) : a.toNat + 1 ≤ 2 ^ 64 := a.isLt

/-! ## One byte (R417 to R422) -/

theorem leValue_singleton (b : Byte) : leValue [b] = b.setWidth 64 := by
  simp [leValue]

/-- A byte read of a register, with its effect on the device. -/
theorem State.memRead_register {b : Byte} (hu : s.atUart a u o) (hb : u.readByte o = (.ok b, u')) :
    ∃ s1, s.memRead a 1 = (.ok (b.setWidth 64), s1) ∧ s1.atUart a u' o ∧ State.KeptMemory s s1 ∧
      State.TouchedOnly s s1 a := by
  obtain ⟨hval, hdev⟩ := State.memRead_atUart hu (toNat_add_one_le a)
  rw [Uart.readBytes_of_ok hb] at hval hdev
  refine ⟨_, Prod.ext (hval.trans ?_) rfl, hdev, State.memRead_memory s a 1, State.memRead_touched s a 1⟩
  rw [← leValue_singleton]
  rfl

/-- A byte write of a register, with its effect on the device. -/
theorem State.memWrite_register {v : Word} (hu : s.atUart a u o) (hb : u.writeByte o (v.setWidth 8) = (.ok (), u')) :
    ∃ s1, s.memWrite a 1 v = (.ok (), s1) ∧ s1.atUart a u' o ∧ State.KeptMemory s s1 ∧ State.TouchedOnly s s1 a := by
  obtain ⟨hval, hdev⟩ := State.memWrite_atUart v hu (toNat_add_one_le a)
  rw [leBytes, Uart.writeBytes_of_ok hb] at hval hdev
  exact ⟨_, Prod.ext hval rfl, hdev, State.memWrite_atUart_memory 1 v hu, State.memWrite_touched s a v 1⟩

/-- A read that fails and leaves its region as it was changes nothing. -/
theorem State.memRead_failed {m : Mapping} {f : Fatal} (hl : Bus.lookup a s.bus = some m)
    (h : m.region.readBytes a m.top n (m.offset a) = (.error f, m.region)) : s.memRead a n = (.error f, s) := by
  have hbus : (Bus.read a n s.bus).2 = s.bus := by
    refine Bus.route_id _ s.bus fun m' hl' => ?_
    obtain rfl : m = m' := Option.some.inj (hl.symm.trans hl')
    exact congrArg Prod.snd h
  refine Prod.ext ((State.memRead_routed n hl).1.trans (congrArg (fun r => r.1.map leValue) h)) ?_
  simp only [State.memRead, hbus]

theorem State.memRead_noRegister (hu : s.atUart a u o) (h6 : 6 ≤ o) : s.memRead a 1 = (.error (.uartReg o), s) := by
  obtain ⟨m, hl, hreg, rfl⟩ := hu
  refine State.memRead_failed hl ?_
  rw [hreg]
  exact Region.readBytes_pastFive u 0 h6
    (Mapping.offset_add_le_top (Bus.holds_of_lookup hl) (toNat_add_one_le a))

theorem State.memWrite_noRegister (v : Word) (hu : s.atUart a u o) (h6 : 6 ≤ o) :
    s.memWrite a 1 v = (.error (.uartReg o), s) := by
  obtain ⟨m, hl, hreg, rfl⟩ := hu
  refine State.memWrite_failed hl ?_
  rw [hreg]
  exact Region.writeBytes_pastFive u _ [] h6
    (Mapping.offset_add_le_top (Bus.holds_of_lookup hl) (toNat_add_one_le a))

end AtUart

theorem Uart.readByte_zero_of_cons {u : Uart} {b : Byte} {rest : List Byte} (h : u.rxq = b :: rest) :
    u.readByte 0 = (.ok b, { u with rxq := rest }) := by
  simp only [Uart.readByte, Uart.receive, h]

theorem Uart.readByte_zero_of_nil {u : Uart} (h : u.rxq = []) : u.readByte 0 = (.ok 0, u) := by
  simp only [Uart.readByte, Uart.receive, h]

/-- Bit 0 of the line status says whether a byte waits. -/
theorem Uart.lineStatus_eq (u : Uart) :
    u.lineStatus = (u.lsr &&& 0xFE#8) ||| (if 0 < u.rxq.length then 1#8 else 0#8) := by
  unfold Uart.lineStatus
  rcases u.rxq with _ | ⟨b, rest⟩ <;> rfl

theorem fifoPush_of_room {q : List Byte} (b : Byte) (h : q.length < 16) : fifoPush q b = q ++ [b] := if_pos h

theorem fifoPush_of_full {q : List Byte} (b : Byte) (h : 16 ≤ q.length) : fifoPush q b = q := if_neg (Nat.not_lt.mpr h)

theorem Uart.writeByte_zero_of_room {u : Uart} (b : Byte) (h : u.txq.length < 16) :
    u.writeByte 0 b = (.ok (), { u with txq := u.txq ++ [b], sent := u.sent ++ [b] }) := by
  simp only [Uart.writeByte, Uart.transmit, fifoPush_of_room b h]

theorem Uart.writeByte_zero_of_full {u : Uart} (b : Byte) (h : 16 ≤ u.txq.length) :
    u.writeByte 0 b = (.ok (), { u with sent := u.sent ++ [b] }) := by
  simp only [Uart.writeByte, Uart.transmit, fifoPush_of_full b h]

/-- Settles O54: `State.memRead_register` at each register, whose byte read is an equation of the device. -/
theorem uartByteReads : Obligations.UartByteReads := by
  unfold Obligations.UartByteReads
  intro s a u o hu
  refine ⟨?_, ?_, ?_, ?_, ?_, ?_, ?_, State.memRead_noRegister hu⟩
  · rintro rfl hq
    exact State.memRead_register hu (Uart.readByte_zero_of_nil hq)
  · rintro b rest rfl hq
    exact State.memRead_register hu (Uart.readByte_zero_of_cons hq)
  · rintro rfl
    exact State.memRead_register hu rfl
  · rintro rfl
    exact State.memRead_register hu rfl
  · rintro rfl
    exact State.memRead_register hu rfl
  · rintro rfl
    exact State.memRead_register hu rfl
  · rintro rfl l rfl
    rw [← Uart.lineStatus_eq]
    exact State.memRead_register hu rfl

/-- Settles O55: `State.memWrite_register` at each register; offset 0 calls the sink whether or not the byte fits. -/
theorem uartByteWrites : Obligations.UartByteWrites := by
  unfold Obligations.UartByteWrites
  intro s a v u o hu
  refine ⟨?_, ?_, ?_, ?_, ?_, ?_, ?_, State.memWrite_noRegister v hu⟩
  · rintro rfl hq
    exact State.memWrite_register hu (Uart.writeByte_zero_of_room _ hq)
  · rintro rfl hq
    exact State.memWrite_register hu (Uart.writeByte_zero_of_full _ hq)
  · rintro rfl
    exact State.memWrite_register hu rfl
  · rintro rfl
    exact State.memWrite_register hu rfl
  · rintro rfl
    exact State.memWrite_register hu rfl
  · rintro rfl
    exact State.memWrite_register hu rfl
  · rintro rfl
    exact State.memWrite_register hu rfl

end Sys2Proof.Machine
end

section
/-! PROOFS. Accesses of several bytes of a UART: each is the byte access at its first offset, then the rest. -/

namespace Sys2Proof.Machine

/-! ## Where an access ends early (R56, R57, R59) -/

/-- A read whose front fails is the front: the later bytes are not read. -/
theorem Region.readBytes_error_add {acc : Word} {top k o : Nat} {r r1 : Region} {f : Fatal}
    (h : r.readBytes acc top k o = (.error f, r1)) (j : Nat) : r.readBytes acc top (k + j) o = (.error f, r1) := by
  induction k generalizing o r with
  | zero => cases h
  | succ k ih =>
    rw [Nat.add_right_comm]
    unfold Region.readBytes at h ⊢
    split
    · next htop => rwa [if_pos htop] at h
    · next htop =>
      rw [if_neg htop] at h
      rcases hb : r.readByte acc o with ⟨f' | b, r'⟩ <;> rw [hb] at h
      · exact h
      · rcases hbs : r'.readBytes acc top k (o + 1) with ⟨f' | bs, r''⟩ <;> simp only [hbs] at h
        · cases h
          simp only [ih hbs]
        · cases h

section Access

variable {s s1 : State} {a v x : Word} {m : Mapping} {f : Fatal} {k n : Nat}

/-- A read that fails and leaves the routed region as the read of `k` bytes leaves it, leaves the state as that read does. -/
theorem State.memRead_error_of_region (hl : Bus.lookup a s.bus = some m)
    (h : m.region.readBytes a m.top n (m.offset a) = (.error f, (m.region.readBytes a m.top k (m.offset a)).2)) :
    s.memRead a n = (.error f, (s.memRead a k).2) := by
  have hbus : (Bus.read a n s.bus).2 = (Bus.read a k s.bus).2 := Bus.route_snd_congr hl (by rw [h])
  refine Prod.ext ((State.memRead_routed n hl).1.trans (congrArg (fun r => r.1.map leValue) h)) ?_
  simp only [State.memRead, hbus]

theorem State.memWrite_error_of_region (hl : Bus.lookup a s.bus = some m)
    (h : m.region.writeBytes a m.top (m.offset a) (leBytes n v) =
      (.error f, (m.region.writeBytes a m.top (m.offset a) (leBytes k v)).2)) :
    s.memWrite a n v = (.error f, (s.memWrite a k v).2) := by
  have hbus : (Bus.write a (leBytes n v) s.bus).2 = (Bus.write a (leBytes k v) s.bus).2 :=
    Bus.route_snd_congr hl (by rw [h])
  refine Prod.ext ((State.memWrite_routed n v hl).1.trans (congrArg Prod.fst h)) ?_
  simp only [State.memWrite, hbus]

/-- The first error ends the access. -/
theorem State.memRead_of_error (hl : Bus.lookup a s.bus = some m) (hk : k ≤ n) (h : s.memRead a k = (.error f, s1)) :
    s.memRead a n = (.error f, s1) := by
  obtain ⟨j, rfl⟩ := Nat.exists_eq_add_of_le hk
  obtain rfl : s1 = (s.memRead a k).2 := by rw [h]
  have hval := (State.memRead_routed k hl).1
  rw [h] at hval
  rcases hr : m.region.readBytes a m.top k (m.offset a) with ⟨f' | bs, r⟩ <;> rw [hr] at hval
  · cases hval
    exact State.memRead_error_of_region hl (by rw [Region.readBytes_error_add hr, hr])
  · cases hval

theorem State.memWrite_of_error (hl : Bus.lookup a s.bus = some m) (hk : k ≤ n)
    (h : s.memWrite a k v = (.error f, s1)) : s.memWrite a n v = (.error f, s1) := by
  obtain ⟨j, rfl⟩ := Nat.exists_eq_add_of_le hk
  obtain rfl : s1 = (s.memWrite a k v).2 := by rw [h]
  have hval := (State.memWrite_routed k v hl).1
  rw [h] at hval
  rcases hr : m.region.writeBytes a m.top (m.offset a) (leBytes k v) with ⟨f' | _, r⟩ <;> rw [hr] at hval
  · cases hval
    exact State.memWrite_error_of_region hl (by rw [leBytes_append, Region.writeBytes_append, hr])
  · cases hval

/-- The offset at which an access meets the end of the address space. -/
theorem Mapping.offset_add_eq_top (hl : Bus.lookup a s.bus = some m) (h : a.toNat + k = 2 ^ 64) : m.offset a + k = m.top := by
  obtain ⟨hstart, -⟩ := Mapping.holds_iff.mp (Bus.holds_of_lookup hl)
  simp only [Mapping.offset, Mapping.top]
  omega

/-- A byte past address 2^64 − 1 is fatal after the effects of the bytes before it. -/
theorem State.memRead_pastTop (hl : Bus.lookup a s.bus = some m) (htop : a.toNat + k = 2 ^ 64) (hk : k < n)
    (h : s.memRead a k = (.ok x, s1)) : s.memRead a n = (.error (.address a), s1) := by
  obtain ⟨j, rfl⟩ := Nat.exists_eq_add_of_lt hk
  obtain rfl : s1 = (s.memRead a k).2 := by rw [h]
  have hval := (State.memRead_routed k hl).1
  rw [h] at hval
  rcases hr : m.region.readBytes a m.top k (m.offset a) with ⟨f | bs, r⟩ <;> rw [hr] at hval
  · cases hval
  · have hend : r.readBytes a m.top (j + 1) (m.offset a + k) = (.error (.address a), r) := by
      rw [Region.readBytes, if_pos (Mapping.offset_add_eq_top hl htop).ge]
    exact State.memRead_error_of_region hl (by rw [Nat.add_assoc, Region.readBytes_add_error hr hend, hr])

theorem State.memWrite_pastTop (hl : Bus.lookup a s.bus = some m) (htop : a.toNat + k = 2 ^ 64) (hk : k < n)
    (h : s.memWrite a k v = (.ok (), s1)) : s.memWrite a n v = (.error (.address a), s1) := by
  obtain ⟨j, rfl⟩ := Nat.exists_eq_add_of_lt hk
  obtain rfl : s1 = (s.memWrite a k v).2 := by rw [h]
  have hval := (State.memWrite_routed k v hl).1
  rw [h] at hval
  rcases hr : m.region.writeBytes a m.top (m.offset a) (leBytes k v) with ⟨f | _, r⟩ <;> rw [hr] at hval
  · cases hval
  · have hend : r.writeBytes a m.top (m.offset a + (leBytes k v).length) (leBytes (j + 1) (v >>> (8 * k))) =
        (.error (.address a), r) := by
      rw [leBytes, Region.writeBytes, leBytes_length, if_pos (Mapping.offset_add_eq_top hl htop).ge]
    refine State.memWrite_error_of_region hl ?_
    rw [Nat.add_assoc, leBytes_append, Region.writeBytes_append, hr]
    exact hend

end Access

/-! ## The first byte and the rest (R424) -/

section Rest

variable {s s1 s2 : State} {a c v b : Word} {u u1 u2 : Uart} {o n : Nat}

/-- A byte read that answers is one of the device. -/
theorem State.readByte_of_memRead (hu : s.atUart a u o) (h : s.memRead a 1 = (.ok b, s1)) (hu1 : s1.atUart a u1 o) :
    ∃ b0, u.readByte o = (.ok b0, u1) ∧ b = b0.setWidth 64 := by
  obtain ⟨hval, hdev⟩ := State.memRead_atUart hu (toNat_add_one_le a)
  rw [h] at hval hdev
  rcases hb : u.readByte o with ⟨f | b0, u'⟩
  · rw [Uart.readBytes_of_error hb] at hval
    cases hval
  · rw [Uart.readBytes_of_ok hb] at hval hdev
    refine ⟨b0, Prod.ext rfl (State.atUart_unique hdev hu1), ?_⟩
    rw [← leValue_singleton]
    exact Except.ok.inj hval

theorem State.writeByte_of_memWrite (hu : s.atUart a u o) (h : s.memWrite a 1 v = (.ok (), s1))
    (hu1 : s1.atUart a u1 o) : u.writeByte o (v.setWidth 8) = (.ok (), u1) := by
  obtain ⟨hval, hdev⟩ := State.memWrite_atUart v hu (toNat_add_one_le a)
  rw [h, leBytes] at hval hdev
  rcases hb : u.writeByte o (v.setWidth 8) with ⟨f | _, u'⟩
  · rw [Uart.writeBytes_of_error hb] at hval
    cases hval
  · rw [Uart.writeBytes_of_ok hb] at hdev
    exact Prod.ext rfl (State.atUart_unique hdev hu1)

/-- The rest of a read, in any state and at any address that stand at the next offset of the device. -/
theorem State.memRead_first_rest (hu : s.atUart a u o) (htop : a.toNat + (n + 1) ≤ 2 ^ 64)
    (h : s.memRead a 1 = (.ok b, s1)) (hu1 : s1.atUart a u1 o) (hu2 : s2.atUart c u1 (o + 1))
    (hctop : c.toNat + n ≤ 2 ^ 64) :
    (∀ f, (s2.memRead c n).1 = .error f → (s.memRead a (n + 1)).1 = .error f) ∧
      (∀ x, (s2.memRead c n).1 = .ok x → (s.memRead a (n + 1)).1 = .ok (b ||| (x <<< 8))) ∧
      (∀ u2, (s2.memRead c n).2.atUart c u2 (o + 1) → (s.memRead a (n + 1)).2.atUart a u2 o) := by
  obtain ⟨b0, hb, rfl⟩ := State.readByte_of_memRead hu h hu1
  obtain ⟨hval, hdev⟩ := State.memRead_atUart hu htop
  obtain ⟨hval2, hdev2⟩ := State.memRead_atUart hu2 hctop
  rw [Uart.readBytes_of_ok hb] at hval hdev
  rw [hval, hval2]
  refine ⟨fun f hf => ?_, fun x hx => ?_, fun u2 h2 => ?_⟩
  · rcases hr : (u1.readBytes n (o + 1)).1 with f' | bs <;> rw [hr] at hf
    · cases hf
      rfl
    · cases hf
  · rcases hr : (u1.readBytes n (o + 1)).1 with f' | bs <;> rw [hr] at hx
    · cases hx
    · cases hx
      rfl
  · rwa [State.atUart_unique h2 hdev2]

theorem State.memWrite_first_rest (hu : s.atUart a u o) (htop : a.toNat + (n + 1) ≤ 2 ^ 64)
    (h : s.memWrite a 1 v = (.ok (), s1)) (hu1 : s1.atUart a u1 o) (hu2 : s2.atUart c u1 (o + 1))
    (hctop : c.toNat + n ≤ 2 ^ 64) :
    (s.memWrite a (n + 1) v).1 = (s2.memWrite c n (v >>> 8)).1 ∧
      (∀ u2, (s2.memWrite c n (v >>> 8)).2.atUart c u2 (o + 1) → (s.memWrite a (n + 1) v).2.atUart a u2 o) := by
  have hb := State.writeByte_of_memWrite hu h hu1
  obtain ⟨hval, hdev⟩ := State.memWrite_atUart v hu htop
  obtain ⟨hval2, hdev2⟩ := State.memWrite_atUart (v >>> 8) hu2 hctop
  rw [leBytes, Uart.writeBytes_of_ok hb] at hval hdev
  exact ⟨hval.trans hval2.symm, fun u2 h2 => by rwa [State.atUart_unique h2 hdev2]⟩

end Rest

/-! ## The instances of the spec (R424) -/

section Instances

variable {s : State} {a : Word} {u : Uart}

theorem leValue_pair (b0 b1 : Byte) : leValue [b0, b1] = 0#48 ++ b1 ++ b0 := by
  apply BitVec.eq_of_getLsbD_eq
  intro i hi
  simp only [leValue, BitVec.getLsbD_or, BitVec.getLsbD_shiftLeft, BitVec.getLsbD_setWidth, BitVec.getLsbD_append]
  interval_cases i <;> simp

/-- LH at offset 0 dequeues, then reads `IER`. -/
theorem State.memRead_half_at_zero {b : Byte} {rest : List Byte} (htop : a.toNat + 2 ≤ 2 ^ 64) (hu : s.atUart a u 0)
    (hq : u.rxq = b :: rest) :
    ∃ s1, s.memRead a 2 = (.ok (0#48 ++ u.ier ++ b), s1) ∧ s1.atUart a { u with rxq := rest } 0 := by
  obtain ⟨hval, hdev⟩ := State.memRead_atUart hu htop
  rw [Uart.readBytes_of_ok (Uart.readByte_zero_of_cons hq)] at hval hdev
  refine ⟨_, Prod.ext (hval.trans ?_) rfl, hdev⟩
  rw [← leValue_pair]
  rfl

/-- SW at offset 0 reaches the sink, then writes `IER`, `FCR` and `LCR`. -/
theorem State.memWrite_word_at_zero (v : Word) (htop : a.toNat + 4 ≤ 2 ^ 64) (hu : s.atUart a u 0)
    (hq : u.txq.length < 16) :
    ∃ s1, s.memWrite a 4 v = (.ok (), s1) ∧
      s1.atUart a
        { u with
          txq := u.txq ++ [v.setWidth 8]
          sent := u.sent ++ [v.setWidth 8]
          ier := v.extractLsb' 8 8
          fcr := v.extractLsb' 16 8
          lcr := v.extractLsb' 24 8 } 0 := by
  obtain ⟨hval, hdev⟩ := State.memWrite_atUart v hu htop
  rw [leBytes, Uart.writeBytes_of_ok (Uart.writeByte_zero_of_room _ hq)] at hval hdev
  exact ⟨_, Prod.ext hval rfl, hdev⟩

/-- LW at offset 4 fails at offset 6, after the effect of the `LSR` read. -/
theorem State.memRead_word_at_four (htop : a.toNat + 4 ≤ 2 ^ 64) (hu : s.atUart a u 4) :
    ∃ s1, s.memRead a 4 = (.error (.uartReg 6), s1) ∧
      s1.atUart a { u with lsr := (u.lsr &&& 0xFE#8) ||| (if 0 < u.rxq.length then 1#8 else 0#8) } 4 := by
  obtain ⟨hval, hdev⟩ := State.memRead_atUart hu htop
  rw [← Uart.lineStatus_eq]
  exact ⟨_, Prod.ext hval rfl, hdev⟩

end Instances

/-- Settles O57: the first byte and the rest, the top of the space, and the instances, each by its lemma; a fetch is the
read by definition. -/
theorem uartMultiByteAccesses : Obligations.UartMultiByteAccesses := by
  unfold Obligations.UartMultiByteAccesses
  refine ⟨fun s a u o n hu htop => ?_, fun s a v u o n hu htop => ?_, fun s a v u o n k hu htop hk => ?_,
    fun s a v u htop => ⟨?_, State.memWrite_word_at_zero v htop, State.memRead_word_at_four htop, ?_⟩⟩
  · obtain ⟨m, hl, -⟩ := id hu
    exact ⟨fun f s1 => State.memRead_of_error hl (Nat.le_add_left 1 n),
      fun b s1 u1 h hu1 s2 c hu2 hc => State.memRead_first_rest hu htop h hu1 hu2 hc⟩
  · obtain ⟨m, hl, -⟩ := id hu
    exact ⟨fun f s1 => State.memWrite_of_error hl (Nat.le_add_left 1 n),
      fun s1 u1 h hu1 s2 c hu2 hc => State.memWrite_first_rest hu htop h hu1 hu2 hc⟩
  · obtain ⟨m, hl, -⟩ := hu
    exact ⟨fun x s1 => State.memRead_pastTop hl htop hk, fun f s1 => State.memRead_of_error hl hk.le,
      fun s1 => State.memWrite_pastTop hl htop hk, fun f s1 => State.memWrite_of_error hl hk.le⟩
  · exact fun b rest hu hq => State.memRead_half_at_zero (by omega) hu hq
  · rintro rfl
    rfl

end Sys2Proof.Machine
end
